-- ==== Sys2Proof/Word.lean ====
section
/-! DEFINITION. The bit vectors the spec names (R10), the two address spaces (R21), and a pair of values, one per
space. -/

namespace Sys2Proof

/-- `Byte`: an 8-bit unsigned value (R8 `BYTE_BITS`, R10). -/
abbrev Byte := BitVec 8

/-- `Addr`: a 16-bit unsigned value (R8 `ADDR_BITS`, R10), always used together with its space. -/
abbrev Addr := BitVec 16

/-- The 32-bit command word (R100). -/
abbrev Word := BitVec 32

/-- `Space`: the two distinct address spaces (R8 `SPACES`, R21). -/
inductive Space where
  | cpu
  | ppu
deriving DecidableEq, Repr, Inhabited

/-- One value for each address space: the spec's `x[CPU]`, `x[PPU]`. -/
structure PerSpace (α : Type) where
  cpu : α
  ppu : α
deriving DecidableEq, Repr, Inhabited

/-- `x[s]`. -/
def PerSpace.get {α : Type} (x : PerSpace α) : Space → α
  | .cpu => x.cpu
  | .ppu => x.ppu

/-- `x` with `x[s] <- v`; the other space's value stays. -/
def PerSpace.set {α : Type} (x : PerSpace α) (s : Space) (v : α) : PerSpace α :=
  match s with
  | .cpu => { x with cpu := v }
  | .ppu => { x with ppu := v }

end Sys2Proof
end

