-- ==== Sys2Proof/Syntax.lean ====
section
/-! DEFINITION. The thirteen port operations of spec/opcode_table.json as one inductive type, with the closed sets
their operands come from: the interrupt kinds (R8, R105) and the memory-mapped channels (R32). -/

namespace Sys2Proof

/-- `Kind`, the one-value set {NMI} (R37, R105). -/
inductive Kind where
  | nmi
deriving DecidableEq, Repr, Inhabited

/-- The five read channels of R32, in the table's order. -/
inductive ReadChannel where
  | ppuStatus
  | ppuData
  | oamData
  | joy1
  | joy2
deriving DecidableEq, Repr, Inhabited

/-- The nine write channels of R32, in the table's order. -/
inductive WriteChannel where
  | ppuCtrl
  | ppuMask
  | ppuScroll
  | ppuAddr
  | ppuData
  | oamAddr
  | oamData
  | dma
  | joy1Strobe
deriving DecidableEq, Repr, Inhabited

/-- A channel of R32 with its direction. R104 makes a channel of the wrong direction an invalid operand of REGR and
REGW: `Instr.wf` is that check. -/
inductive Channel where
  | read (ch : ReadChannel)
  | write (ch : WriteChannel)
deriving DecidableEq, Repr, Inhabited

/-- The port operations (R103), one constructor per row of the opcode table. -/
inductive Instr where
  | regr (sp : Space) (a : Addr) (ch : Channel)
  | regw (sp : Space) (a : Addr) (ch : Channel)
  | rd (sp : Space) (a : Addr)
  | wr (sp : Space) (a : Addr) (v : Byte)
  | page (p : Byte)
  | dmax (p : Byte)
  | raise (k : Kind)
  | consume
  | start
  | iter
  | quantum
  | ppuslot
  | cpuslot
deriving DecidableEq, Repr, Inhabited

end Sys2Proof
end

