-- ==== Sys2Proof/WellFormed.lean ====
section
/-! DEFINITION. Which operations the decoder can produce. The operand types already rule out every other ill-formed
operand; what is left to check is the direction of the channel that REGR and REGW name (R104). -/

namespace Sys2Proof

/-- REGR takes a read channel, REGW a write channel (R104, R108); every other operation is well formed by its type. -/
def Instr.wf : Instr → Bool
  | .regr _ _ (.read _) => true
  | .regr _ _ (.write _) => false
  | .regw _ _ (.write _) => true
  | .regw _ _ (.read _) => false
  | .rd _ _ => true
  | .wr _ _ _ => true
  | .page _ => true
  | .dmax _ => true
  | .raise _ => true
  | .consume => true
  | .start => true
  | .iter => true
  | .quantum => true
  | .ppuslot => true
  | .cpuslot => true

end Sys2Proof
end

