-- ==== Sys2Proof/Decode.lean ====
section
/-! DEFINITION. The decoder of 32-bit command words (R100 to R108), total on every word and rejecting by name, and
after it the encoder, written from the same tables (R101, R103, R104, R105). -/

namespace Sys2Proof

/-- Why a word is invalid (R108); an invalid word is refused, never faulted. -/
inductive DecodeError where
  /-- `OP` is 0x0, 0xE or 0xF. -/
  | reservedOp
  /-- `RSV` is not 000. -/
  | reservedBits
  /-- A field that R103 marks "must be 0" is not. -/
  | mustBeZero
  /-- `D` is no channel id of the operation's direction (R104). -/
  | channelId
  /-- `D` is not 0x00 for RAISE (R105). -/
  | kindCode
deriving DecidableEq, Repr, Inhabited

/-! ### Fields (R101, R102) -/

/-- `OP = w[31:28]`. -/
def opField (w : Word) : BitVec 4 := w.extractLsb' 28 4

/-- `S = w[27]`: 0 is the CPU space, 1 the PPU space. -/
def spaceField (w : Word) : BitVec 1 := w.extractLsb' 27 1

/-- `RSV = w[26:24]`. -/
def reservedField (w : Word) : BitVec 3 := w.extractLsb' 24 3

/-- `A = w[23:8]`. -/
def addrField (w : Word) : Addr := w.extractLsb' 8 16

/-- `D = w[7:0]`. -/
def dataField (w : Word) : Byte := w.extractLsb' 0 8

/-- The space an `S` bit names (R101). -/
def spaceOfBit (b : BitVec 1) : Space := if b = 0#1 then .cpu else .ppu

/-- The `S` bit of a space (R101). -/
def spaceBit : Space → BitVec 1
  | .cpu => 0#1
  | .ppu => 1#1

/-- The id of a read channel (R32). -/
def readChannelId : ReadChannel → Byte
  | .ppuStatus => 0x00#8
  | .ppuData => 0x01#8
  | .oamData => 0x02#8
  | .joy1 => 0x03#8
  | .joy2 => 0x04#8

/-- The id of a write channel (R32). -/
def writeChannelId : WriteChannel → Byte
  | .ppuCtrl => 0x10#8
  | .ppuMask => 0x11#8
  | .ppuScroll => 0x12#8
  | .ppuAddr => 0x13#8
  | .ppuData => 0x14#8
  | .oamAddr => 0x15#8
  | .oamData => 0x16#8
  | .dma => 0x17#8
  | .joy1Strobe => 0x18#8

/-- The id of a channel (R32). -/
def channelId : Channel → Byte
  | .read ch => readChannelId ch
  | .write ch => writeChannelId ch

/-- The read channel of an id: 0x00 to 0x04 and no other (R104). -/
def readChannelOfId (d : Byte) : Option ReadChannel :=
  match d.toNat with
  | 0x00 => some .ppuStatus
  | 0x01 => some .ppuData
  | 0x02 => some .oamData
  | 0x03 => some .joy1
  | 0x04 => some .joy2
  | _ => none

/-- The write channel of an id: 0x10 to 0x18 and no other (R104). -/
def writeChannelOfId (d : Byte) : Option WriteChannel :=
  match d.toNat with
  | 0x10 => some .ppuCtrl
  | 0x11 => some .ppuMask
  | 0x12 => some .ppuScroll
  | 0x13 => some .ppuAddr
  | 0x14 => some .ppuData
  | 0x15 => some .oamAddr
  | 0x16 => some .oamData
  | 0x17 => some .dma
  | 0x18 => some .joy1Strobe
  | _ => none

/-- The code of an interrupt kind (R105): 0x00 is NMI. -/
def kindCode : Kind → Byte
  | .nmi => 0x00#8

/-- The kind of a code; 0x01 to 0xFF are reserved (R105). -/
def kindOfCode (d : Byte) : Option Kind := if d = 0x00#8 then some .nmi else none

/-! ### Decoder -/

/-- An operation whose `S` and `A` must be 0 (R103): PAGE, DMAX and RAISE. -/
def decodeDataOnly (w : Word) (k : Byte → Except DecodeError Instr) : Except DecodeError Instr :=
  if spaceField w = 0#1 ∧ addrField w = 0#16 then k (dataField w) else .error .mustBeZero

/-- An operation whose `S`, `A` and `D` must be 0 (R103): CONSUME, START and the Scheduler's operations. -/
def decodeBare (w : Word) (i : Instr) : Except DecodeError Instr :=
  decodeDataOnly w fun d => if d = 0x00#8 then .ok i else .error .mustBeZero

/-- The operation a word encodes, or why the word is invalid (R103 to R108). -/
def decode (w : Word) : Except DecodeError Instr :=
  if reservedField w = 0#3 then
    match (opField w).toNat with
    | 0x1 =>
      match readChannelOfId (dataField w) with
      | some ch => .ok (.regr (spaceOfBit (spaceField w)) (addrField w) (.read ch))
      | none => .error .channelId
    | 0x2 =>
      match writeChannelOfId (dataField w) with
      | some ch => .ok (.regw (spaceOfBit (spaceField w)) (addrField w) (.write ch))
      | none => .error .channelId
    | 0x3 =>
      if dataField w = 0x00#8 then .ok (.rd (spaceOfBit (spaceField w)) (addrField w))
      else .error .mustBeZero
    | 0x4 => .ok (.wr (spaceOfBit (spaceField w)) (addrField w) (dataField w))
    | 0x5 => decodeDataOnly w fun p => .ok (.page p)
    | 0x6 => decodeDataOnly w fun p => .ok (.dmax p)
    | 0x7 => decodeDataOnly w fun d =>
      match kindOfCode d with
      | some k => .ok (.raise k)
      | none => .error .kindCode
    | 0x8 => decodeBare w .consume
    | 0x9 => decodeBare w .start
    | 0xA => decodeBare w .iter
    | 0xB => decodeBare w .quantum
    | 0xC => decodeBare w .ppuslot
    | 0xD => decodeBare w .cpuslot
    | _ => .error .reservedOp
  else .error .reservedBits

/-- The instruction the decoder reads from an instruction of `nbits` bits numbered as spec/opcode_table.json numbers
them. Every row is one 32-bit command word (R100), so the bits above `nbits` are 0 and the word is `w` itself. -/
def decodeTableWord (nbits w : Nat) : Option Instr :=
  match decode (BitVec.ofNat 32 (w % 2 ^ nbits)) with
  | .ok i => some i
  | .error _ => none

/-! ### Encoder -/

/-- The command word with the given fields and `RSV = 000` (R101). -/
def wordOf (op : BitVec 4) (s : BitVec 1) (a : Addr) (d : Byte) : Word :=
  op ++ (s ++ ((0#3 : BitVec 3) ++ (a ++ d)))

/-- The word of an operation (R103). For an ill-formed REGR or REGW it is the invalid word that names that channel. -/
def encode : Instr → Word
  | .regr sp a ch => wordOf 0x1#4 (spaceBit sp) a (channelId ch)
  | .regw sp a ch => wordOf 0x2#4 (spaceBit sp) a (channelId ch)
  | .rd sp a => wordOf 0x3#4 (spaceBit sp) a 0x00#8
  | .wr sp a v => wordOf 0x4#4 (spaceBit sp) a v
  | .page p => wordOf 0x5#4 0#1 0#16 p
  | .dmax p => wordOf 0x6#4 0#1 0#16 p
  | .raise k => wordOf 0x7#4 0#1 0#16 (kindCode k)
  | .consume => wordOf 0x8#4 0#1 0#16 0x00#8
  | .start => wordOf 0x9#4 0#1 0#16 0x00#8
  | .iter => wordOf 0xA#4 0#1 0#16 0x00#8
  | .quantum => wordOf 0xB#4 0#1 0#16 0x00#8
  | .ppuslot => wordOf 0xC#4 0#1 0#16 0x00#8
  | .cpuslot => wordOf 0xD#4 0#1 0#16 0x00#8

end Sys2Proof
end

