-- ==== Sys2Proof/Machine/Collaborators.lean ====
section
/-! DEFINITION. The boundary to the collaborators (R5, R60): who they are, the PPU's accessors, the port operations a
collaborator issues from inside a call, and the free draw that one call takes (R61). -/

namespace Sys2Proof.Machine

/-- The collaborators that issue port operations from inside a call (R60). The cartridge and the presentation layer
issue none. -/
inductive Agent where
  | cpu
  | ppu
  | input
deriving DecidableEq, Repr, Inhabited

/-- The PPU's register accessors (R60). -/
inductive PpuMethod where
  | readStatus
  | readData
  | readOamData
  | writeCtrl
  | writeMask
  | writeScroll
  | writeAddr
  | writeData
  | writeOamAddr
  | writeOamData
deriving DecidableEq, Repr, Inhabited

/-- A dispatched access a collaborator issues: RD of an address or WR of a byte at one. -/
inductive Access where
  | rd (a : Addr)
  | wr (a : Addr) (v : Byte)
deriving DecidableEq, Repr, Inhabited

/-- A port operation a collaborator issues from inside a call (R79): RD or WR on a space, or the PPU's RAISE(NMI)
callback (R196). -/
inductive Act where
  | access (sp : Space) (x : Access)
  | raise
deriving DecidableEq, Repr, Inhabited

/-- What one collaborator call does, as a free draw (R61): the operations it issues, in order, and its answer, of which
a call uses the part it has (`byte` for a call that answers a Byte, `ok` for `load`). Every behaviour of a
deterministic or adaptive collaborator along a run is some sequence of draws. -/
structure Draw where
  acts : List Act := []
  byte : Byte := 0x00#8
  ok : Bool := true
deriving DecidableEq, Repr, Inhabited

/-- The host's inputs of one START or ITER, beside the word (R106), of which an operation uses the part it has: the stop
poll's answer (R214) and the elapsed time, a `Duration` in nanoseconds (R10, R215), for ITER; the cartridge path (R211)
for START. -/
structure HostInput where
  stop : Bool := false
  elapsed : Nat := 0
  path : String := ""
deriving DecidableEq, Repr, Inhabited

end Sys2Proof.Machine
end

