-- ==== Sys2Proof/Config.lean ====
section
/-! DEFINITION. What an implementation fixes (the parameters of R8) and the free values. A free value is an opaque
constant with no body: nothing can be proved about which value it is, so every claim holds for every value. -/

namespace Sys2Proof

/-- An inclusive range of 16-bit addresses (R9). -/
structure AddrRange where
  lo : Addr
  hi : Addr
deriving DecidableEq, Repr, Inhabited

/-- The eleven parameters `ADDR_<register>` (R8, R32); a read and a write channel of one register share one. -/
structure RegisterAddrs where
  ppuStatus : Addr
  ppuData : Addr
  oamData : Addr
  joy1 : Addr
  joy2 : Addr
  ppuCtrl : Addr
  ppuMask : Addr
  ppuScroll : Addr
  ppuAddr : Addr
  oamAddr : Addr
  dma : Addr
deriving DecidableEq, Repr, Inhabited

/-- `DMA_CART_PAGE_POLICY` (R8, D12): what a page view reads inside the cartridge window. -/
inductive PagePolicy where
  | backing
  | cartridge
  | fault
deriving DecidableEq, Repr, Inhabited

/-- The parameters of the block (R8); in `maxQuanta` and `budgetCeiling`, `none` is the spec's ∞. -/
structure Params where
  quantumNs : Nat
  dmaStallCycles : Nat
  maxQuanta : Option Nat
  budgetCeiling : Option Nat
  cartWindow : PerSpace AddrRange
  addrs : RegisterAddrs
  joy2 : Byte
  pagePolicy : PagePolicy
deriving DecidableEq, Repr, Inhabited

/-- `INIT_MEM_CPU`, `INIT_MEM_PPU` (R22, D7): OPEN, so a free value. Log entry 3. -/
opaque Config.initMem : Space → Addr → Byte

/-- `JOY2_VALUE` (R146, D8): OPEN, so a free value. Log entry 4. -/
opaque Config.joy2Value : Byte

/-- The free draw of a collaborator call that no script answers (R61), by the number of free draws already taken. Log
entry 5. -/
opaque Config.draw : Nat → Machine.Draw

/-- The free host input of a START or ITER that no script answers (R106), by the number of those already taken. Log entry 7. -/
opaque Config.hostInput : Nat → Machine.HostInput

/-- Whether `ppuSteps` counts a `PPU.step` that a fault halts: R51 counts calls, R218 counts after the call and R253 ends
the slot before, and nothing settles it, so it is a free value. Log entry 23. -/
opaque Config.countsHaltedPpuStep : Bool

end Sys2Proof
end

