-- ==== Sys2Proof/Machine/Defaults.lean ====
section
/-! DEFINITION. The default parameters (R8, with R32's addresses) and the constraints on any parameters (R9). -/

namespace Sys2Proof.Machine

/-- The default register addresses (R32, D3). -/
def defaultAddrs : RegisterAddrs where
  ppuStatus := 0x2002#16
  ppuData := 0x2007#16
  oamData := 0x2004#16
  joy1 := 0x4016#16
  joy2 := 0x4017#16
  ppuCtrl := 0x2000#16
  ppuMask := 0x2001#16
  ppuScroll := 0x2005#16
  ppuAddr := 0x2006#16
  oamAddr := 0x2003#16
  dma := 0x4014#16

/-- The default cartridge windows (R8, D5). -/
def defaultWindows : PerSpace AddrRange where
  cpu := { lo := 0x8000#16, hi := 0xFFFF#16 }
  ppu := { lo := 0x0000#16, hi := 0x1FFF#16 }

/-- The default parameters (R8); `joy2` is OPEN, hence the free value. -/
def defaultParams : Params where
  quantumNs := 559
  dmaStallCycles := 513
  maxQuanta := some 29781
  budgetCeiling := none
  cartWindow := defaultWindows
  addrs := defaultAddrs
  joy2 := Config.joy2Value
  pagePolicy := .backing

/-- The address of the register behind a read channel (R32). -/
def readChannelAddr (r : RegisterAddrs) : ReadChannel → Addr
  | .ppuStatus => r.ppuStatus
  | .ppuData => r.ppuData
  | .oamData => r.oamData
  | .joy1 => r.joy1
  | .joy2 => r.joy2

/-- The address of the register behind a write channel (R32). -/
def writeChannelAddr (r : RegisterAddrs) : WriteChannel → Addr
  | .ppuCtrl => r.ppuCtrl
  | .ppuMask => r.ppuMask
  | .ppuScroll => r.ppuScroll
  | .ppuAddr => r.ppuAddr
  | .ppuData => r.ppuData
  | .oamAddr => r.oamAddr
  | .oamData => r.oamData
  | .dma => r.dma
  | .joy1Strobe => r.joy1

/-- The read channels in R32's order. -/
def readChannels : List ReadChannel := [.ppuStatus, .ppuData, .oamData, .joy1, .joy2]

/-- The write channels in R32's order. -/
def writeChannels : List WriteChannel :=
  [.ppuCtrl, .ppuMask, .ppuScroll, .ppuAddr, .ppuData, .oamAddr, .oamData, .dma, .joy1Strobe]

/-- R9's constraints: a positive quantum, a cap of at least 1, non-empty windows, and no two channels of one direction
at one address. -/
def paramsOk (p : Params) : Bool :=
  decide (0 < p.quantumNs) &&
  (match p.maxQuanta with | some n => decide (1 ≤ n) | none => true) &&
  decide (p.cartWindow.cpu.lo ≤ p.cartWindow.cpu.hi) &&
  decide (p.cartWindow.ppu.lo ≤ p.cartWindow.ppu.hi) &&
  decide (readChannels.map (readChannelAddr p.addrs)).Nodup &&
  decide (writeChannels.map (writeChannelAddr p.addrs)).Nodup

end Sys2Proof.Machine
end

