-- ==== Sys2Proof/Machine/State.lean ====
section
/-! DEFINITION. The state of the block (R20 to R55) as plain data, the reasons a step can stop, and the state right
after construction (R55, R290). -/

namespace Sys2Proof.Machine

/-- A backing array (R22) as the bytes that differ from the initial contents, by rising address. -/
abbrev Memory := List Host.Cell

/-- A read-interceptor map (R23): the bound addresses, rising, each with its channel. -/
abbrev ReadMap := List (Nat × ReadChannel)

/-- A write-interceptor map (R24): the bound addresses, rising, each with its channel. -/
abbrev WriteMap := List (Nat × WriteChannel)

/-- The Scheduler states (R28, R210). -/
inductive Sched where
  | idle
  | running
  | stopped
deriving DecidableEq, Repr, Inhabited

/-- A step position inside a quantum (R27): three PPU slots, then one CPU slot. -/
inductive Slot where
  | ppu0
  | ppu1
  | ppu2
  | cpu
deriving DecidableEq, Repr, Inhabited

/-- The Scheduler's place in its loop (R27). -/
inductive Phase where
  | outside
  | slot (q : Nat) (i : Slot)
deriving DecidableEq, Repr, Inhabited

/-- The SetupError codes (R251). -/
inductive SetupError where
  | wiring
  | cartLoad
deriving DecidableEq, Repr, Inhabited

/-- A RuntimeInvariantViolation with what R252 records beside its code: the command word, or the page index. -/
inductive RunFault where
  | lateRegistration (word : Word)
  | reentrantDispatch (word : Word)
  | dmaPageUnbound (page : Byte)
deriving DecidableEq, Repr, Inhabited

/-- The entries of the event log (R50): one per collaborator call. `ppuAccess` and `inputRead` hold the byte moved; for
a call that answers a byte it is `none` until the call has returned. -/
inductive Event where
  | cpuReset
  | cpuStep
  | cpuInterrupt (k : Kind)
  | ppuReset
  | ppuStep
  | ppuAccess (m : PpuMethod) (v : Option Byte)
  | ppuDoDma (view : List Byte)
  | cartLoad (ok : Bool)
  | cartRead (sp : Space) (a : Addr) (v : Byte)
  | cartWrite (sp : Space) (a : Addr) (v : Byte)
  | inputRead (v : Option Byte)
  | inputStrobe (v : Byte)
  | redraw
deriving DecidableEq, Repr, Inhabited

/-- The result an operation returns to its issuer (R107). -/
inductive Result where
  /-- WR, RAISE, QUANTUM, PPUSLOT and CPUSLOT return nothing. -/
  | nothing
  /-- REGR and REGW: success or failure. -/
  | registered (success : Bool)
  /-- RD: the byte read. -/
  | byte (v : Byte)
  /-- PAGE: the view of 256 bytes. -/
  | view (bytes : List Byte)
  /-- DMAX: the stall count. -/
  | stall (n : Nat)
  /-- CONSUME: none, or the kind taken. -/
  | taken (k : Option Kind)
  /-- START: the new Scheduler state. -/
  | sched (st : Sched)
  /-- ITER: the number of quanta run. -/
  | count (n : Nat)
deriving DecidableEq, Repr, Inhabited

/-- The state of the machine. The first group is the block's own state (R55); `params` holds the parameters of R8,
which no operation writes; the last group is the model's own: the inputs R61, R106 and R293 put beside the block's
state, the path START loaded from, and the last operation's result (R107). -/
structure State where
  /-- `mem[s]` (R22). -/
  mem : PerSpace Memory
  /-- `rdMap[s]` (R23). -/
  rdMap : PerSpace ReadMap
  /-- `wrMap[s]` (R24). -/
  wrMap : PerSpace WriteMap
  /-- `phase` (R27). -/
  phase : Phase
  /-- `sched` (R28). -/
  sched : Sched
  /-- `setupError` (R29). -/
  setupError : Option SetupError
  /-- `fault` (R30). -/
  fault : Option RunFault
  /-- `cartLoaded` (R42). -/
  cartLoaded : Bool
  /-- `line` (R37). -/
  line : Option Kind
  /-- `dmaStall` (R38). -/
  dmaStall : Nat
  /-- `budget`, a `Duration` in nanoseconds (R10, R39). -/
  budget : Nat
  /-- `busy[s]` (R40). -/
  busy : PerSpace Bool
  /-- `quantaThisIter` (R41). -/
  quantaThisIter : Nat
  /-- `events`, oldest first (R50). -/
  events : List Event
  /-- `ppuSteps` (R51). -/
  ppuSteps : Nat
  /-- `cpuSteps` (R51). -/
  cpuSteps : Nat
  /-- `stallSlots` (R51). -/
  stallSlots : Nat
  /-- `quanta` (R51). -/
  quanta : Nat
  /-- `dmaCount` (R51). -/
  dmaCount : Nat
  /-- `redraws` (R51). -/
  redraws : Nat
  /-- The parameters of R8. Log entry 2. -/
  params : Params
  /-- The command words the host has presented and the block has not yet taken, next first (R293). Log entry 1. -/
  commands : List Word
  /-- Scripted draws, next first; where it is empty a collaborator call takes a free draw (R61). Log entry 5. -/
  script : List Draw
  /-- How many free draws were taken. Log entry 5. -/
  drawn : Nat
  /-- Scripted host inputs of START and ITER, next first; where it is empty an operation takes a free one (R106). Log
  entry 7. -/
  hostInputs : List HostInput
  /-- How many free host inputs were taken. Log entry 7. -/
  hostDrawn : Nat
  /-- The path that START has passed to `Cartridge.load` (R106, R211), which the log's entry leaves out; `none` before.
  Log entry 8. -/
  loadPath : Option String
  /-- The result of the last operation (R107); `none` before the first, and after one that a fault halted. Log
  entry 9. -/
  result : Option Result
deriving DecidableEq, Repr, Inhabited

/-- The reasons a step could stop in a fault. There is none: a RuntimeInvariantViolation is an entry the spec describes
(R253), so it is a next state with `State.fault` set and `sched = Stopped`, and nothing else faults (R252). Log
entry 10. -/
inductive Fault where
deriving DecidableEq, Repr

/-- Why an operation has no step (R255). -/
inductive Refusal where
  /-- Raised by `exec` for an instruction whose meaning is not written: none in this model. Safe. -/
  | notModelled (mnemonic : String)
  /-- Raised by `step` when no command word waits: the block does nothing on its own. Safe. -/
  | noCommand
  /-- Raised by `step` for an invalid word, and by REGR and REGW for a channel of the wrong direction (R108). Safe. -/
  | invalidWord (why : DecodeError)
  /-- Raised by every operation once `fault ≠ none` (R253, R255). Safe. -/
  | afterFault
  /-- Raised by START outside Idle (R211, R255). Safe. -/
  | notIdle
  /-- Raised by REGR and REGW in Stopped (R130, R255). Safe. -/
  | registrationClosed
  /-- Raised by RD, WR, PAGE, DMAX, RAISE, CONSUME, ITER, QUANTUM, PPUSLOT and CPUSLOT outside Running (R255). Safe. -/
  | notRunning
deriving DecidableEq, Repr, Inhabited

/-- The state right after construction (R55, R290): the memories hold their initial contents, so nothing is listed. -/
def State.reset : State where
  mem := { cpu := [], ppu := [] }
  rdMap := { cpu := [], ppu := [] }
  wrMap := { cpu := [], ppu := [] }
  phase := .outside
  sched := .idle
  setupError := none
  fault := none
  cartLoaded := false
  line := none
  dmaStall := 0
  budget := 0
  busy := { cpu := false, ppu := false }
  quantaThisIter := 0
  events := []
  ppuSteps := 0
  cpuSteps := 0
  stallSlots := 0
  quanta := 0
  dmaCount := 0
  redraws := 0
  params := defaultParams
  commands := []
  script := []
  drawn := 0
  hostInputs := []
  hostDrawn := 0
  loadPath := none
  result := none

end Sys2Proof.Machine
end

