-- ==== Sys2Proof/Machine/Flags.lean ====
section
/-! DEFINITION. The one-bit state of the block: the busy flags (R40, R141) and the interrupt latch (R37, R192, R194).
The block has no condition flags: no operation computes one (section headers of 40, 41, 42 and 43). -/

namespace Sys2Proof.Machine

/-- `busy[s] <- b`. -/
def State.setBusy (s : State) (sp : Space) (b : Bool) : State :=
  { s with busy := s.busy.set sp b }

/-- The latch after a RAISE: set when it was idle, else unchanged (R192). -/
def latchRaise (line : Option Kind) (k : Kind) : Option Kind :=
  match line with
  | none => some k
  | some j => some j

/-- RAISE's effect (R192). -/
def State.raiseLine (s : State) (k : Kind) : State :=
  { s with line := latchRaise s.line k }

/-- CONSUME's effect on the state (R194); the value it returns is `s.line`. -/
def State.clearLine (s : State) : State :=
  { s with line := none }

end Sys2Proof.Machine
end

