-- ==== Sys2Proof/Machine/Operands.lean ====
section
/-! DEFINITION. What an address operand reaches: the backing arrays (R22), the interceptor maps (R23, R24), the
cartridge windows (R8), the three dispatch classes (R71), the addresses of a page (R140), and the standard wiring
(R160, R161). -/

namespace Sys2Proof.Machine

/-! ### Lists of keyed values, by rising key -/

/-- The value listed at a key. -/
def cellFind {β : Type} (k : Nat) : List (Nat × β) → Option β
  | [] => none
  | (j, v) :: rest => if k = j then some v else cellFind k rest

/-- The list with `v` at key `k`, in its place by rising key. -/
def cellInsert {β : Type} (k : Nat) (v : β) : List (Nat × β) → List (Nat × β)
  | [] => [(k, v)]
  | (j, w) :: rest =>
    if k < j then (k, v) :: (j, w) :: rest
    else if k = j then (k, v) :: rest
    else (j, w) :: cellInsert k v rest

/-- The list with nothing at key `k`. -/
def cellErase {β : Type} (k : Nat) : List (Nat × β) → List (Nat × β)
  | [] => []
  | (j, w) :: rest => if k = j then rest else (j, w) :: cellErase k rest

/-- The keys strictly rise. -/
abbrev cellsRise {β : Type} (l : List (Nat × β)) : Prop := l.Pairwise fun x y => x.1 < y.1

/-- The canonical form of an interceptor map: rising 16-bit addresses. -/
abbrev mapWf {β : Type} (l : List (Nat × β)) : Prop := cellsRise l ∧ ∀ c ∈ l, c.1 < 65536

/-- The canonical form of the backing array of a space: rising 16-bit addresses, and no byte listed that is the
initial one. -/
abbrev Memory.wf (sp : Space) (m : Memory) : Prop :=
  cellsRise m ∧ ∀ c ∈ m, c.1 < 65536 ∧ c.2 ≠ Config.initMem sp (BitVec.ofNat 16 c.1)

/-! ### Backing arrays (R22) -/

/-- `Raw(s, a)`: the byte of the backing array; an unlisted address holds its initial byte. -/
def State.raw (s : State) (sp : Space) (a : Addr) : Byte :=
  (cellFind a.toNat (s.mem.get sp)).getD (Config.initMem sp a)

/-- The backing array with `v` at `a`, in canonical form. -/
def memoryWrite (sp : Space) (a : Addr) (v : Byte) (m : Memory) : Memory :=
  if v = Config.initMem sp a then cellErase a.toNat m else cellInsert a.toNat v m

/-- `RawWrite(s, a, v)`. -/
def State.rawWrite (s : State) (sp : Space) (a : Addr) (v : Byte) : State :=
  { s with mem := s.mem.set sp (memoryWrite sp a v (s.mem.get sp)) }

/-! ### Interceptor maps (R23, R24) -/

/-- `rdMap[s][a]`. -/
def State.readChannelAt (s : State) (sp : Space) (a : Addr) : Option ReadChannel :=
  cellFind a.toNat (s.rdMap.get sp)

/-- `wrMap[s][a]`. -/
def State.writeChannelAt (s : State) (sp : Space) (a : Addr) : Option WriteChannel :=
  cellFind a.toNat (s.wrMap.get sp)

/-- `rdMap[s][a] <- some ch`. -/
def State.bindRead (s : State) (sp : Space) (a : Addr) (ch : ReadChannel) : State :=
  { s with rdMap := s.rdMap.set sp (cellInsert a.toNat ch (s.rdMap.get sp)) }

/-- `wrMap[s][a] <- some ch`. -/
def State.bindWrite (s : State) (sp : Space) (a : Addr) (ch : WriteChannel) : State :=
  { s with wrMap := s.wrMap.set sp (cellInsert a.toNat ch (s.wrMap.get sp)) }

/-! ### Dispatch classes (R71) -/

/-- `a ∈ CART_WINDOW_s`. -/
def State.inWindow (s : State) (sp : Space) (a : Addr) : Bool :=
  decide ((s.params.cartWindow.get sp).lo ≤ a) && decide (a ≤ (s.params.cartWindow.get sp).hi)

/-- The dispatch classes of R71; the intercepted class carries the bound channel. -/
inductive AccessClass (γ : Type) where
  | intercepted (ch : γ)
  | cartridge
  | backing
deriving DecidableEq, Repr

/-- The class of an address for one direction, tested in R71's order. -/
def classOf {γ : Type} (bound : Option γ) (window : Bool) : AccessClass γ :=
  match bound with
  | some ch => .intercepted ch
  | none => if window then .cartridge else .backing

/-- The class of an address for RD. -/
def State.readClass (s : State) (sp : Space) (a : Addr) : AccessClass ReadChannel :=
  classOf (s.readChannelAt sp a) (s.inWindow sp a)

/-- The class of an address for WR. -/
def State.writeClass (s : State) (sp : Space) (a : Addr) : AccessClass WriteChannel :=
  classOf (s.writeChannelAt sp a) (s.inWindow sp a)

/-! ### Pages (R77, R140) -/

/-- Address `i` of page `p`: `p*256 + i`. -/
def pageAddr (p : Byte) (i : Nat) : Addr := BitVec.ofNat 16 (p.toNat * 256 + i)

/-- The 256 addresses of page `p`, ascending. -/
def pageAddrs (p : Byte) : List Addr := (List.range 256).map (pageAddr p)

/-! ### Standard wiring (R160, R161) -/

/-- `WiredOK`: every standard binding stands in its map of the CPU space. -/
def State.wiredOk (s : State) : Bool :=
  readChannels.all (fun ch =>
    decide (s.readChannelAt .cpu (readChannelAddr s.params.addrs ch) = some ch)) &&
  writeChannels.all (fun ch =>
    decide (s.writeChannelAt .cpu (writeChannelAddr s.params.addrs ch) = some ch))

end Sys2Proof.Machine
end

