-- ==== Sys2Proof/Machine/Ops.lean ====
section
/-! DEFINITION. The shared operations: fault entry (R253), collaborator calls with their free draws (R50, R60, R61),
dispatch (R136 to R141), the channel actions (R142 to R155), the page view (R140), the DMA transfer (R172), and how an
operation ends (R107, R255). -/

namespace Sys2Proof.Machine

/-! ### How an inner operation ends -/

/-- An inner operation either is done, with its value, or was halted by a fault, which ends every enclosing operation
too (R253). -/
inductive Flow (α : Type) where
  | done (a : α) (s : State)
  | halted (s : State)
deriving DecidableEq, Repr

/-- Do `m`, and then `k` unless a fault halted `m`. -/
def andThen {α β : Type} (m : Flow α) (k : α → State → Flow β) : Flow β :=
  match m with
  | .done a s => k a s
  | .halted s => .halted s

/-- Fault entry (R253): record the fault, stop the Scheduler, keep everything else. There is no return from it
(R254). -/
def State.enterFault (s : State) (f : RunFault) : State :=
  { s with fault := some f, sched := .stopped }

/-- `raise Fault(code)`: enter the fault and end every enclosing operation (R253). -/
def raiseFault {α : Type} (f : RunFault) (s : State) : Flow α := .halted (s.enterFault f)

/-! ### Collaborator calls (R50, R60, R61) -/

/-- Append an entry to the event log. -/
def State.log (s : State) (e : Event) : State := { s with events := s.events ++ [e] }

/-- Put the answer into the entry at index `k`, when the call it records returns (R50). -/
def State.setEvent (s : State) (k : Nat) (e : Event) : State := { s with events := s.events.set k e }

/-- The next collaborator draw: the next scripted one, else a free one. -/
def State.nextDraw (s : State) : Draw :=
  match s.script with
  | d :: _ => d
  | [] => Config.draw s.drawn

/-- The state once that draw is taken. -/
def State.afterDraw (s : State) : State :=
  match s.script with
  | _ :: rest => { s with script := rest }
  | [] => { s with drawn := s.drawn + 1 }

/-- How the operations that a collaborator issues inside a call are run. -/
abbrev Nested := Agent → List Act → State → Flow Unit

/-- A call that answers nothing: log it, then run what the collaborator issues inside it. -/
def callPlain (nest : Nested) (ag : Agent) (e : Event) (s : State) : Flow Unit :=
  nest ag s.nextDraw.acts (s.afterDraw.log e)

/-- A call that answers a byte: its entry stands in the log from the moment of the call, and holds the answer once the
call has returned (R50). -/
def callByte (nest : Nested) (ag : Agent) (e : Option Byte → Event) (s : State) : Flow Byte :=
  andThen (nest ag s.nextDraw.acts (s.afterDraw.log (e none))) fun _ t =>
    .done s.nextDraw.byte (t.setEvent s.events.length (e (some s.nextDraw.byte)))

/-- The state with the path of a `Cartridge.load` call recorded. -/
def State.recordPath (s : State) (path : String) : State := { s with loadPath := some path }

/-- `call Cartridge.load(path)`: the cartridge issues nothing (R60), and may answer either way for any path. -/
def cartLoad (path : String) (s : State) : Flow Bool :=
  .done s.nextDraw.ok ((s.afterDraw.recordPath path).log (.cartLoad s.nextDraw.ok))

/-- `call Cartridge.read(s, a)`: the cartridge issues nothing (R60). -/
def cartRead (sp : Space) (a : Addr) (s : State) : Flow Byte :=
  .done s.nextDraw.byte (s.afterDraw.log (.cartRead sp a s.nextDraw.byte))

/-- `call Cartridge.write(s, a, v)`: it answers nothing and issues nothing, so it takes no draw. -/
def cartWrite (sp : Space) (a : Addr) (v : Byte) (s : State) : Flow Unit :=
  .done () (s.log (.cartWrite sp a v))

/-! ### Page view and DMA (R140, R172) -/

/-- The bytes at the given CPU addresses: the backing bytes, or under the policy `cartridge` the cartridge's answers
inside its window. -/
def pageBytes : List Addr → State → Flow (List Byte)
  | [], s => .done [] s
  | a :: rest, s =>
    andThen (if s.inWindow .cpu a ∧ s.params.pagePolicy = .cartridge then cartRead .cpu a s
        else .done (s.raw .cpu a) s) fun v t =>
      andThen (pageBytes rest t) fun vs u => .done (v :: vs) u

/-- Page `p` meets the cartridge window: R140's `W ≠ ∅`. -/
def State.pageMeetsWindow (s : State) (p : Byte) : Bool :=
  (pageAddrs p).any fun a => s.inWindow .cpu a

/-- `PAGE(p)` (R140). -/
def pageView (p : Byte) (s : State) : Flow (List Byte) :=
  if s.pageMeetsWindow p = true ∧ s.params.pagePolicy = .fault then raiseFault (.dmaPageUnbound p) s
  else pageBytes (pageAddrs p) s

/-- `CPU.skipCycles(DMA_STALL_CYCLES)` and the transfer's count (R38, R172). -/
def State.addStall (s : State) : State :=
  { s with dmaStall := s.dmaStall + s.params.dmaStallCycles, dmaCount := s.dmaCount + 1 }

/-- `DMAX(p)` (R172): the view, its hand-over to the PPU, then the stall (`CPU.skipCycles`, R38) and the count. -/
def dmaTransfer (nest : Nested) (p : Byte) (s : State) : Flow Nat :=
  andThen (pageView p s) fun view t =>
    andThen (callPlain nest .ppu (.ppuDoDma view) t) fun _ u =>
      .done u.params.dmaStallCycles u.addStall

/-! ### Channel actions (R141 to R155) -/

/-- `ReadAction(ch)` (R142 to R146). -/
def readAction (nest : Nested) (ch : ReadChannel) (s : State) : Flow Byte :=
  match ch with
  | .ppuStatus => callByte nest .ppu (.ppuAccess .readStatus) s
  | .ppuData => callByte nest .ppu (.ppuAccess .readData) s
  | .oamData => callByte nest .ppu (.ppuAccess .readOamData) s
  | .joy1 => callByte nest .input .inputRead s
  | .joy2 => .done s.params.joy2 s

/-- `WriteAction(ch, v)` (R147 to R155). -/
def writeAction (nest : Nested) (ch : WriteChannel) (v : Byte) (s : State) : Flow Unit :=
  match ch with
  | .ppuCtrl => callPlain nest .ppu (.ppuAccess .writeCtrl (some v)) s
  | .ppuMask => callPlain nest .ppu (.ppuAccess .writeMask (some v)) s
  | .ppuScroll => callPlain nest .ppu (.ppuAccess .writeScroll (some v)) s
  | .ppuAddr => callPlain nest .ppu (.ppuAccess .writeAddr (some v)) s
  | .ppuData => callPlain nest .ppu (.ppuAccess .writeData (some v)) s
  | .oamAddr => callPlain nest .ppu (.ppuAccess .writeOamAddr (some v)) s
  | .oamData => callPlain nest .ppu (.ppuAccess .writeOamData (some v)) s
  | .dma => andThen (dmaTransfer nest v s) fun _ t => .done () t
  | .joy1Strobe => callPlain nest .input (.inputStrobe v) s

/-- `InvokeRead(s, ch)` (R141): `busy[s]` is set around the action and left as it stands if the action faults. -/
def invokeRead (nest : Nested) (sp : Space) (ch : ReadChannel) (s : State) : Flow Byte :=
  andThen (readAction nest ch (s.setBusy sp true)) fun v t => .done v (t.setBusy sp false)

/-- `InvokeWrite(s, ch, v)` (R141). -/
def invokeWrite (nest : Nested) (sp : Space) (ch : WriteChannel) (v : Byte) (s : State) : Flow Unit :=
  andThen (writeAction nest ch v (s.setBusy sp true)) fun _ t => .done () (t.setBusy sp false)

/-! ### Dispatch (R136, R138, R139) -/

/-- RD's effect while Running: the busy check first, then the address's class. -/
def dispatchRead (nest : Nested) (sp : Space) (a : Addr) (s : State) : Flow Byte :=
  if s.busy.get sp then raiseFault (.reentrantDispatch (encode (.rd sp a))) s
  else
    match s.readClass sp a with
    | .intercepted ch => invokeRead nest sp ch s
    | .cartridge => cartRead sp a s
    | .backing => .done (s.raw sp a) s

/-- WR's effect while Running: the mirror image; only the backing class stores. -/
def dispatchWrite (nest : Nested) (sp : Space) (a : Addr) (v : Byte) (s : State) : Flow Unit :=
  if s.busy.get sp then raiseFault (.reentrantDispatch (encode (.wr sp a v))) s
  else
    match s.writeClass sp a with
    | .intercepted ch => invokeWrite nest sp ch v s
    | .cartridge => cartWrite sp a v s
    | .backing => .done () (s.rawWrite sp a v)

/-! ### What collaborators issue (R60, R62, R79, R139) -/

/-- The spaces a collaborator may access: the CPU its own, the PPU its own (R62(d)), the input device, which runs only
inside a channel action, either (R131, R139). -/
def Agent.reaches : Agent → Space → Bool
  | .cpu, .cpu => true
  | .cpu, .ppu => false
  | .ppu, .cpu => false
  | .ppu, .ppu => true
  | .input, _ => true

/-- The operations a collaborator's obligations let happen (R62): RAISE from the PPU alone (U21), accesses to a space
it reaches, and any access that re-enters a busy space, which R139 turns into a fault (log entry 6). RD and WR are treated
alike in every call, the resets of START among them: R131 makes both legal there, and R61 allows no law beyond R62's (log
entry 24). -/
def mayIssue (ag : Agent) (act : Act) (s : State) : Bool :=
  match act with
  | .raise => decide (ag = .ppu)
  | .access sp _ => ag.reaches sp || s.busy.get sp

/-- One operation issued by a collaborator, with its result handed back to it. -/
def perform (nest : Nested) (act : Act) (s : State) : Flow Unit :=
  match act with
  | .raise => .done () (s.raiseLine .nmi)
  | .access sp (.rd a) => andThen (dispatchRead nest sp a s) fun _ t => .done () t
  | .access sp (.wr a v) => dispatchWrite nest sp a v s

/-- An operation a collaborator's draw names: performed if its obligations let it happen. -/
def issue (nest : Nested) (ag : Agent) (act : Act) (s : State) : Flow Unit :=
  if mayIssue ag act s then perform nest act s else .done () s

/-- The operations of a call, one after another, each complete before the next (R79). -/
def runActs (nest : Nested) (ag : Agent) : List Act → State → Flow Unit
  | [], s => .done () s
  | act :: rest, s => andThen (issue nest ag act s) fun _ t => runActs nest ag rest t

/-- Collaborator calls nested up to `n` deep. A call inside a channel action runs with that action's space busy, and
there are two spaces, so three levels are all there can be (R79, R139); deeper levels change nothing. Log entry 13. -/
def nestedTo : Nat → Nested
  | 0 => fun _ _ s => .done () s
  | n + 1 => runActs (nestedTo n)

/-- The operations a collaborator issues inside a call, to the full depth. -/
def nested : Nested := nestedTo 3

/-! ### How an operation ends (R107, R255, R257(e)) -/

/-- The state in which an operation has ended: outside the Scheduler's loop again (R27), with the result it returns. -/
def State.ended (s : State) (r : Option Result) : State := { s with phase := .outside, result := r }

/-- The outcome of an operation that has a step: done, with its result, or halted by a fault, with none. -/
def finish (r : Flow Result) : Host.Outcome State Fault Refusal :=
  match r with
  | .done v s => .next (s.ended (some v))
  | .halted s => .next (s.ended none)

/-- The operations that are legal only while Running with no fault (R131, R255). -/
def whileRunning (s : State) (k : State → Flow Result) : Host.Outcome State Fault Refusal :=
  if s.fault ≠ none then .refused .afterFault
  else if s.sched ≠ .running then .refused .notRunning
  else finish (k s)

/-- Registration (R130): refused after a fault or in Stopped, a fault while Running, else `k`. `word` is what a
LATE_REGISTRATION records (R252). -/
def whileSetup (word : Word) (s : State) (k : State → Flow Result) : Host.Outcome State Fault Refusal :=
  if s.fault ≠ none then .refused .afterFault
  else
    match s.sched with
    | .stopped => .refused .registrationClosed
    | .running => finish (raiseFault (.lateRegistration word) s)
    | .idle => finish (k s)

/-- `f`'s value as an operation's result. -/
def withResult {α : Type} (f : Flow α) (r : α → Result) : Flow Result :=
  andThen f fun a s => .done (r a) s

end Sys2Proof.Machine
end

