-- ==== Sys2Proof/Machine/AddressSpace.lean ====
section
/-! DEFINITION. The AddressSpace and PeripheralRegistry operations: REGR, REGW, RD, WR and PAGE (R130 to R140). -/

namespace Sys2Proof.Machine

/-- REGR (R132): a duplicate fails and changes nothing; a write channel is an invalid operand (R104). -/
def execRegr (sp : Space) (a : Addr) (ch : Channel) (s : State) : Host.Outcome State Fault Refusal :=
  match ch with
  | .write _ => .refused (.invalidWord .channelId)
  | .read rc =>
    whileSetup (encode (.regr sp a ch)) s fun s =>
      match s.readChannelAt sp a with
      | some _ => .done (.registered false) s
      | none => .done (.registered true) (s.bindRead sp a rc)

/-- REGW (R134): REGR's mirror image. -/
def execRegw (sp : Space) (a : Addr) (ch : Channel) (s : State) : Host.Outcome State Fault Refusal :=
  match ch with
  | .read _ => .refused (.invalidWord .channelId)
  | .write wc =>
    whileSetup (encode (.regw sp a ch)) s fun s =>
      match s.writeChannelAt sp a with
      | some _ => .done (.registered false) s
      | none => .done (.registered true) (s.bindWrite sp a wc)

/-- RD (R136). -/
def execRd (sp : Space) (a : Addr) (s : State) : Host.Outcome State Fault Refusal :=
  whileRunning s fun s => withResult (dispatchRead nested sp a s) .byte

/-- WR (R138). -/
def execWr (sp : Space) (a : Addr) (v : Byte) (s : State) : Host.Outcome State Fault Refusal :=
  whileRunning s fun s => withResult (dispatchWrite nested sp a v s) fun _ => .nothing

/-- PAGE (R140). -/
def execPage (p : Byte) (s : State) : Host.Outcome State Fault Refusal :=
  whileRunning s fun s => withResult (pageView p s) .view

end Sys2Proof.Machine
end

