-- ==== Sys2Proof/Machine/Dma.lean ====
section
/-! DEFINITION. The DMA controller's operation, DMAX (R172). It holds no state of its own (R170). -/

namespace Sys2Proof.Machine

/-- DMAX (R172), whoever issues it: the DMA_W channel runs the same transfer inside a WR (R154, R171). -/
def execDmax (p : Byte) (s : State) : Host.Outcome State Fault Refusal :=
  whileRunning s fun s => withResult (dmaTransfer nested p s) .stall

end Sys2Proof.Machine
end

