-- ==== Sys2Proof/Machine/InterruptLine.lean ====
section
/-! DEFINITION. The InterruptLine's operations, RAISE and CONSUME (R190 to R200). -/

namespace Sys2Proof.Machine

/-- RAISE (R192): a raise while pending is a no-op. -/
def execRaise (k : Kind) (s : State) : Host.Outcome State Fault Refusal :=
  whileRunning s fun s => .done .nothing (s.raiseLine k)

/-- CONSUME (R194): one indivisible read and clear. -/
def execConsume (s : State) : Host.Outcome State Fault Refusal :=
  whileRunning s fun s => .done (.taken s.line) s.clearLine

end Sys2Proof.Machine
end

