-- ==== Sys2Proof/Machine/Scheduler.lean ====
section
/-! DEFINITION. The Clock/Scheduler's operations: START, ITER, QUANTUM, PPUSLOT and CPUSLOT (R210 to R220). -/

namespace Sys2Proof.Machine

/-! ### Slots and quanta (R218 to R220) -/

/-- One more call to `PPU.step` (R51). -/
def State.countPpuStep (s : State) : State := { s with ppuSteps := s.ppuSteps + 1 }

/-- One more call to `CPU.step` (R51). -/
def State.countCpuStep (s : State) : State := { s with cpuSteps := s.cpuSteps + 1 }

/-- One more quantum run (R51). -/
def State.countQuantum (s : State) : State := { s with quanta := s.quanta + 1 }

/-- A CPU slot that only decrements the stall counter (R175, R219). -/
def State.stallSlot (s : State) : State :=
  { s with dmaStall := s.dmaStall - 1, stallSlots := s.stallSlots + 1 }

/-- A step of a processor and its count, which follows the call (R218, R219). `evenHalted` says whether a step that a
fault halts is counted too. -/
def counted (count : State → State) (evenHalted : Bool) (call : Flow Unit) : Flow Unit :=
  match call with
  | .done _ t => .done () (count t)
  | .halted t => .halted (if evenHalted then count t else t)

/-- PPUSLOT's effect (R218): `PPU.step`, then its count. Whether a step that a fault halts is counted is a free value.
Log entry 23. -/
def ppuSlot (s : State) : Flow Unit :=
  counted State.countPpuStep Config.countsHaltedPpuStep (callPlain nested .ppu .ppuStep s)

/-- The delivery at the CPU's step boundary (R197): CONSUME, then `CPU.interrupt` if it took a kind. -/
def deliver (s : State) : Flow Unit :=
  match s.line with
  | none => .done () s.clearLine
  | some k => callPlain nested .cpu (.cpuInterrupt k) s.clearLine

/-- CPUSLOT's effect (R219): a stall slot, or a CPU step, its count and its delivery. A `CPU.step` that a fault halts is
counted too: `cpuSteps` counts calls (R51), and the end states of P4 and P5 (95_test_vectors.md) count it. Log entry
18. -/
def cpuSlot (s : State) : Flow Unit :=
  if s.dmaStall > 0 then .done () s.stallSlot
  else andThen (counted State.countCpuStep true (callPlain nested .cpu .cpuStep s)) fun _ t => deliver t

/-- The Scheduler at slot `i` of the current quantum (R27). Log entry 12. -/
def State.atSlot (s : State) (i : Slot) : State := { s with phase := .slot s.quantaThisIter i }

/-- QUANTUM's effect (R220): the slots PPU0, PPU1, PPU2 and CPU, in this order. -/
def quantum (s : State) : Flow Unit :=
  andThen (ppuSlot (s.atSlot .ppu0)) fun _ t =>
    andThen (ppuSlot (t.atSlot .ppu1)) fun _ u =>
      andThen (ppuSlot (u.atSlot .ppu2)) fun _ v =>
        andThen (cpuSlot (v.atSlot .cpu)) fun _ w =>
          .done () w.countQuantum

/-! ### The host's inputs (R106) -/

/-- The host's inputs of this START or ITER: the next scripted ones, else free ones. -/
def State.hostInput (s : State) : HostInput :=
  match s.hostInputs with
  | h :: _ => h
  | [] => Config.hostInput s.hostDrawn

/-- The state once those inputs are taken. -/
def State.afterHostInput (s : State) : State :=
  match s.hostInputs with
  | _ :: rest => { s with hostInputs := rest }
  | [] => { s with hostDrawn := s.hostDrawn + 1 }

/-! ### The outer iteration (R213 to R217) -/

/-- `quantaThisIter < MAX_QUANTA_PER_ITER`; no bound when the cap is ∞. -/
def State.underCap (s : State) : Bool :=
  match s.params.maxQuanta with
  | some n => decide (s.quantaThisIter < n)
  | none => true

/-- One quantum taken from the budget and counted in this ITER (R213). -/
def State.charged (s : State) : State :=
  { s with budget := s.budget - s.params.quantumNs, quantaThisIter := s.quantaThisIter + 1 }

/-- The drain loop of R216. Each pass takes one quantum from the budget, so `budget / QUANTUM_NS` passes are enough
(QUANTUM_NS > 0, R9): `fuel` is that bound, and the loop's own test ends it. Log entry 14. -/
def drain : Nat → State → Flow Unit
  | 0, s => .done () s
  | fuel + 1, s =>
    if s.params.quantumNs ≤ s.budget ∧ s.underCap = true then
      andThen (quantum s) fun _ t => drain fuel t.charged
    else .done () s

/-- `if budget > BUDGET_CEILING_NS: budget <- BUDGET_CEILING_NS`. -/
def State.applyCeiling (s : State) : State :=
  match s.params.budgetCeiling with
  | some c => if s.budget > c then { s with budget := c } else s
  | none => s

/-- Step 4 (R217): one redraw request. -/
def State.redraw (s : State) : State := { s.log .redraw with redraws := s.redraws + 1 }

/-- The state in which ITER's drain loop starts: the elapsed time added and the count at 0 (R215, R216). -/
def State.beginIter (s : State) (elapsed : Nat) : State :=
  { s with budget := s.budget + elapsed, quantaThisIter := 0 }

/-- ITER's effect with given host inputs (R213): the stop is seen before any time is added (R214). An ITER that stops
leaves `quantaThisIter` as it was, as in R213's pseudocode, where R41 says that each ITER starts by setting it to 0. Log
entry 25. -/
def outerIteration (h : HostInput) (s : State) : Flow Result :=
  if h.stop then .done (.count 0) { s with sched := .stopped }
  else
    let t := s.beginIter h.elapsed
    andThen (drain (t.budget / t.params.quantumNs) t) fun _ u =>
      .done (.count u.quantaThisIter) u.applyCeiling.redraw

/-! ### Leaving Idle (R211, R212) -/

/-- `cartLoaded <- true` (R211). -/
def State.loaded (s : State) : State := { s with cartLoaded := true }

/-- START's failure outcomes (R211, R251). -/
def State.abortStart (s : State) (e : SetupError) : State :=
  { s with setupError := some e, sched := .stopped }

/-- The state `EnterRunning` sets up before it resets the processors (R212). -/
def State.running (s : State) : State :=
  { s with
    sched := .running
    line := none
    dmaStall := 0
    budget := 0
    busy := { cpu := false, ppu := false } }

/-- `EnterRunning()` (R212): the CPU is reset first, then the PPU. Either reset may issue WR as well as RD (R131). Log
entry 24. -/
def enterRunning (s : State) : Flow Unit :=
  andThen (callPlain nested .cpu .cpuReset s.running) fun _ t => callPlain nested .ppu .ppuReset t

/-- START's effect in Idle with the host's path (R211): the wiring check, then the load, then the entry to Running. -/
def leaveIdle (path : String) (s : State) : Flow Result :=
  if s.wiredOk = false then .done (.sched .stopped) (s.abortStart .wiring)
  else
    andThen (cartLoad path s) fun ok t =>
      if ok = false then .done (.sched .stopped) (t.abortStart .cartLoad)
      else withResult (enterRunning t.loaded) fun _ => .sched .running

/-! ### The operations -/

/-- START (R211). -/
def execStart (s : State) : Host.Outcome State Fault Refusal :=
  if s.fault ≠ none then .refused .afterFault
  else if s.sched ≠ .idle then .refused .notIdle
  else finish (leaveIdle s.hostInput.path s.afterHostInput)

/-- ITER (R213). -/
def execIter (s : State) : Host.Outcome State Fault Refusal :=
  whileRunning s fun s => outerIteration s.hostInput s.afterHostInput

/-- QUANTUM (R220). -/
def execQuantum (s : State) : Host.Outcome State Fault Refusal :=
  whileRunning s fun s => withResult (quantum s) fun _ => .nothing

/-- PPUSLOT (R218). -/
def execPpuslot (s : State) : Host.Outcome State Fault Refusal :=
  whileRunning s fun s => withResult (ppuSlot s) fun _ => .nothing

/-- CPUSLOT (R219). -/
def execCpuslot (s : State) : Host.Outcome State Fault Refusal :=
  whileRunning s fun s => withResult (cpuSlot s) fun _ => .nothing

end Sys2Proof.Machine
end

