-- ==== Sys2Proof/Machine/Dispatch.lean ====
section
/-! DEFINITION. One arm per port operation. -/

namespace Sys2Proof.Machine

/-- The meaning of an operation in a state. -/
def exec (i : Instr) (s : State) : Host.Outcome State Fault Refusal :=
  match i with
  | .regr sp a ch => Sys2Proof.Machine.execRegr sp a ch s
  | .regw sp a ch => Sys2Proof.Machine.execRegw sp a ch s
  | .rd sp a => Sys2Proof.Machine.execRd sp a s
  | .wr sp a v => Sys2Proof.Machine.execWr sp a v s
  | .page p => Sys2Proof.Machine.execPage p s
  | .dmax p => Sys2Proof.Machine.execDmax p s
  | .raise k => Sys2Proof.Machine.execRaise k s
  | .consume => Sys2Proof.Machine.execConsume s
  | .start => Sys2Proof.Machine.execStart s
  | .iter => Sys2Proof.Machine.execIter s
  | .quantum => Sys2Proof.Machine.execQuantum s
  | .ppuslot => Sys2Proof.Machine.execPpuslot s
  | .cpuslot => Sys2Proof.Machine.execCpuslot s

end Sys2Proof.Machine
end

