-- ==== Sys2Proof/Machine/Step.lean ====
section
/-! DEFINITION. One step of the machine: take the next command word the host has presented, decode it and run it
(R100, R108, R293). -/

namespace Sys2Proof.Machine

/-- The next command word, if the host has presented one, is taken, decoded and run; an invalid word is refused
(R108). -/
def step (s : State) : Host.Outcome State Fault Refusal :=
  match s.commands with
  | [] => .refused .noCommand
  | w :: rest =>
    match decode w with
    | .error e => .refused (.invalidWord e)
    | .ok i => exec i { s with commands := rest }

/-- `s` with the instruction of `nbits` bits `w` (numbered as the opcode table numbers them) presented as the next
command word, ahead of those that wait. -/
def State.withFetchWord (s : State) (nbits w : Nat) : State :=
  { s with commands := BitVec.ofNat 32 (w % 2 ^ nbits) :: s.commands }

end Sys2Proof.Machine
end

