-- ==== Sys2Proof/Machine/Assembler.lean ====
section
/-! DEFINITION. The textual form of the operations (R110) and the two pseudo-operations, WIRE (R111) and DMA (R112). -/

namespace Sys2Proof.Machine

/-- One hexadecimal digit. -/
def hexDigit (n : Nat) : String :=
  match n with
  | 0 => "0" | 1 => "1" | 2 => "2" | 3 => "3" | 4 => "4" | 5 => "5" | 6 => "6" | 7 => "7"
  | 8 => "8" | 9 => "9" | 10 => "A" | 11 => "B" | 12 => "C" | 13 => "D" | 14 => "E" | _ => "F"

/-- The last `digits` hexadecimal digits of a number. -/
def hexDigits : Nat → Nat → String
  | 0, _ => ""
  | digits + 1, n => hexDigits digits (n / 16) ++ hexDigit (n % 16)

/-- A byte as R110 writes one. -/
def byteText (v : Byte) : String := "0x" ++ hexDigits 2 v.toNat

/-- An address as R110 writes one. -/
def addrText (a : Addr) : String := "0x" ++ hexDigits 4 a.toNat

/-- A space as R110 writes one. -/
def spaceText : Space → String
  | .cpu => "cpu"
  | .ppu => "ppu"

/-- The name of a channel (R32). -/
def channelText : Channel → String
  | .read .ppuStatus => "PPU_STATUS_R"
  | .read .ppuData => "PPU_DATA_R"
  | .read .oamData => "OAM_DATA_R"
  | .read .joy1 => "JOY1_R"
  | .read .joy2 => "JOY2_R"
  | .write .ppuCtrl => "PPU_CTRL_W"
  | .write .ppuMask => "PPU_MASK_W"
  | .write .ppuScroll => "PPU_SCROLL_W"
  | .write .ppuAddr => "PPU_ADDR_W"
  | .write .ppuData => "PPU_DATA_W"
  | .write .oamAddr => "OAM_ADDR_W"
  | .write .oamData => "OAM_DATA_W"
  | .write .dma => "DMA_W"
  | .write .joy1Strobe => "JOY1_STROBE_W"

/-- The textual form of an operation (R110). -/
def instrText : Instr → String
  | .regr sp a ch => "REGR " ++ spaceText sp ++ ", " ++ addrText a ++ ", " ++ channelText ch
  | .regw sp a ch => "REGW " ++ spaceText sp ++ ", " ++ addrText a ++ ", " ++ channelText ch
  | .rd sp a => "RD " ++ spaceText sp ++ ", " ++ addrText a
  | .wr sp a v => "WR " ++ spaceText sp ++ ", " ++ addrText a ++ ", " ++ byteText v
  | .page p => "PAGE " ++ byteText p
  | .dmax p => "DMAX " ++ byteText p
  | .raise .nmi => "RAISE NMI"
  | .consume => "CONSUME"
  | .start => "START"
  | .iter => "ITER"
  | .quantum => "QUANTUM"
  | .ppuslot => "PPUSLOT"
  | .cpuslot => "CPUSLOT"

/-- The pseudo-operation WIRE (R111): one registration per row of R32, in its order. -/
def wire (r : RegisterAddrs) : List Instr :=
  readChannels.map (fun ch => Instr.regr .cpu (readChannelAddr r ch) (.read ch)) ++
  writeChannels.map (fun ch => Instr.regw .cpu (writeChannelAddr r ch) (.write ch))

/-- The pseudo-operation `DMA <page>` (R112). -/
def dmaPseudo (r : RegisterAddrs) (p : Byte) : Instr := .wr .cpu r.dma p

end Sys2Proof.Machine
end

