-- ==== Sys2Proof/Safety.lean ====
section
/-! DEFINITION. What counts as a sound state and a sound run, in the terms the statements use. -/

namespace Sys2Proof.Machine

/-- The state in which dispatch and the Scheduler's operations are legal (R131, R255). -/
abbrev State.live (s : State) : Prop := s.sched = .running ∧ s.fault = none

/-- The state in which registration is legal (R130). -/
abbrev State.inSetup (s : State) : Prop := s.sched = .idle ∧ s.fault = none

/-- No interceptor of either space is running: how every operation of the host's finds the block (R40). -/
abbrev State.unbusy (s : State) : Prop := s.busy = { cpu := false, ppu := false }

/-- The 3:1 accounting of R221. -/
abbrev State.ratioHolds (s : State) : Prop :=
  s.ppuSteps = 3 * s.quanta ∧ s.cpuSteps + s.stallSlots = s.quanta

/-- The counters of R51 that count calls agree with the event log of R50, but for a `PPU.step` that a fault halted where
the free value leaves it uncounted (log entry 23). -/
abbrev State.countersMatchLog (s : State) : Prop :=
  (s.events.count .ppuStep = s.ppuSteps ∨
      s.fault ≠ none ∧ Config.countsHaltedPpuStep = false ∧ s.events.count .ppuStep = s.ppuSteps + 1) ∧
    s.cpuSteps = s.events.count .cpuStep ∧
    s.redraws = s.events.count .redraw

/-- The backing arrays and interceptor maps are in canonical form. -/
abbrev State.canonical (s : State) : Prop :=
  (∀ sp, Memory.wf sp (s.mem.get sp)) ∧ (∀ sp, mapWf (s.rdMap.get sp)) ∧ (∀ sp, mapWf (s.wrMap.get sp))

/-- Nothing has happened yet but registration: what R292 says of the state before the first quantum. -/
structure State.Pristine (s : State) : Prop where
  mem : s.mem = { cpu := [], ppu := [] }
  fault : s.fault = none
  setupError : s.setupError = none
  cartLoaded : s.cartLoaded = false
  line : s.line = none
  dmaStall : s.dmaStall = 0
  budget : s.budget = 0
  quantaThisIter : s.quantaThisIter = 0
  events : s.events = []
  counters : s.ppuSteps = 0 ∧ s.cpuSteps = 0 ∧ s.stallSlots = 0 ∧ s.quanta = 0 ∧ s.dmaCount = 0 ∧ s.redraws = 0

/-- The invariant of the block between operations. -/
structure State.Inv (s : State) : Prop where
  /-- The memories and maps are in canonical form (at most one interceptor per address and direction, R23, R24). -/
  canonical : s.canonical
  /-- Between operations the Scheduler is outside its loop (R27). -/
  outside : s.phase = .outside
  /-- No interceptor is running, unless a fault left one unfinished (R40, R141). -/
  unbusy : s.fault = none → s.unbusy
  /-- A faulted machine is Stopped (R253). -/
  faulted : s.fault ≠ none → s.sched = .stopped
  /-- A setup error is an Idle -> Stopped outcome: no fault, and no cartridge (R29, R211). -/
  setupFailed : s.setupError ≠ none → s.sched = .stopped ∧ s.fault = none ∧ s.cartLoaded = false
  /-- The machine runs only once it is wired and a cartridge is loaded (R161, R211). -/
  wired : s.sched = .running → s.wiredOk = true ∧ s.cartLoaded = true
  /-- In Idle nothing has happened but registration (R131, R292). -/
  pristine : s.sched = .idle → s.Pristine
  /-- The counters agree with the event log (R50, R51). -/
  counters : s.countersMatchLog

/-- The log entry of a read channel's collaborator call with its answer, none while it has not come (R50, R142 to R145);
JOY2_R makes none (R146). -/
def readCallEvent (ch : ReadChannel) (answer : Option Byte) : Option Event :=
  match ch with
  | .ppuStatus => some (.ppuAccess .readStatus answer)
  | .ppuData => some (.ppuAccess .readData answer)
  | .oamData => some (.ppuAccess .readOamData answer)
  | .joy1 => some (.inputRead answer)
  | .joy2 => none

/-- The log entry of a write channel's collaborator call with the byte `v` (R147 to R153, R155); DMA_W runs DMAX
instead (R154). -/
def writeCallEvent (ch : WriteChannel) (v : Byte) : Option Event :=
  match ch with
  | .ppuCtrl => some (.ppuAccess .writeCtrl (some v))
  | .ppuMask => some (.ppuAccess .writeMask (some v))
  | .ppuScroll => some (.ppuAccess .writeScroll (some v))
  | .ppuAddr => some (.ppuAccess .writeAddr (some v))
  | .ppuData => some (.ppuAccess .writeData (some v))
  | .oamAddr => some (.ppuAccess .writeOamAddr (some v))
  | .oamData => some (.ppuAccess .writeOamData (some v))
  | .dma => none
  | .joy1Strobe => some (.inputStrobe v)

/-- The operation of the opcode table that a collaborator's operation is (R79, R196). -/
def actInstr : Act → Instr
  | .access sp (.rd a) => .rd sp a
  | .access sp (.wr a v) => .wr sp a v
  | .raise => .raise .nmi

/-- The operations a collaborator issues inside a call (R62(d), R131, R196): the CPU accesses its space, the PPU
its own or raises, and the input device, which runs only inside a channel action, accesses either. -/
def issuedBy : Agent → Act → Prop
  | .cpu, act => ∃ x, act = .access .cpu x
  | .ppu, act => act = .raise ∨ ∃ x, act = .access .ppu x
  | .input, act => ∃ sp x, act = .access sp x

/-- `d` is a draw that a run from `s` to `t` took: from the script, or a free one (R61). -/
def Takes (s t : State) (d : Draw) : Prop :=
  (∃ taken, s.script = taken ++ t.script ∧ d ∈ taken) ∨ ∃ k, s.drawn ≤ k ∧ k < t.drawn ∧ d = Config.draw k

/-- A draw whose call issues no WR: what R212 says of `CPU.reset`. -/
def Draw.writesNothing (d : Draw) : Prop := ∀ sp a v, Act.access sp (.wr a v) ∉ d.acts

/-- The collaborator a read channel calls (R142 to R145); JOY2_R calls none. -/
def readChannelAgent : ReadChannel → Agent
  | .joy1 => .input
  | .ppuStatus | .ppuData | .oamData | .joy2 => .ppu

/-- The collaborator a write channel calls (R147 to R155). -/
def writeChannelAgent : WriteChannel → Agent
  | .joy1Strobe => .input
  | .ppuCtrl | .ppuMask | .ppuScroll | .ppuAddr | .ppuData | .oamAddr | .oamData | .dma => .ppu

/-- A fault halts the operation inside the collaborator call `e` that a channel of `sp` made: the call stays logged and the
space stays busy (R50, R141, R253). -/
def haltsInside (s : State) (sp : Space) (e : Event) (o : Host.Outcome State Fault Refusal) : Prop :=
  ∃ t, o = .next t ∧ t.fault ≠ none ∧ t.sched = .stopped ∧ t.result = none ∧ t.busy.get sp = true ∧
    s.events ++ [e] <+: t.events

/-- The operations run one after another by the host, stopping at the first that has no step. -/
def runInstrs : List Instr → State → Host.Outcome State Fault Refusal
  | [], s => .next s
  | i :: rest, s =>
    match exec i s with
    | .next t => runInstrs rest t
    | .fault f => .fault f
    | .refused r => .refused r

end Sys2Proof.Machine
end

