-- ==== Sys2Proof/Certificates/Slice0/Obligations.lean ====
section
/-! DEFINITION. The statements for the provers, in the order of the spec's files. A next state is written out field by
field over the state before, so that an equation states the effect and the frame at once. A free draw or host input is
any value: `s.nextDraw`, `s.hostInput`, or the head of `s.script`, `s.hostInputs` (log entries 5 and 7). `result` is the model's
field for what R107 returns (log entry 9). -/

open Sys2Proof Sys2Proof.Machine

/-! ### Encoding (30_encoding.md) -/

/-- R101 to R105, R108: encoding and then decoding a well-formed operation gives it back, every operand at every
value. -/
def Obligations.DecodeOfEncodeGivesBack : Prop :=
  ∀ i : Instr, i.wf = true → decode (encode i) = .ok i

/-- R108: a word that decodes has exactly one spelling, the encoder's, and decodes to a well-formed operation. -/
def Obligations.EachValidWordHasOneMeaning : Prop :=
  ∀ (w : Word) (i : Instr), decode w = .ok i → i.wf = true ∧ encode i = w

/-- R108: the invalid words are exactly these, and `step` refuses them. -/
def Obligations.InvalidWordsAreRefused : Prop :=
  ∀ w : Word,
    ((∃ e, decode w = .error e) ↔
      (w.extractLsb' 28 4 = 0x0#4 ∨ w.extractLsb' 28 4 = 0xE#4 ∨ w.extractLsb' 28 4 = 0xF#4) ∨
      w.extractLsb' 24 3 ≠ 0#3 ∨
      (w.extractLsb' 28 4 = 0x1#4 ∧ 0x04#8 < w.extractLsb' 0 8) ∨
      (w.extractLsb' 28 4 = 0x2#4 ∧ (w.extractLsb' 0 8 < 0x10#8 ∨ 0x18#8 < w.extractLsb' 0 8)) ∨
      (w.extractLsb' 28 4 = 0x3#4 ∧ w.extractLsb' 0 8 ≠ 0x00#8) ∨
      ((0x5#4 ≤ w.extractLsb' 28 4 ∧ w.extractLsb' 28 4 ≤ 0xD#4) ∧
        (w.extractLsb' 27 1 ≠ 0#1 ∨ w.extractLsb' 8 16 ≠ 0#16)) ∨
      ((0x7#4 ≤ w.extractLsb' 28 4 ∧ w.extractLsb' 28 4 ≤ 0xD#4) ∧ w.extractLsb' 0 8 ≠ 0x00#8)) ∧
    ∀ (s : State) (rest : List Word) (e : DecodeError), s.commands = w :: rest → decode w = .error e →
      step s = .refused (.invalidWord e)

/-- R109: how many words each operation has; every other word is invalid. -/
def Obligations.ValidWordCounts : Prop :=
  Set.ncard { w : Word | ∃ sp a ch, decode w = .ok (.regr sp a ch) } = 655360 ∧
  Set.ncard { w : Word | ∃ sp a ch, decode w = .ok (.regw sp a ch) } = 1179648 ∧
  Set.ncard { w : Word | ∃ sp a, decode w = .ok (.rd sp a) } = 2 ^ 17 ∧
  Set.ncard { w : Word | ∃ sp a v, decode w = .ok (.wr sp a v) } = 2 ^ 25 ∧
  Set.ncard { w : Word | ∃ p, decode w = .ok (.page p) } = 256 ∧
  Set.ncard { w : Word | ∃ p, decode w = .ok (.dmax p) } = 256 ∧
  Set.ncard { w : Word | ∃ k, decode w = .ok (.raise k) } = 1 ∧
  (∀ i ∈ [Instr.consume, .start, .iter, .quantum, .ppuslot, .cpuslot],
    Set.ncard { w : Word | decode w = .ok i } = 1) ∧
  ∀ w : Word, (∃ e, decode w = .error e) ∨ (∃ sp a ch, decode w = .ok (.regr sp a ch)) ∨
    (∃ sp a ch, decode w = .ok (.regw sp a ch)) ∨ (∃ sp a, decode w = .ok (.rd sp a)) ∨
    (∃ sp a v, decode w = .ok (.wr sp a v)) ∨ (∃ p, decode w = .ok (.page p)) ∨ (∃ p, decode w = .ok (.dmax p)) ∨
    (∃ k, decode w = .ok (.raise k)) ∨
    ∃ i ∈ [Instr.consume, .start, .iter, .quantum, .ppuslot, .cpuslot], decode w = .ok i

/-- R113: the worked encodings, read and written. -/
def Obligations.WorkedEncodings : Prop :=
  ∀ c ∈ ([(0x30200200#32, .rd .cpu 0x2002#16), (0x38100000#32, .rd .ppu 0x1000#16),
      (0x4824005A#32, .wr .ppu 0x2400#16 0x5A#8), (0x50000002#32, .page 0x02#8), (0x60000002#32, .dmax 0x02#8),
      (0x70000000#32, .raise .nmi), (0x80000000#32, .consume), (0x90000000#32, .start), (0xA0000000#32, .iter),
      (0xB0000000#32, .quantum), (0xC0000000#32, .ppuslot), (0xD0000000#32, .cpuslot)] : List (Word × Instr)),
    decode c.1 = .ok c.2 ∧ encode c.2 = c.1

/-- R111, R112: the words of the pseudo-operations WIRE and DMA with the default addresses. -/
def Obligations.PseudoOperationWords : Prop :=
  (wire defaultAddrs).map encode =
    [0x10200200#32, 0x10200701#32, 0x10200402#32, 0x10401603#32, 0x10401704#32, 0x20200010#32, 0x20200111#32,
      0x20200512#32, 0x20200613#32, 0x20200714#32, 0x20200315#32, 0x20200416#32, 0x20401417#32, 0x20401618#32] ∧
  ∀ p : Byte, encode (dmaPseudo defaultAddrs p) = 0x40401400#32 ||| p.setWidth 32

/-- R100, R293: a step takes the next command word, decodes it and runs it; with none it does nothing (log entry 1: the
words the host presents are a queue of the model's). -/
def Obligations.StepRunsTheDecodedInstruction : Prop :=
  (∀ (s : State) (w : Word) (rest : List Word) (i : Instr), s.commands = w :: rest → decode w = .ok i →
    step s = exec i { s with commands := rest }) ∧
  ∀ s : State, s.commands = [] → step s = .refused .noCommand

/-! ### State, reset, legality (10_state.md, 60_exceptions.md, 70_reset_and_hazards.md) -/

/-- R55: the block's state after construction. -/
def Obligations.ConstructionState : Prop :=
  (∀ sp a, State.reset.raw sp a = Config.initMem sp a) ∧
  (∀ sp a, State.reset.readChannelAt sp a = none ∧ State.reset.writeChannelAt sp a = none) ∧
  State.reset.sched = .idle ∧ State.reset.setupError = none ∧ State.reset.fault = none ∧
  State.reset.cartLoaded = false ∧ State.reset.line = none ∧ State.reset.dmaStall = 0 ∧ State.reset.budget = 0 ∧
  (∀ sp, State.reset.busy.get sp = false) ∧ State.reset.quantaThisIter = 0 ∧ State.reset.phase = .outside ∧
  State.reset.events = [] ∧ State.reset.ppuSteps = 0 ∧ State.reset.cpuSteps = 0 ∧ State.reset.stallSlots = 0 ∧
  State.reset.quanta = 0 ∧ State.reset.dmaCount = 0 ∧ State.reset.redraws = 0

/-- The invariant holds after construction. -/
def Obligations.ConstructionMeetsInvariant : Prop := State.reset.Inv

/-- Every step, of any word in any state that meets the invariant, keeps it: canonical memories and maps, a faulted
machine Stopped, a running machine wired and loaded, nothing before Running, no interceptor left running, and the
counters in agreement with the log, also after a fault (the model's reading, log entries 18 and 23). -/
def Obligations.StepKeepsInvariant : Prop :=
  ∀ s t : State, s.Inv → step s = .next t → t.Inv

/-- R255: an operation has no step exactly when its rule excludes the state (or its channel has the wrong direction,
R104); otherwise it has one, whatever the collaborators do (log entry 20: every call returns). -/
def Obligations.RefusedExactlyWhenExcluded : Prop :=
  ∀ (i : Instr) (s : State),
    (i.wf = false → exec i s = .refused (.invalidWord .channelId)) ∧
    (i.wf = true →
      match i with
      | .regr _ _ _ | .regw _ _ _ =>
        if s.fault ≠ none ∨ s.sched = .stopped then ∃ r, exec i s = .refused r else ∃ t, exec i s = .next t
      | .start =>
        if s.fault ≠ none ∨ s.sched ≠ .idle then ∃ r, exec i s = .refused r else ∃ t, exec i s = .next t
      | .rd _ _ | .wr _ _ _ | .page _ | .dmax _ | .raise _ | .consume | .iter | .quantum | .ppuslot | .cpuslot =>
        if s.fault ≠ none ∨ s.sched ≠ .running then ∃ r, exec i s = .refused r else ∃ t, exec i s = .next t)

/-- R210: the Scheduler's transitions and no others. A fault while START resets the processors is Idle to Running to
Stopped within that one operation. -/
def Obligations.SchedulerTransitions : Prop :=
  ∀ (i : Instr) (s t : State), exec i s = .next t →
    t.sched = s.sched ∨
    (s.sched = .idle ∧ i = .start ∧ s.wiredOk = true ∧ s.nextDraw.ok = true ∧ t.setupError = s.setupError ∧
      (t.sched = .running ∨ (t.sched = .stopped ∧ t.fault ≠ none))) ∨
    (s.sched = .idle ∧ i = .start ∧ t.sched = .stopped ∧ s.wiredOk = false ∧ t.setupError = some .wiring) ∨
    (s.sched = .idle ∧ i = .start ∧ t.sched = .stopped ∧ s.wiredOk = true ∧ s.nextDraw.ok = false ∧
      t.setupError = some .cartLoad) ∨
    (s.sched = .running ∧ i = .iter ∧ s.hostInput.stop = true ∧ t.sched = .stopped ∧ t.fault = none) ∨
    (s.sched = .running ∧ t.sched = .stopped ∧ t.fault ≠ none)

/-- R252, R253: a fault arises only where the table says, stops the Scheduler, records what the table says, and the
operation returns nothing. -/
def Obligations.FaultsAriseOnlyWhereListed : Prop :=
  ∀ (i : Instr) (s t : State) (f : RunFault), exec i s = .next t → s.fault = none → t.fault = some f →
    t.sched = .stopped ∧ t.result = none ∧
    match f with
    | .lateRegistration w =>
      s.sched = .running ∧ w = encode i ∧ ∃ sp a ch, i = .regr sp a ch ∨ i = .regw sp a ch
    | .reentrantDispatch w =>
      ∃ sp a, t.busy.get sp = true ∧ (w = encode (.rd sp a) ∨ ∃ v, w = encode (.wr sp a v))
    | .dmaPageUnbound p =>
      s.params.pagePolicy = .fault ∧ ∃ k, k < 256 ∧ s.inWindow .cpu (BitVec.ofNat 16 (p.toNat * 256 + k)) = true

/-- R50: the log is never rewritten: after an operation it begins with what it held before. -/
def Obligations.EventLogOnlyGrows : Prop :=
  ∀ (i : Instr) (s t : State), exec i s = .next t → s.events <+: t.events

/-- R300, R292: only REGR and REGW in Idle change the interceptor maps, and nothing changes the parameters. -/
def Obligations.BindingsChangeOnlyDuringSetup : Prop :=
  ∀ (i : Instr) (s t : State), exec i s = .next t →
    t.params = s.params ∧ (s.sched ≠ .idle → t.rdMap = s.rdMap ∧ t.wrMap = s.wrMap) ∧
    ((∀ sp a ch, i ≠ .regr sp a ch) → t.rdMap = s.rdMap) ∧ ((∀ sp a ch, i ≠ .regw sp a ch) → t.wrMap = s.wrMap)

/-! ### Registration (40_address_space.md) -/

/-- R132: REGR in Idle at an address with no read-interceptor binds it there and nowhere else, and succeeds. -/
def Obligations.RegrBindsFreeAddress : Prop :=
  ∀ (s : State) (sp : Space) (a : Addr) (ch : ReadChannel), s.inSetup → s.readChannelAt sp a = none →
    ∃ t, exec (.regr sp a (.read ch)) s = .next t ∧ t.result = some (.registered true) ∧ t.phase = .outside ∧
      (∀ sp' a', t.readChannelAt sp' a' = if sp' = sp ∧ a' = a then some ch else s.readChannelAt sp' a') ∧
      { t with rdMap := s.rdMap, phase := s.phase, result := s.result } = s

/-- R134: REGW is its mirror image. -/
def Obligations.RegwBindsFreeAddress : Prop :=
  ∀ (s : State) (sp : Space) (a : Addr) (ch : WriteChannel), s.inSetup → s.writeChannelAt sp a = none →
    ∃ t, exec (.regw sp a (.write ch)) s = .next t ∧ t.result = some (.registered true) ∧ t.phase = .outside ∧
      (∀ sp' a', t.writeChannelAt sp' a' = if sp' = sp ∧ a' = a then some ch else s.writeChannelAt sp' a') ∧
      { t with wrMap := s.wrMap, phase := s.phase, result := s.result } = s

/-- R132, R134: a registration at an address already bound in its direction fails and changes nothing, whichever
channel it names. -/
def Obligations.DuplicateRegistrationFails : Prop :=
  (∀ (s : State) (sp : Space) (a : Addr) (ch old : ReadChannel), s.inSetup → s.readChannelAt sp a = some old →
    exec (.regr sp a (.read ch)) s = .next { s with phase := .outside, result := some (.registered false) }) ∧
  (∀ (s : State) (sp : Space) (a : Addr) (ch old : WriteChannel), s.inSetup → s.writeChannelAt sp a = some old →
    exec (.regw sp a (.write ch)) s = .next { s with phase := .outside, result := some (.registered false) })

/-- R130, R252, R253: any registration while Running, duplicate or not, takes the fault LATE_REGISTRATION, which
records the word. -/
def Obligations.LateRegistrationFaults : Prop :=
  ∀ (s : State) (sp : Space) (a : Addr), s.live →
    (∀ ch : ReadChannel, exec (.regr sp a (.read ch)) s = .next { s with
      fault := some (.lateRegistration (encode (.regr sp a (.read ch))))
      sched := .stopped
      phase := .outside
      result := none }) ∧
    (∀ ch : WriteChannel, exec (.regw sp a (.write ch)) s = .next { s with
      fault := some (.lateRegistration (encode (.regw sp a (.write ch))))
      sched := .stopped
      phase := .outside
      result := none })

/-- R164: at an address with no interceptor two REGR give success and failure, two REGW give success and failure, and a
REGR and a REGW both succeed, in either order. -/
def Obligations.ReadAndWriteRegistrationsIndependent : Prop :=
  ∀ (s : State) (sp : Space) (a : Addr) (c c' : ReadChannel) (d d' : WriteChannel), s.inSetup →
    s.readChannelAt sp a = none → s.writeChannelAt sp a = none →
    (∃ t u v x, exec (.regr sp a (.read c)) s = .next t ∧ t.result = some (.registered true) ∧
      exec (.regr sp a (.read c')) t = .next u ∧ u.result = some (.registered false) ∧
      exec (.regw sp a (.write d)) u = .next v ∧ v.result = some (.registered true) ∧
      exec (.regw sp a (.write d')) v = .next x ∧ x.result = some (.registered false) ∧
      x.readChannelAt sp a = some c ∧ x.writeChannelAt sp a = some d) ∧
    (∃ t u, exec (.regw sp a (.write d)) s = .next t ∧ t.result = some (.registered true) ∧
      exec (.regw sp a (.write d')) t = .next u ∧ u.result = some (.registered false) ∧
      u.readChannelAt sp a = none ∧ u.writeChannelAt sp a = some d) ∧
    (∃ t u, exec (.regr sp a (.read c)) s = .next t ∧ t.result = some (.registered true) ∧
      exec (.regw sp a (.write d)) t = .next u ∧ u.result = some (.registered true) ∧
      u.readChannelAt sp a = some c ∧ u.writeChannelAt sp a = some d) ∧
    (∃ t u, exec (.regw sp a (.write d)) s = .next t ∧ t.result = some (.registered true) ∧
      exec (.regr sp a (.read c)) t = .next u ∧ u.result = some (.registered true) ∧
      u.readChannelAt sp a = some c ∧ u.writeChannelAt sp a = some d)

/-- R111, R160, R161: with parameters that meet R9 and no binding yet in the CPU space, the fourteen words of WIRE,
issued in any order, all succeed and give the same maps, and then `WiredOK` holds. -/
def Obligations.WireBindsInAnyOrder : Prop :=
  ∀ (s : State) (l : List Instr), s.inSetup → paramsOk s.params = true → s.rdMap.cpu = [] → s.wrMap.cpu = [] →
    l.Perm (wire s.params.addrs) →
    ∃ t, runInstrs l s = .next t ∧ t.wiredOk = true ∧ t.result = some (.registered true) ∧
      (∀ a ch, t.readChannelAt .cpu a = some ch ↔ readChannelAddr s.params.addrs ch = a) ∧
      (∀ a ch, t.writeChannelAt .cpu a = some ch ↔ writeChannelAddr s.params.addrs ch = a) ∧
      t.rdMap.ppu = s.rdMap.ppu ∧ t.wrMap.ppu = s.wrMap.ppu ∧
      { t with rdMap := s.rdMap, wrMap := s.wrMap, phase := s.phase, result := s.result } = s

/-! ### Dispatch (40_address_space.md, 20_memory.md) -/

/-- R136: RD of a backing-class address returns the stored byte and has no side effect. -/
def Obligations.RdOfBackingClass : Prop :=
  ∀ (s : State) (sp : Space) (a : Addr), s.live → s.busy.get sp = false → s.readChannelAt sp a = none →
    s.inWindow sp a = false →
    exec (.rd sp a) s = .next { s with phase := .outside, result := some (.byte (s.raw sp a)) }

/-- R136: RD of a cartridge-class address returns the cartridge's answer, whichever it is, and only logs the call. -/
def Obligations.RdOfCartridgeClass : Prop :=
  ∀ (s : State) (sp : Space) (a : Addr), s.live → s.busy.get sp = false → s.readChannelAt sp a = none →
    s.inWindow sp a = true →
    exec (.rd sp a) s = .next { s.afterDraw with
      events := s.events ++ [.cartRead sp a s.nextDraw.byte]
      phase := .outside
      result := some (.byte s.nextDraw.byte) }

/-- R136, R139, R142 to R145: RD of a PPU or input channel's address returns the collaborator's answer unchanged and logs
the call with it. The operations the collaborator issues inside the call (`xs`, from the space it reaches) are performed
in order, each as the host's own operation on the state with the call logged and the channel's space busy; one that faults
halts the RD with the entry unanswered, whatever was to follow (`ys`). -/
def Obligations.RdOfCollaboratorChannel : Prop :=
  (∀ (s : State) (sp : Space) (a : Addr) (ch : ReadChannel) (e : Event) (d : Draw) (rest : List Draw), s.live →
    s.busy.get sp = false → s.readChannelAt sp a = some ch → s.script = d :: rest → d.acts = [] →
    readCallEvent ch (some d.byte) = some e →
    exec (.rd sp a) s = .next { s with
      script := rest
      events := s.events ++ [e]
      phase := .outside
      result := some (.byte d.byte) }) ∧
  (∀ (s t : State) (sp : Space) (a : Addr) (ch : ReadChannel) (e e' : Event) (d : Draw) (rest : List Draw)
      (xs ys : List Act), s.live → s.busy.get sp = false → s.readChannelAt sp a = some ch → s.script = d :: rest →
    d.acts = xs ++ ys → (∀ act ∈ xs, issuedBy (readChannelAgent ch) act) →
    readCallEvent ch none = some e → readCallEvent ch (some d.byte) = some e' →
    runInstrs (xs.map actInstr) { s with
      script := rest
      busy := s.busy.set sp true
      events := s.events ++ [e] } = .next t →
    (ys = [] → t.fault = none →
      exec (.rd sp a) s = .next { t with
        busy := s.busy
        events := t.events.set s.events.length e'
        phase := .outside
        result := some (.byte d.byte) }) ∧
    (t.fault ≠ none → exec (.rd sp a) s = .next { t with phase := .outside, result := none }))

/-- R146: RD of controller port 2 returns `JOY2_VALUE` and calls nothing. -/
def Obligations.RdOfControllerPortTwo : Prop :=
  ∀ (s : State) (sp : Space) (a : Addr), s.live → s.busy.get sp = false → s.readChannelAt sp a = some .joy2 →
    exec (.rd sp a) s = .next { s with phase := .outside, result := some (.byte s.params.joy2) }

/-- R163, R82: RD of an intercepted address returns exactly the read action's result, whatever the backing arrays hold
and whatever the collaborator does inside the call, unless that faults. -/
def Obligations.InterceptedReadIgnoresBacking : Prop :=
  ∀ (s : State) (sp : Space) (a : Addr) (ch : ReadChannel) (m : PerSpace Memory), s.live →
    s.busy.get sp = false → s.readChannelAt sp a = some ch →
    ∃ t, exec (.rd sp a) { s with mem := m } = .next t ∧
      (t.fault = none →
        t.result = some (.byte (if ch = .joy2 then s.params.joy2 else s.nextDraw.byte)) ∧ t.busy = s.busy)

/-- R138, R22, R74: WR to a backing-class address changes that one byte of that one space and nothing else. -/
def Obligations.WrOfBackingClass : Prop :=
  ∀ (s : State) (sp : Space) (a : Addr) (v : Byte), s.live → s.canonical → s.busy.get sp = false →
    s.writeChannelAt sp a = none → s.inWindow sp a = false →
    ∃ t, exec (.wr sp a v) s = .next t ∧ t.result = some .nothing ∧ t.phase = .outside ∧
      (∀ sp' b, t.raw sp' b = if sp' = sp ∧ b = a then v else s.raw sp' b) ∧
      { t with mem := s.mem, phase := s.phase, result := s.result } = s

/-- R138: WR to a cartridge-class address calls the cartridge, in both spaces, and stores nothing. -/
def Obligations.WrOfCartridgeClass : Prop :=
  ∀ (s : State) (sp : Space) (a : Addr) (v : Byte), s.live → s.busy.get sp = false →
    s.writeChannelAt sp a = none → s.inWindow sp a = true →
    exec (.wr sp a v) s = .next { s with
      events := s.events ++ [.cartWrite sp a v]
      phase := .outside
      result := some .nothing }

/-- R138, R139, R147 to R153, R155: WR to a PPU or strobe channel's address passes the whole byte to the collaborator and
stores nothing of its own. The operations the collaborator issues inside the call (`xs`, from the space it reaches) are
performed in order, each as the host's own operation on the state with the call logged and the channel's space busy; one
that faults halts the WR, whatever was to follow (`ys`). -/
def Obligations.WrOfCollaboratorChannel : Prop :=
  (∀ (s : State) (sp : Space) (a : Addr) (v : Byte) (ch : WriteChannel) (e : Event) (d : Draw) (rest : List Draw),
    s.live → s.busy.get sp = false → s.writeChannelAt sp a = some ch → s.script = d :: rest → d.acts = [] →
    writeCallEvent ch v = some e →
    exec (.wr sp a v) s = .next { s with
      script := rest
      events := s.events ++ [e]
      phase := .outside
      result := some .nothing }) ∧
  (∀ (s t : State) (sp : Space) (a : Addr) (v : Byte) (ch : WriteChannel) (e : Event) (d : Draw) (rest : List Draw)
      (xs ys : List Act), s.live → s.busy.get sp = false → s.writeChannelAt sp a = some ch → s.script = d :: rest →
    d.acts = xs ++ ys → (∀ act ∈ xs, issuedBy (writeChannelAgent ch) act) → writeCallEvent ch v = some e →
    runInstrs (xs.map actInstr) { s with
      script := rest
      busy := s.busy.set sp true
      events := s.events ++ [e] } = .next t →
    (ys = [] → t.fault = none →
      exec (.wr sp a v) s = .next { t with busy := s.busy, phase := .outside, result := some .nothing }) ∧
    (t.fault ≠ none → exec (.wr sp a v) s = .next { t with phase := .outside, result := none }))

/-- R81: an intercepted WR stores nothing in its space's backing array, whatever its collaborator does inside the
call. -/
def Obligations.InterceptedWriteNeverStores : Prop :=
  ∀ (s : State) (sp : Space) (a : Addr) (v : Byte) (ch : WriteChannel), s.live → s.busy.get sp = false →
    s.writeChannelAt sp a = some ch →
    ∃ t, exec (.wr sp a v) s = .next t ∧ ∀ b, t.raw sp b = s.raw sp b

/-- R139: RD and WR on a busy space fault before any effect, whatever the maps hold. -/
def Obligations.BusySpaceFaults : Prop :=
  ∀ (s : State) (sp : Space) (a : Addr), s.live → s.busy.get sp = true →
    exec (.rd sp a) s = .next { s with
      fault := some (.reentrantDispatch (encode (.rd sp a)))
      sched := .stopped
      phase := .outside
      result := none } ∧
    ∀ v, exec (.wr sp a v) s = .next { s with
      fault := some (.reentrantDispatch (encode (.wr sp a v)))
      sched := .stopped
      phase := .outside
      result := none }

/-- R139, R141, R253, R299: a collaborator that re-enters the space of the channel it runs in halts the machine. If the
access is its first operation inside the call, the fault records it, the call stays logged (a read's without an answer,
R50), the space stays busy and nothing else changes: for a write channel, for a read channel, and for `doDma` inside
DMA_W, after PAGE's own effects. Wherever in the call the access stands, some fault halts it. -/
def Obligations.ReentrantCollaboratorHalts : Prop :=
  (∀ (s : State) (sp : Space) (a : Addr) (v : Byte) (ch : WriteChannel) (e : Event) (x : Access) (d : Draw)
      (rest : List Draw) (more : List Act), s.live → s.busy.get sp = false → s.writeChannelAt sp a = some ch →
    writeCallEvent ch v = some e → s.script = d :: rest → d.acts = .access sp x :: more →
    exec (.wr sp a v) s = .next { s with
      script := rest
      busy := s.busy.set sp true
      events := s.events ++ [e]
      fault := some (.reentrantDispatch (encode (match x with | .rd b => .rd sp b | .wr b u => .wr sp b u)))
      sched := .stopped
      phase := .outside
      result := none }) ∧
  (∀ (s : State) (sp : Space) (a : Addr) (ch : ReadChannel) (e : Event) (x : Access) (d : Draw) (rest : List Draw)
      (more : List Act), s.live → s.busy.get sp = false → s.readChannelAt sp a = some ch →
    readCallEvent ch none = some e → s.script = d :: rest → d.acts = .access sp x :: more →
    exec (.rd sp a) s = .next { s with
      script := rest
      busy := s.busy.set sp true
      events := s.events ++ [e]
      fault := some (.reentrantDispatch (encode (match x with | .rd b => .rd sp b | .wr b u => .wr sp b u)))
      sched := .stopped
      phase := .outside
      result := none }) ∧
  (∀ (s t : State) (sp : Space) (a : Addr) (v : Byte) (view : List Byte) (x : Access) (more : List Act), s.live →
    s.busy.get sp = false → s.writeChannelAt sp a = some .dma → exec (.page v) s = .next t →
    t.result = some (.view view) → t.nextDraw.acts = .access sp x :: more →
    exec (.wr sp a v) s = .next { t.afterDraw with
      busy := s.busy.set sp true
      events := t.events ++ [.ppuDoDma view]
      fault := some (.reentrantDispatch (encode (match x with | .rd b => .rd sp b | .wr b u => .wr sp b u)))
      sched := .stopped
      result := none }) ∧
  (∀ (s : State) (sp : Space) (a : Addr), s.live → s.busy.get sp = false →
    (∃ x, Act.access sp x ∈ s.nextDraw.acts) →
    (∀ v ch e, s.writeChannelAt sp a = some ch → writeCallEvent ch v = some e →
      haltsInside s sp e (exec (.wr sp a v) s)) ∧
    (∀ ch e, s.readChannelAt sp a = some ch → readCallEvent ch none = some e →
      haltsInside s sp e (exec (.rd sp a) s))) ∧
  (∀ (s t : State) (sp : Space) (a : Addr) (v : Byte) (view : List Byte), s.live → s.busy.get sp = false →
    s.writeChannelAt sp a = some .dma → exec (.page v) s = .next t → t.result = some (.view view) →
    (∃ x, Act.access sp x ∈ t.nextDraw.acts) →
    haltsInside t sp (.ppuDoDma view) (exec (.wr sp a v) s))

/-- R79, R139: three levels of nested calls, the model's bound (log entry 13), are all there can be: allowing more changes
nothing. -/
def Obligations.NestingDepthSuffices : Prop :=
  ∀ (n : Nat) (ag : Agent) (acts : List Act) (s : State),
    nestedTo (3 + n) ag acts s = nested ag acts s

/-! ### Page view (40_address_space.md) -/

/-- R140, R174: under the policy `backing` a page view is the 256 backing bytes in ascending order, with no call of any
collaborator and no other effect. -/
def Obligations.PageIsTheBackingBytes : Prop :=
  ∀ (s : State) (p : Byte), s.live → s.params.pagePolicy = .backing →
    exec (.page p) s = .next { s with
      phase := .outside
      result := some (.view ((List.range 256).map fun k => s.raw .cpu (BitVec.ofNat 16 (p.toNat * 256 + k)))) }

/-- R140: under the policy `cartridge` the bytes of the page inside the window are the cartridge's successive answers,
asked for in ascending order (the scripted draws first, then the free ones: log entry 5), and the others are the
backing bytes. -/
def Obligations.PageUnderCartridgePolicy : Prop :=
  ∀ (s : State) (p : Byte) (inside : List Nat), s.live → s.params.pagePolicy = .cartridge →
    inside = ((List.range 256).filter fun k => s.inWindow .cpu (BitVec.ofNat 16 (p.toNat * 256 + k))) →
    ∃ t view, exec (.page p) s = .next t ∧ t.result = some (.view view) ∧ view.length = 256 ∧
      (∀ k, k < 256 → s.inWindow .cpu (BitVec.ofNat 16 (p.toNat * 256 + k)) = false →
        view[k]? = some (s.raw .cpu (BitVec.ofNat 16 (p.toNat * 256 + k)))) ∧
      (inside.map fun k => view.getD k 0#8) =
        ((s.script ++ (List.range inside.length).map fun j => Config.draw (s.drawn + j)).take inside.length).map
          (·.byte) ∧
      t.script = s.script.drop inside.length ∧ t.drawn = s.drawn + (inside.length - s.script.length) ∧
      t.events = s.events ++ inside.map (fun k =>
        .cartRead .cpu (BitVec.ofNat 16 (p.toNat * 256 + k)) (view.getD k 0#8)) ∧
      t.phase = .outside ∧
      { t with
        script := s.script
        drawn := s.drawn
        events := s.events
        phase := s.phase
        result := s.result } = s

/-- R140: under the policy `fault` a page that meets the window faults before any byte is read, and any other page is
its backing bytes. -/
def Obligations.PageUnderFaultPolicy : Prop :=
  ∀ (s : State) (p : Byte), s.live → s.params.pagePolicy = .fault →
    ((∃ k, k < 256 ∧ s.inWindow .cpu (BitVec.ofNat 16 (p.toNat * 256 + k)) = true) →
      exec (.page p) s = .next { s with
        fault := some (.dmaPageUnbound p)
        sched := .stopped
        phase := .outside
        result := none }) ∧
    ((∀ k, k < 256 → s.inWindow .cpu (BitVec.ofNat 16 (p.toNat * 256 + k)) = false) →
      exec (.page p) s = .next { s with
        phase := .outside
        result := some (.view ((List.range 256).map fun k =>
          s.raw .cpu (BitVec.ofNat 16 (p.toNat * 256 + k)))) })

/-! ### DMA (41_dma.md) -/

/-- R172, R173: DMAX hands the page's 256 backing bytes to the PPU in one call and adds the fixed stall (here for a PPU
that issues nothing inside `doDma`). -/
def Obligations.DmaTransfersThePage : Prop :=
  ∀ (s : State) (p : Byte) (d : Draw) (rest : List Draw), s.live → s.params.pagePolicy = .backing →
    s.script = d :: rest → d.acts = [] →
    exec (.dmax p) s = .next { s with
      script := rest
      events := s.events ++
        [.ppuDoDma ((List.range 256).map fun k => s.raw .cpu (BitVec.ofNat 16 (p.toNat * 256 + k)))]
      dmaStall := s.dmaStall + s.params.dmaStallCycles
      dmaCount := s.dmaCount + 1
      phase := .outside
      result := some (.stall s.params.dmaStallCycles) }

/-- R172, R140, R154, R196: under every policy a transfer hands on the very view PAGE answers in the same state, after
PAGE's own effects, and then adds the stall and the count, whether DMAX or a WR to the DMA trigger makes it (first for a
PPU that issues nothing inside `doDma`). The operations the PPU issues inside `doDma` (`xs`: RAISE, and RD and WR on the
PPU space) are performed in order before the stall and the count are added, each as the host's own operation on the state
with the call logged, and for a WR its space busy; one that faults halts the transfer with neither, whatever was to follow
(`more`). -/
def Obligations.DmaHandsOnThePageView : Prop :=
  (∀ (s t : State) (p : Byte) (view : List Byte), s.live → exec (.page p) s = .next t →
    t.result = some (.view view) → t.nextDraw.acts = [] →
    exec (.dmax p) s = .next { t.afterDraw with
      events := t.events ++ [.ppuDoDma view]
      dmaStall := s.dmaStall + s.params.dmaStallCycles
      dmaCount := s.dmaCount + 1
      result := some (.stall s.params.dmaStallCycles) } ∧
    ∀ sp a, s.busy.get sp = false → s.writeChannelAt sp a = some .dma →
      exec (.wr sp a p) s = .next { t.afterDraw with
        events := t.events ++ [.ppuDoDma view]
        dmaStall := s.dmaStall + s.params.dmaStallCycles
        dmaCount := s.dmaCount + 1
        result := some .nothing }) ∧
  (∀ (s t u : State) (p : Byte) (view : List Byte) (xs more : List Act), s.live → exec (.page p) s = .next t →
    t.result = some (.view view) → t.nextDraw.acts = xs ++ more → (∀ act ∈ xs, issuedBy .ppu act) →
    (runInstrs (xs.map actInstr) { t.afterDraw with events := t.events ++ [.ppuDoDma view] } = .next u →
      (more = [] → u.fault = none →
        exec (.dmax p) s = .next { u with
          dmaStall := u.dmaStall + s.params.dmaStallCycles
          dmaCount := u.dmaCount + 1
          phase := .outside
          result := some (.stall s.params.dmaStallCycles) }) ∧
      (u.fault ≠ none → exec (.dmax p) s = .next { u with phase := .outside, result := none })) ∧
    ∀ sp a, s.busy.get sp = false → s.writeChannelAt sp a = some .dma →
      runInstrs (xs.map actInstr) { t.afterDraw with
        busy := s.busy.set sp true
        events := t.events ++ [.ppuDoDma view] } = .next u →
      (more = [] → u.fault = none →
        exec (.wr sp a p) s = .next { u with
          busy := s.busy
          dmaStall := u.dmaStall + s.params.dmaStallCycles
          dmaCount := u.dmaCount + 1
          phase := .outside
          result := some .nothing }) ∧
      (u.fault ≠ none → exec (.wr sp a p) s = .next { u with phase := .outside, result := none }))

/-- R154, R171, R178: a WR to the DMA trigger runs exactly one transfer of the written page, complete before the WR
returns, and stores nothing (here for a PPU that issues nothing inside `doDma`, and a view of backing bytes). -/
def Obligations.DmaTriggerRunsOneTransfer : Prop :=
  ∀ (s : State) (sp : Space) (a : Addr) (v : Byte) (d : Draw) (rest : List Draw), s.live → s.busy.get sp = false →
    (s.params.pagePolicy = .backing ∨
      ∀ k, k < 256 → s.inWindow .cpu (BitVec.ofNat 16 (v.toNat * 256 + k)) = false) →
    s.writeChannelAt sp a = some .dma → s.script = d :: rest → d.acts = [] →
    exec (.wr sp a v) s = .next { s with
      script := rest
      events := s.events ++
        [.ppuDoDma ((List.range 256).map fun k => s.raw .cpu (BitVec.ofNat 16 (v.toNat * 256 + k)))]
      dmaStall := s.dmaStall + s.params.dmaStallCycles
      dmaCount := s.dmaCount + 1
      phase := .outside
      result := some .nothing }

/-- R172, R180: under the policy `fault` a transfer of a page that meets the window faults: the PPU is not called, and the
stall and the count stay. A WR to the DMA trigger faults so too, and leaves its space busy (R141). -/
def Obligations.UnboundDmaFaults : Prop :=
  ∀ (s : State) (p : Byte) (k : Nat), s.live → s.params.pagePolicy = .fault → k < 256 →
    s.inWindow .cpu (BitVec.ofNat 16 (p.toNat * 256 + k)) = true →
    exec (.dmax p) s = .next { s with
      fault := some (.dmaPageUnbound p)
      sched := .stopped
      phase := .outside
      result := none } ∧
    ∀ sp a, s.busy.get sp = false → s.writeChannelAt sp a = some .dma →
      exec (.wr sp a p) s = .next { s with
        busy := s.busy.set sp true
        fault := some (.dmaPageUnbound p)
        sched := .stopped
        phase := .outside
        result := none }

/-- R173, R176: whatever the CPU does in its step, the stall is one fixed count per transfer, and transfers add. -/
def Obligations.StallsOfOneStepAdd : Prop :=
  ∀ s t : State, s.live → s.dmaStall = 0 → exec .cpuslot s = .next t →
    ∃ n, t.dmaCount = s.dmaCount + n ∧ t.dmaStall = n * s.params.dmaStallCycles

/-- R175, R177, R62(d), R176: while a stall is pending and nothing is bound in the PPU space (as after the standard wiring;
R161 permits such bindings, through which a PPU step could do more), `n` quanta, `n` at most the stall, run three PPU
steps and one stall slot each, make no CPU step and no delivery, and leave the CPU space's memory alone, whatever the
PPU does within its obligations, which the model takes as log entry 6 says. -/
def Obligations.StallFreezesOnlyTheCpu : Prop :=
  ∀ (n : Nat) (s : State), s.live → s.unbusy → s.rdMap.ppu = [] → s.wrMap.ppu = [] → n ≤ s.dmaStall →
    ∃ t, runInstrs (List.replicate n .quantum) s = .next t ∧ t.fault = none ∧ t.sched = .running ∧
      t.dmaStall = s.dmaStall - n ∧ t.stallSlots = s.stallSlots + n ∧ t.cpuSteps = s.cpuSteps ∧
      t.ppuSteps = s.ppuSteps + 3 * n ∧ t.quanta = s.quanta + n ∧ t.dmaCount = s.dmaCount ∧
      t.mem.cpu = s.mem.cpu ∧ (t.line = s.line ∨ t.line = some .nmi) ∧
      t.events.count .cpuStep = s.events.count .cpuStep ∧
      t.events.count (.cpuInterrupt .nmi) = s.events.count (.cpuInterrupt .nmi)

/-! ### Interrupt line (42_interrupt_line.md) -/

/-- R192: RAISE sets an idle line and is a no-op on a pending one. -/
def Obligations.RaiseSetsIdleLine : Prop :=
  ∀ (s : State) (k : Kind), s.live →
    exec (.raise k) s = .next { s with
      line := if s.line = none then some k else s.line
      phase := .outside
      result := some .nothing }

/-- R194: CONSUME returns the line and clears it. -/
def Obligations.ConsumeReadsAndClears : Prop :=
  ∀ s : State, s.live →
    exec .consume s = .next { s with line := none, phase := .outside, result := some (.taken s.line) }

/-- R193, R195: raises with no consume between them leave one pending interrupt: the next CONSUME returns it and the
one after returns none. -/
def Obligations.RaisesCoalesce : Prop :=
  ∀ (n : Nat) (s : State), s.live → s.line = none → 0 < n →
    ∃ t u v, runInstrs (List.replicate n (.raise .nmi)) s = .next t ∧ t.line = some .nmi ∧
      exec .consume t = .next u ∧ u.result = some (.taken (some .nmi)) ∧
      exec .consume u = .next v ∧ v.result = some (.taken none)

/-- R198: a raise in a PPU slot of a quantum whose CPU slot is not a stall slot is delivered at the end of that
quantum's CPU slot, once, however many raises there were (here for a PPU that only raises and a CPU that issues
nothing). -/
def Obligations.RaiseDeliveredInItsQuantum : Prop :=
  ∀ (s : State) (d0 d1 d2 d3 d4 : Draw) (rest : List Draw), s.live → s.dmaStall = 0 →
    s.script = d0 :: d1 :: d2 :: d3 :: d4 :: rest → (∀ x ∈ d0.acts ++ d1.acts ++ d2.acts, x = Act.raise) →
    d0.acts ++ d1.acts ++ d2.acts ≠ [] → d3.acts = [] → d4.acts = [] →
    exec .quantum s = .next { s with
      script := rest
      line := none
      events := s.events ++ [.ppuStep, .ppuStep, .ppuStep, .cpuStep, .cpuInterrupt .nmi]
      ppuSteps := s.ppuSteps + 3
      cpuSteps := s.cpuSteps + 1
      quanta := s.quanta + 1
      phase := .outside
      result := some .nothing }

/-! ### Clock and scheduler (43_scheduler.md) -/

/-- R211: START with `WiredOK` false stops with WIRING: no load, no reset, no event. Of the host's input (R106, log entry 7),
which holds its path, nothing is used. -/
def Obligations.StartUnwiredStops : Prop :=
  ∀ s : State, s.inSetup → s.wiredOk = false →
    exec .start s = .next { s.afterHostInput with
      setupError := some .wiring
      sched := .stopped
      phase := .outside
      result := some (.sched .stopped) }

/-- R211, R228: START whose cartridge does not load from the path the host gives stops with CART_LOAD, no processor is
reset, and every operation after it is refused. `loadPath` is the model's record of the path handed over (R106, log entry
8). -/
def Obligations.StartWithoutCartridgeStops : Prop :=
  ∀ s : State, s.inSetup → s.wiredOk = true → s.nextDraw.ok = false →
    ∃ t, exec .start s = .next t ∧
      t = { s.afterHostInput.afterDraw with
        setupError := some .cartLoad
        sched := .stopped
        events := s.events ++ [.cartLoad false]
        loadPath := some s.hostInput.path
        phase := .outside
        result := some (.sched .stopped) } ∧
      ∀ i : Instr, ∃ r, exec i t = .refused r

/-- R106, R131, R211, R212, R291, R292: START with the wiring in place and a cartridge that loads from the host's path enters
Running: latch, stall, budget and busy flags cleared, the CPU reset first and then the PPU (first for a CPU reset that
reads the cartridge's addresses `as`, such as a reset vector, and a PPU reset that issues nothing). The operations that
the resets issue (`xs`, then `ys`: WR as well as RD) are performed in order, each as the host's own operation; one that
faults halts START. Resets that issue no WR, as R212 has it, change no byte of memory, so from a state that meets the
invariant memory holds its initial contents at the first quantum (log entry 24). `loadPath` is the model's record of the
path (log entry 8). -/
def Obligations.StartEntersRunning : Prop :=
  (∀ (s : State) (d0 d1 d2 : Draw) (as : List Addr) (ds rest : List Draw), s.inSetup → s.wiredOk = true →
    s.script = d0 :: d1 :: (ds ++ d2 :: rest) → d0.ok = true →
    d1.acts = as.map (fun a => .access .cpu (.rd a)) → ds.length = as.length → d2.acts = [] →
    (∀ a ∈ as, s.readChannelAt .cpu a = none ∧ s.inWindow .cpu a = true) →
    exec .start s = .next { s.afterHostInput with
      script := rest
      sched := .running
      cartLoaded := true
      line := none
      dmaStall := 0
      budget := 0
      busy := { cpu := false, ppu := false }
      events := s.events ++ [.cartLoad true, .cpuReset] ++
        List.zipWith (fun a d => .cartRead .cpu a d.byte) as ds ++ [.ppuReset]
      loadPath := some s.hostInput.path
      phase := .outside
      result := some (.sched .running) }) ∧
  (∀ (s t : State) (d0 d1 : Draw) (rest : List Draw) (xs more : List Act), s.inSetup → s.wiredOk = true →
    s.script = d0 :: d1 :: rest → d0.ok = true → d1.acts = xs ++ more → (∀ act ∈ xs, issuedBy .cpu act) →
    runInstrs (xs.map actInstr) { s.afterHostInput with
      script := rest
      sched := .running
      cartLoaded := true
      line := none
      dmaStall := 0
      budget := 0
      busy := { cpu := false, ppu := false }
      events := s.events ++ [.cartLoad true, .cpuReset]
      loadPath := some s.hostInput.path } = .next t →
    (t.fault ≠ none → exec .start s = .next { t with phase := .outside, result := none }) ∧
    (∀ (u : State) (d2 : Draw) (rest' : List Draw) (ys more' : List Act), more = [] → t.fault = none →
      t.script = d2 :: rest' → d2.acts = ys ++ more' → (∀ act ∈ ys, issuedBy .ppu act) →
      runInstrs (ys.map actInstr) { t with script := rest', events := t.events ++ [.ppuReset] } = .next u →
      (more' = [] → u.fault = none →
        exec .start s = .next { u with phase := .outside, result := some (.sched .running) }) ∧
      (u.fault ≠ none → exec .start s = .next { u with phase := .outside, result := none }))) ∧
  (∀ s t : State, exec .start s = .next t → (∀ d, Takes s t d → d.writesNothing) →
    t.mem = s.mem ∧ (s.Inv → ∀ sp a, t.raw sp a = Config.initMem sp a))

/-- R214: an ITER whose stop poll answers true stops at once: no time is added, no quantum runs, no redraw. That
`quantaThisIter` stays too is the model's choice between R213's pseudocode and R41 (log entry 25). -/
def Obligations.StopIsSeenFirst : Prop :=
  ∀ s : State, s.live → s.hostInput.stop = true →
    exec .iter s = .next { s.afterHostInput with
      sched := .stopped
      phase := .outside
      result := some (.count 0) }

/-- R213, R217: an ITER with less than one quantum owed runs none, keeps the time up to the ceiling, and still requests
its one redraw. -/
def Obligations.IterWithoutQuantumRedraws : Prop :=
  ∀ s : State, s.live → s.hostInput.stop = false → s.budget + s.hostInput.elapsed < s.params.quantumNs →
    exec .iter s = .next { s.afterHostInput with
      budget := match s.params.budgetCeiling with
        | some c => min (s.budget + s.hostInput.elapsed) c
        | none => s.budget + s.hostInput.elapsed
      quantaThisIter := 0
      events := s.events ++ [.redraw]
      redraws := s.redraws + 1
      phase := .outside
      result := some (.count 0) }

/-- R222: an ITER that does not stop and is not halted by a fault runs exactly the quanta owed, up to the cap, whatever
the collaborators do, and keeps the rest of the budget, up to the ceiling. That there is a next state leans on log entry
20: every call returns. -/
def Obligations.IterRunsTheQuantaOwed : Prop :=
  ∀ s : State, s.live → 0 < s.params.quantumNs → s.hostInput.stop = false →
    ∃ t, exec .iter s = .next t ∧
      (t.fault = none →
        ∃ n, (n = match s.params.maxQuanta with
            | some m => min ((s.budget + s.hostInput.elapsed) / s.params.quantumNs) m
            | none => (s.budget + s.hostInput.elapsed) / s.params.quantumNs) ∧
          t.result = some (.count n) ∧ t.quantaThisIter = n ∧ t.quanta = s.quanta + n ∧
          t.ppuSteps = s.ppuSteps + 3 * n ∧ t.cpuSteps + t.stallSlots = s.cpuSteps + s.stallSlots + n ∧
          t.redraws = s.redraws + 1 ∧ t.sched = .running ∧
          n * s.params.quantumNs ≤ s.budget + s.hostInput.elapsed ∧
          (s.budget + s.hostInput.elapsed - n * s.params.quantumNs < s.params.quantumNs ∨
            s.params.maxQuanta = some n) ∧
          (t.budget = match s.params.budgetCeiling with
            | some c => min (s.budget + s.hostInput.elapsed - n * s.params.quantumNs) c
            | none => s.budget + s.hostInput.elapsed - n * s.params.quantumNs))

/-- R213, R253: an ITER that a fault halts has counted and paid for every quantum before the faulting one, and neither
that one nor a redraw. -/
def Obligations.HaltedIterKeepsWholeQuanta : Prop :=
  ∀ s t : State, s.live → exec .iter s = .next t → t.fault ≠ none →
    ∃ n, t.quantaThisIter = n ∧ t.quanta = s.quanta + n ∧
      t.budget + n * s.params.quantumNs = s.budget + s.hostInput.elapsed ∧
      t.redraws = s.redraws ∧ t.result = none ∧ t.sched = .stopped

/-- R225: over any sequence of ITERs none of which hits the cap or the ceiling, the quanta run are those of the total
elapsed time, however it is split among the ITERs, and less than a quantum is left. An ITER `h` after the ITERs `pre`
starts with the remainder of the time up to it; it hits the cap when that and its own time hold more quanta than the cap,
and the ceiling when what it leaves exceeds that. -/
def Obligations.ItersAbsorbJitter : Prop :=
  ∀ (hs rest : List HostInput) (s t : State), s.live → 0 < s.params.quantumNs → s.budget < s.params.quantumNs →
    s.hostInputs = hs ++ rest → (∀ h ∈ hs, h.stop = false) →
    (∀ m pre h post, s.params.maxQuanta = some m → hs = pre ++ h :: post →
      ((s.budget + (pre.map (·.elapsed)).sum) % s.params.quantumNs + h.elapsed) / s.params.quantumNs ≤ m) →
    (∀ c pre h post, s.params.budgetCeiling = some c → hs = pre ++ h :: post →
      ((s.budget + (pre.map (·.elapsed)).sum) + h.elapsed) % s.params.quantumNs ≤ c) →
    runInstrs (List.replicate hs.length .iter) s = .next t → t.fault = none →
    t.quanta = s.quanta + (s.budget + (hs.map (·.elapsed)).sum) / s.params.quantumNs ∧
      t.budget = (s.budget + (hs.map (·.elapsed)).sum) % s.params.quantumNs ∧ t.hostInputs = rest ∧
      t.redraws = s.redraws + hs.length

/-- R218, R60: a PPU slot calls `PPU.step` once, stalled or not. The operations the step issues (`xs`: RD and WR on the PPU
space, and RAISE) are performed in order, each as the host's own operation on the state with the call logged; one that
faults halts the slot, whatever was to follow (`ys`), and then a free value says whether the step is counted (log entry
23). -/
def Obligations.PpuSlotStepsThePpu : Prop :=
  (∀ (s : State) (d : Draw) (rest : List Draw), s.live → s.script = d :: rest → d.acts = [] →
    exec .ppuslot s = .next { s with
      script := rest
      events := s.events ++ [.ppuStep]
      ppuSteps := s.ppuSteps + 1
      phase := .outside
      result := some .nothing }) ∧
  (∀ (s t : State) (d : Draw) (rest : List Draw) (xs ys : List Act), s.live → s.script = d :: rest →
    d.acts = xs ++ ys → (∀ act ∈ xs, issuedBy .ppu act) →
    runInstrs (xs.map actInstr) { s with script := rest, events := s.events ++ [.ppuStep] } = .next t →
    (ys = [] → t.fault = none →
      exec .ppuslot s = .next { t with
        ppuSteps := t.ppuSteps + 1
        phase := .outside
        result := some .nothing }) ∧
    (t.fault ≠ none →
      exec .ppuslot s = .next { t with
        ppuSteps := t.ppuSteps + if Config.countsHaltedPpuStep = true then 1 else 0
        phase := .outside
        result := none }))

/-- R218, R264: with nothing bound in the PPU space (R161 permits such bindings), a PPU slot cannot fault, changes no byte
of the CPU space and no stall, whatever the PPU does within its obligations, which the model takes as log entry 6
says. -/
def Obligations.PpuSlotLeavesTheCpuSpace : Prop :=
  ∀ s : State, s.live → s.unbusy → s.rdMap.ppu = [] → s.wrMap.ppu = [] →
    ∃ t, exec .ppuslot s = .next t ∧ t.fault = none ∧ t.sched = .running ∧ t.mem.cpu = s.mem.cpu ∧
      t.dmaStall = s.dmaStall ∧ t.dmaCount = s.dmaCount ∧ t.ppuSteps = s.ppuSteps + 1 ∧
      (t.line = s.line ∨ t.line = some .nmi)

/-- R219, R175: a stalled CPU slot only decrements the stall counter: no call, no CONSUME. -/
def Obligations.StalledSlotOnlyCountsDown : Prop :=
  ∀ s : State, s.live → 0 < s.dmaStall →
    exec .cpuslot s = .next { s with
      dmaStall := s.dmaStall - 1
      stallSlots := s.stallSlots + 1
      phase := .outside
      result := some .nothing }

/-- R219, R197, R60, R75, R258: a CPU slot that is not stalled steps the CPU and then consumes the line, and tells the CPU of
a pending interrupt. The operations the step issues (`xs`: RD and WR on the CPU space) are performed in order, each as the
host's own operation on the state with the call logged; one that faults halts the slot, whatever was to follow (`ys`),
with the step counted (the model's reading, log entry 18). So are those that `CPU.interrupt` issues (`zs`: it reads its
vectors and may push state), on the state with the step counted, the line consumed and the call logged; one that faults
halts the slot, whatever was to follow (`more`). -/
def Obligations.CpuSlotStepsAndDelivers : Prop :=
  (∀ (s : State) (d e : Draw) (rest : List Draw), s.live → s.dmaStall = 0 → d.acts = [] → e.acts = [] →
    (s.line = none → s.script = d :: rest →
      exec .cpuslot s = .next { s with
        script := rest
        events := s.events ++ [.cpuStep]
        cpuSteps := s.cpuSteps + 1
        phase := .outside
        result := some .nothing }) ∧
    (∀ k, s.line = some k → s.script = d :: e :: rest →
      exec .cpuslot s = .next { s with
        script := rest
        line := none
        events := s.events ++ [.cpuStep, .cpuInterrupt k]
        cpuSteps := s.cpuSteps + 1
        phase := .outside
        result := some .nothing })) ∧
  (∀ (s t : State) (d : Draw) (rest : List Draw) (xs ys : List Act), s.live → s.dmaStall = 0 → s.script = d :: rest →
    d.acts = xs ++ ys → (∀ act ∈ xs, issuedBy .cpu act) →
    runInstrs (xs.map actInstr) { s with script := rest, events := s.events ++ [.cpuStep] } = .next t →
    (ys = [] → t.fault = none → t.line = none →
      exec .cpuslot s = .next { t with
        cpuSteps := t.cpuSteps + 1
        phase := .outside
        result := some .nothing }) ∧
    (∀ (k : Kind) (e : Draw) (rest' : List Draw) (zs more : List Act) (u : State), ys = [] → t.fault = none →
      t.line = some k → t.script = e :: rest' → e.acts = zs ++ more → (∀ act ∈ zs, issuedBy .cpu act) →
      runInstrs (zs.map actInstr) { t with
        script := rest'
        line := none
        events := t.events ++ [.cpuInterrupt k]
        cpuSteps := t.cpuSteps + 1 } = .next u →
      (more = [] → u.fault = none →
        exec .cpuslot s = .next { u with phase := .outside, result := some .nothing }) ∧
      (u.fault ≠ none → exec .cpuslot s = .next { u with phase := .outside, result := none })) ∧
    (t.fault ≠ none →
      exec .cpuslot s = .next { t with
        cpuSteps := t.cpuSteps + 1
        phase := .outside
        result := none }))

/-- R220, R197, R297: a quantum runs three PPU slots and then the CPU slot, in this order: stalled, or not and with no
interrupt pending, or not and with one pending (here for steps that issue nothing). Whatever the collaborators do, a
quantum is the host's own three PPUSLOT and one CPUSLOT, and counted, where no fault halts them. -/
def Obligations.QuantumInterleaves : Prop :=
  (∀ (s : State) (d0 d1 d2 : Draw) (rest : List Draw), s.live → d0.acts = [] → d1.acts = [] → d2.acts = [] →
    (0 < s.dmaStall → s.script = d0 :: d1 :: d2 :: rest →
      exec .quantum s = .next { s with
        script := rest
        events := s.events ++ [.ppuStep, .ppuStep, .ppuStep]
        ppuSteps := s.ppuSteps + 3
        dmaStall := s.dmaStall - 1
        stallSlots := s.stallSlots + 1
        quanta := s.quanta + 1
        phase := .outside
        result := some .nothing }) ∧
    (∀ d3 rest', s.dmaStall = 0 → s.line = none → d3.acts = [] → s.script = d0 :: d1 :: d2 :: d3 :: rest' →
      exec .quantum s = .next { s with
        script := rest'
        events := s.events ++ [.ppuStep, .ppuStep, .ppuStep, .cpuStep]
        ppuSteps := s.ppuSteps + 3
        cpuSteps := s.cpuSteps + 1
        quanta := s.quanta + 1
        phase := .outside
        result := some .nothing }) ∧
    (∀ d3 d4 rest' k, s.dmaStall = 0 → s.line = some k → d3.acts = [] → d4.acts = [] →
      s.script = d0 :: d1 :: d2 :: d3 :: d4 :: rest' →
      exec .quantum s = .next { s with
        script := rest'
        line := none
        events := s.events ++ [.ppuStep, .ppuStep, .ppuStep, .cpuStep, .cpuInterrupt k]
        ppuSteps := s.ppuSteps + 3
        cpuSteps := s.cpuSteps + 1
        quanta := s.quanta + 1
        phase := .outside
        result := some .nothing })) ∧
  (∀ s t : State, s.live → runInstrs [.ppuslot, .ppuslot, .ppuslot, .cpuslot] s = .next t → t.fault = none →
    exec .quantum s = .next { t with quanta := t.quanta + 1 })

/-- R221: every operation but a lone slot, that no fault halts, keeps the 3:1 accounting, stalls included. -/
def Obligations.RatioHoldsAtQuantumBoundaries : Prop :=
  ∀ (i : Instr) (s t : State), i ≠ .ppuslot → i ≠ .cpuslot → s.ratioHolds → exec i s = .next t → t.fault = none →
    t.ratioHolds
end

