-- ==== Sys2Proof/Laws/State.lean ====
section
/-! SUPPORT. One lemma per field per named update of State, so that no proof unfolds a record update. -/

namespace Sys2Proof.Machine

/-! ### `rawWrite` -/

@[simp] theorem State.rawWrite_mem (s : State) (sp : Space) (a : Addr) (v : Byte) :
    (s.rawWrite sp a v).mem = s.mem.set sp (memoryWrite sp a v (s.mem.get sp)) := rfl
@[simp] theorem State.rawWrite_rdMap (s : State) (sp : Space) (a : Addr) (v : Byte) :
    (s.rawWrite sp a v).rdMap = s.rdMap := rfl
@[simp] theorem State.rawWrite_wrMap (s : State) (sp : Space) (a : Addr) (v : Byte) :
    (s.rawWrite sp a v).wrMap = s.wrMap := rfl
@[simp] theorem State.rawWrite_phase (s : State) (sp : Space) (a : Addr) (v : Byte) :
    (s.rawWrite sp a v).phase = s.phase := rfl
@[simp] theorem State.rawWrite_sched (s : State) (sp : Space) (a : Addr) (v : Byte) :
    (s.rawWrite sp a v).sched = s.sched := rfl
@[simp] theorem State.rawWrite_setupError (s : State) (sp : Space) (a : Addr) (v : Byte) :
    (s.rawWrite sp a v).setupError = s.setupError := rfl
@[simp] theorem State.rawWrite_fault (s : State) (sp : Space) (a : Addr) (v : Byte) :
    (s.rawWrite sp a v).fault = s.fault := rfl
@[simp] theorem State.rawWrite_cartLoaded (s : State) (sp : Space) (a : Addr) (v : Byte) :
    (s.rawWrite sp a v).cartLoaded = s.cartLoaded := rfl
@[simp] theorem State.rawWrite_line (s : State) (sp : Space) (a : Addr) (v : Byte) :
    (s.rawWrite sp a v).line = s.line := rfl
@[simp] theorem State.rawWrite_dmaStall (s : State) (sp : Space) (a : Addr) (v : Byte) :
    (s.rawWrite sp a v).dmaStall = s.dmaStall := rfl
@[simp] theorem State.rawWrite_budget (s : State) (sp : Space) (a : Addr) (v : Byte) :
    (s.rawWrite sp a v).budget = s.budget := rfl
@[simp] theorem State.rawWrite_busy (s : State) (sp : Space) (a : Addr) (v : Byte) :
    (s.rawWrite sp a v).busy = s.busy := rfl
@[simp] theorem State.rawWrite_quantaThisIter (s : State) (sp : Space) (a : Addr) (v : Byte) :
    (s.rawWrite sp a v).quantaThisIter = s.quantaThisIter := rfl
@[simp] theorem State.rawWrite_events (s : State) (sp : Space) (a : Addr) (v : Byte) :
    (s.rawWrite sp a v).events = s.events := rfl
@[simp] theorem State.rawWrite_ppuSteps (s : State) (sp : Space) (a : Addr) (v : Byte) :
    (s.rawWrite sp a v).ppuSteps = s.ppuSteps := rfl
@[simp] theorem State.rawWrite_cpuSteps (s : State) (sp : Space) (a : Addr) (v : Byte) :
    (s.rawWrite sp a v).cpuSteps = s.cpuSteps := rfl
@[simp] theorem State.rawWrite_stallSlots (s : State) (sp : Space) (a : Addr) (v : Byte) :
    (s.rawWrite sp a v).stallSlots = s.stallSlots := rfl
@[simp] theorem State.rawWrite_quanta (s : State) (sp : Space) (a : Addr) (v : Byte) :
    (s.rawWrite sp a v).quanta = s.quanta := rfl
@[simp] theorem State.rawWrite_dmaCount (s : State) (sp : Space) (a : Addr) (v : Byte) :
    (s.rawWrite sp a v).dmaCount = s.dmaCount := rfl
@[simp] theorem State.rawWrite_redraws (s : State) (sp : Space) (a : Addr) (v : Byte) :
    (s.rawWrite sp a v).redraws = s.redraws := rfl
@[simp] theorem State.rawWrite_params (s : State) (sp : Space) (a : Addr) (v : Byte) :
    (s.rawWrite sp a v).params = s.params := rfl
@[simp] theorem State.rawWrite_commands (s : State) (sp : Space) (a : Addr) (v : Byte) :
    (s.rawWrite sp a v).commands = s.commands := rfl
@[simp] theorem State.rawWrite_script (s : State) (sp : Space) (a : Addr) (v : Byte) :
    (s.rawWrite sp a v).script = s.script := rfl
@[simp] theorem State.rawWrite_drawn (s : State) (sp : Space) (a : Addr) (v : Byte) :
    (s.rawWrite sp a v).drawn = s.drawn := rfl
@[simp] theorem State.rawWrite_hostInputs (s : State) (sp : Space) (a : Addr) (v : Byte) :
    (s.rawWrite sp a v).hostInputs = s.hostInputs := rfl
@[simp] theorem State.rawWrite_hostDrawn (s : State) (sp : Space) (a : Addr) (v : Byte) :
    (s.rawWrite sp a v).hostDrawn = s.hostDrawn := rfl
@[simp] theorem State.rawWrite_loadPath (s : State) (sp : Space) (a : Addr) (v : Byte) :
    (s.rawWrite sp a v).loadPath = s.loadPath := rfl
@[simp] theorem State.rawWrite_result (s : State) (sp : Space) (a : Addr) (v : Byte) :
    (s.rawWrite sp a v).result = s.result := rfl

/-! ### `bindRead` -/

@[simp] theorem State.bindRead_mem (s : State) (sp : Space) (a : Addr) (ch : ReadChannel) :
    (s.bindRead sp a ch).mem = s.mem := rfl
@[simp] theorem State.bindRead_rdMap (s : State) (sp : Space) (a : Addr) (ch : ReadChannel) :
    (s.bindRead sp a ch).rdMap = s.rdMap.set sp (cellInsert a.toNat ch (s.rdMap.get sp)) := rfl
@[simp] theorem State.bindRead_wrMap (s : State) (sp : Space) (a : Addr) (ch : ReadChannel) :
    (s.bindRead sp a ch).wrMap = s.wrMap := rfl
@[simp] theorem State.bindRead_phase (s : State) (sp : Space) (a : Addr) (ch : ReadChannel) :
    (s.bindRead sp a ch).phase = s.phase := rfl
@[simp] theorem State.bindRead_sched (s : State) (sp : Space) (a : Addr) (ch : ReadChannel) :
    (s.bindRead sp a ch).sched = s.sched := rfl
@[simp] theorem State.bindRead_setupError (s : State) (sp : Space) (a : Addr) (ch : ReadChannel) :
    (s.bindRead sp a ch).setupError = s.setupError := rfl
@[simp] theorem State.bindRead_fault (s : State) (sp : Space) (a : Addr) (ch : ReadChannel) :
    (s.bindRead sp a ch).fault = s.fault := rfl
@[simp] theorem State.bindRead_cartLoaded (s : State) (sp : Space) (a : Addr) (ch : ReadChannel) :
    (s.bindRead sp a ch).cartLoaded = s.cartLoaded := rfl
@[simp] theorem State.bindRead_line (s : State) (sp : Space) (a : Addr) (ch : ReadChannel) :
    (s.bindRead sp a ch).line = s.line := rfl
@[simp] theorem State.bindRead_dmaStall (s : State) (sp : Space) (a : Addr) (ch : ReadChannel) :
    (s.bindRead sp a ch).dmaStall = s.dmaStall := rfl
@[simp] theorem State.bindRead_budget (s : State) (sp : Space) (a : Addr) (ch : ReadChannel) :
    (s.bindRead sp a ch).budget = s.budget := rfl
@[simp] theorem State.bindRead_busy (s : State) (sp : Space) (a : Addr) (ch : ReadChannel) :
    (s.bindRead sp a ch).busy = s.busy := rfl
@[simp] theorem State.bindRead_quantaThisIter (s : State) (sp : Space) (a : Addr) (ch : ReadChannel) :
    (s.bindRead sp a ch).quantaThisIter = s.quantaThisIter := rfl
@[simp] theorem State.bindRead_events (s : State) (sp : Space) (a : Addr) (ch : ReadChannel) :
    (s.bindRead sp a ch).events = s.events := rfl
@[simp] theorem State.bindRead_ppuSteps (s : State) (sp : Space) (a : Addr) (ch : ReadChannel) :
    (s.bindRead sp a ch).ppuSteps = s.ppuSteps := rfl
@[simp] theorem State.bindRead_cpuSteps (s : State) (sp : Space) (a : Addr) (ch : ReadChannel) :
    (s.bindRead sp a ch).cpuSteps = s.cpuSteps := rfl
@[simp] theorem State.bindRead_stallSlots (s : State) (sp : Space) (a : Addr) (ch : ReadChannel) :
    (s.bindRead sp a ch).stallSlots = s.stallSlots := rfl
@[simp] theorem State.bindRead_quanta (s : State) (sp : Space) (a : Addr) (ch : ReadChannel) :
    (s.bindRead sp a ch).quanta = s.quanta := rfl
@[simp] theorem State.bindRead_dmaCount (s : State) (sp : Space) (a : Addr) (ch : ReadChannel) :
    (s.bindRead sp a ch).dmaCount = s.dmaCount := rfl
@[simp] theorem State.bindRead_redraws (s : State) (sp : Space) (a : Addr) (ch : ReadChannel) :
    (s.bindRead sp a ch).redraws = s.redraws := rfl
@[simp] theorem State.bindRead_params (s : State) (sp : Space) (a : Addr) (ch : ReadChannel) :
    (s.bindRead sp a ch).params = s.params := rfl
@[simp] theorem State.bindRead_commands (s : State) (sp : Space) (a : Addr) (ch : ReadChannel) :
    (s.bindRead sp a ch).commands = s.commands := rfl
@[simp] theorem State.bindRead_script (s : State) (sp : Space) (a : Addr) (ch : ReadChannel) :
    (s.bindRead sp a ch).script = s.script := rfl
@[simp] theorem State.bindRead_drawn (s : State) (sp : Space) (a : Addr) (ch : ReadChannel) :
    (s.bindRead sp a ch).drawn = s.drawn := rfl
@[simp] theorem State.bindRead_hostInputs (s : State) (sp : Space) (a : Addr) (ch : ReadChannel) :
    (s.bindRead sp a ch).hostInputs = s.hostInputs := rfl
@[simp] theorem State.bindRead_hostDrawn (s : State) (sp : Space) (a : Addr) (ch : ReadChannel) :
    (s.bindRead sp a ch).hostDrawn = s.hostDrawn := rfl
@[simp] theorem State.bindRead_loadPath (s : State) (sp : Space) (a : Addr) (ch : ReadChannel) :
    (s.bindRead sp a ch).loadPath = s.loadPath := rfl
@[simp] theorem State.bindRead_result (s : State) (sp : Space) (a : Addr) (ch : ReadChannel) :
    (s.bindRead sp a ch).result = s.result := rfl

/-! ### `bindWrite` -/

@[simp] theorem State.bindWrite_mem (s : State) (sp : Space) (a : Addr) (ch : WriteChannel) :
    (s.bindWrite sp a ch).mem = s.mem := rfl
@[simp] theorem State.bindWrite_rdMap (s : State) (sp : Space) (a : Addr) (ch : WriteChannel) :
    (s.bindWrite sp a ch).rdMap = s.rdMap := rfl
@[simp] theorem State.bindWrite_wrMap (s : State) (sp : Space) (a : Addr) (ch : WriteChannel) :
    (s.bindWrite sp a ch).wrMap = s.wrMap.set sp (cellInsert a.toNat ch (s.wrMap.get sp)) := rfl
@[simp] theorem State.bindWrite_phase (s : State) (sp : Space) (a : Addr) (ch : WriteChannel) :
    (s.bindWrite sp a ch).phase = s.phase := rfl
@[simp] theorem State.bindWrite_sched (s : State) (sp : Space) (a : Addr) (ch : WriteChannel) :
    (s.bindWrite sp a ch).sched = s.sched := rfl
@[simp] theorem State.bindWrite_setupError (s : State) (sp : Space) (a : Addr) (ch : WriteChannel) :
    (s.bindWrite sp a ch).setupError = s.setupError := rfl
@[simp] theorem State.bindWrite_fault (s : State) (sp : Space) (a : Addr) (ch : WriteChannel) :
    (s.bindWrite sp a ch).fault = s.fault := rfl
@[simp] theorem State.bindWrite_cartLoaded (s : State) (sp : Space) (a : Addr) (ch : WriteChannel) :
    (s.bindWrite sp a ch).cartLoaded = s.cartLoaded := rfl
@[simp] theorem State.bindWrite_line (s : State) (sp : Space) (a : Addr) (ch : WriteChannel) :
    (s.bindWrite sp a ch).line = s.line := rfl
@[simp] theorem State.bindWrite_dmaStall (s : State) (sp : Space) (a : Addr) (ch : WriteChannel) :
    (s.bindWrite sp a ch).dmaStall = s.dmaStall := rfl
@[simp] theorem State.bindWrite_budget (s : State) (sp : Space) (a : Addr) (ch : WriteChannel) :
    (s.bindWrite sp a ch).budget = s.budget := rfl
@[simp] theorem State.bindWrite_busy (s : State) (sp : Space) (a : Addr) (ch : WriteChannel) :
    (s.bindWrite sp a ch).busy = s.busy := rfl
@[simp] theorem State.bindWrite_quantaThisIter (s : State) (sp : Space) (a : Addr) (ch : WriteChannel) :
    (s.bindWrite sp a ch).quantaThisIter = s.quantaThisIter := rfl
@[simp] theorem State.bindWrite_events (s : State) (sp : Space) (a : Addr) (ch : WriteChannel) :
    (s.bindWrite sp a ch).events = s.events := rfl
@[simp] theorem State.bindWrite_ppuSteps (s : State) (sp : Space) (a : Addr) (ch : WriteChannel) :
    (s.bindWrite sp a ch).ppuSteps = s.ppuSteps := rfl
@[simp] theorem State.bindWrite_cpuSteps (s : State) (sp : Space) (a : Addr) (ch : WriteChannel) :
    (s.bindWrite sp a ch).cpuSteps = s.cpuSteps := rfl
@[simp] theorem State.bindWrite_stallSlots (s : State) (sp : Space) (a : Addr) (ch : WriteChannel) :
    (s.bindWrite sp a ch).stallSlots = s.stallSlots := rfl
@[simp] theorem State.bindWrite_quanta (s : State) (sp : Space) (a : Addr) (ch : WriteChannel) :
    (s.bindWrite sp a ch).quanta = s.quanta := rfl
@[simp] theorem State.bindWrite_dmaCount (s : State) (sp : Space) (a : Addr) (ch : WriteChannel) :
    (s.bindWrite sp a ch).dmaCount = s.dmaCount := rfl
@[simp] theorem State.bindWrite_redraws (s : State) (sp : Space) (a : Addr) (ch : WriteChannel) :
    (s.bindWrite sp a ch).redraws = s.redraws := rfl
@[simp] theorem State.bindWrite_params (s : State) (sp : Space) (a : Addr) (ch : WriteChannel) :
    (s.bindWrite sp a ch).params = s.params := rfl
@[simp] theorem State.bindWrite_commands (s : State) (sp : Space) (a : Addr) (ch : WriteChannel) :
    (s.bindWrite sp a ch).commands = s.commands := rfl
@[simp] theorem State.bindWrite_script (s : State) (sp : Space) (a : Addr) (ch : WriteChannel) :
    (s.bindWrite sp a ch).script = s.script := rfl
@[simp] theorem State.bindWrite_drawn (s : State) (sp : Space) (a : Addr) (ch : WriteChannel) :
    (s.bindWrite sp a ch).drawn = s.drawn := rfl
@[simp] theorem State.bindWrite_hostInputs (s : State) (sp : Space) (a : Addr) (ch : WriteChannel) :
    (s.bindWrite sp a ch).hostInputs = s.hostInputs := rfl
@[simp] theorem State.bindWrite_hostDrawn (s : State) (sp : Space) (a : Addr) (ch : WriteChannel) :
    (s.bindWrite sp a ch).hostDrawn = s.hostDrawn := rfl
@[simp] theorem State.bindWrite_loadPath (s : State) (sp : Space) (a : Addr) (ch : WriteChannel) :
    (s.bindWrite sp a ch).loadPath = s.loadPath := rfl
@[simp] theorem State.bindWrite_result (s : State) (sp : Space) (a : Addr) (ch : WriteChannel) :
    (s.bindWrite sp a ch).result = s.result := rfl

/-! ### `setBusy` -/

@[simp] theorem State.setBusy_mem (s : State) (sp : Space) (b : Bool) : (s.setBusy sp b).mem = s.mem := rfl
@[simp] theorem State.setBusy_rdMap (s : State) (sp : Space) (b : Bool) : (s.setBusy sp b).rdMap = s.rdMap := rfl
@[simp] theorem State.setBusy_wrMap (s : State) (sp : Space) (b : Bool) : (s.setBusy sp b).wrMap = s.wrMap := rfl
@[simp] theorem State.setBusy_phase (s : State) (sp : Space) (b : Bool) : (s.setBusy sp b).phase = s.phase := rfl
@[simp] theorem State.setBusy_sched (s : State) (sp : Space) (b : Bool) : (s.setBusy sp b).sched = s.sched := rfl
@[simp] theorem State.setBusy_setupError (s : State) (sp : Space) (b : Bool) :
    (s.setBusy sp b).setupError = s.setupError := rfl
@[simp] theorem State.setBusy_fault (s : State) (sp : Space) (b : Bool) : (s.setBusy sp b).fault = s.fault := rfl
@[simp] theorem State.setBusy_cartLoaded (s : State) (sp : Space) (b : Bool) :
    (s.setBusy sp b).cartLoaded = s.cartLoaded := rfl
@[simp] theorem State.setBusy_line (s : State) (sp : Space) (b : Bool) : (s.setBusy sp b).line = s.line := rfl
@[simp] theorem State.setBusy_dmaStall (s : State) (sp : Space) (b : Bool) :
    (s.setBusy sp b).dmaStall = s.dmaStall := rfl
@[simp] theorem State.setBusy_budget (s : State) (sp : Space) (b : Bool) : (s.setBusy sp b).budget = s.budget := rfl
@[simp] theorem State.setBusy_busy (s : State) (sp : Space) (b : Bool) :
    (s.setBusy sp b).busy = s.busy.set sp b := rfl
@[simp] theorem State.setBusy_quantaThisIter (s : State) (sp : Space) (b : Bool) :
    (s.setBusy sp b).quantaThisIter = s.quantaThisIter := rfl
@[simp] theorem State.setBusy_events (s : State) (sp : Space) (b : Bool) : (s.setBusy sp b).events = s.events := rfl
@[simp] theorem State.setBusy_ppuSteps (s : State) (sp : Space) (b : Bool) :
    (s.setBusy sp b).ppuSteps = s.ppuSteps := rfl
@[simp] theorem State.setBusy_cpuSteps (s : State) (sp : Space) (b : Bool) :
    (s.setBusy sp b).cpuSteps = s.cpuSteps := rfl
@[simp] theorem State.setBusy_stallSlots (s : State) (sp : Space) (b : Bool) :
    (s.setBusy sp b).stallSlots = s.stallSlots := rfl
@[simp] theorem State.setBusy_quanta (s : State) (sp : Space) (b : Bool) : (s.setBusy sp b).quanta = s.quanta := rfl
@[simp] theorem State.setBusy_dmaCount (s : State) (sp : Space) (b : Bool) :
    (s.setBusy sp b).dmaCount = s.dmaCount := rfl
@[simp] theorem State.setBusy_redraws (s : State) (sp : Space) (b : Bool) :
    (s.setBusy sp b).redraws = s.redraws := rfl
@[simp] theorem State.setBusy_params (s : State) (sp : Space) (b : Bool) : (s.setBusy sp b).params = s.params := rfl
@[simp] theorem State.setBusy_commands (s : State) (sp : Space) (b : Bool) :
    (s.setBusy sp b).commands = s.commands := rfl
@[simp] theorem State.setBusy_script (s : State) (sp : Space) (b : Bool) : (s.setBusy sp b).script = s.script := rfl
@[simp] theorem State.setBusy_drawn (s : State) (sp : Space) (b : Bool) : (s.setBusy sp b).drawn = s.drawn := rfl
@[simp] theorem State.setBusy_hostInputs (s : State) (sp : Space) (b : Bool) :
    (s.setBusy sp b).hostInputs = s.hostInputs := rfl
@[simp] theorem State.setBusy_hostDrawn (s : State) (sp : Space) (b : Bool) :
    (s.setBusy sp b).hostDrawn = s.hostDrawn := rfl
@[simp] theorem State.setBusy_loadPath (s : State) (sp : Space) (b : Bool) :
    (s.setBusy sp b).loadPath = s.loadPath := rfl
@[simp] theorem State.setBusy_result (s : State) (sp : Space) (b : Bool) : (s.setBusy sp b).result = s.result := rfl

/-! ### `raiseLine` -/

@[simp] theorem State.raiseLine_mem (s : State) (k : Kind) : (s.raiseLine k).mem = s.mem := rfl
@[simp] theorem State.raiseLine_rdMap (s : State) (k : Kind) : (s.raiseLine k).rdMap = s.rdMap := rfl
@[simp] theorem State.raiseLine_wrMap (s : State) (k : Kind) : (s.raiseLine k).wrMap = s.wrMap := rfl
@[simp] theorem State.raiseLine_phase (s : State) (k : Kind) : (s.raiseLine k).phase = s.phase := rfl
@[simp] theorem State.raiseLine_sched (s : State) (k : Kind) : (s.raiseLine k).sched = s.sched := rfl
@[simp] theorem State.raiseLine_setupError (s : State) (k : Kind) : (s.raiseLine k).setupError = s.setupError := rfl
@[simp] theorem State.raiseLine_fault (s : State) (k : Kind) : (s.raiseLine k).fault = s.fault := rfl
@[simp] theorem State.raiseLine_cartLoaded (s : State) (k : Kind) : (s.raiseLine k).cartLoaded = s.cartLoaded := rfl
@[simp] theorem State.raiseLine_line (s : State) (k : Kind) : (s.raiseLine k).line = latchRaise s.line k := rfl
@[simp] theorem State.raiseLine_dmaStall (s : State) (k : Kind) : (s.raiseLine k).dmaStall = s.dmaStall := rfl
@[simp] theorem State.raiseLine_budget (s : State) (k : Kind) : (s.raiseLine k).budget = s.budget := rfl
@[simp] theorem State.raiseLine_busy (s : State) (k : Kind) : (s.raiseLine k).busy = s.busy := rfl
@[simp] theorem State.raiseLine_quantaThisIter (s : State) (k : Kind) :
    (s.raiseLine k).quantaThisIter = s.quantaThisIter := rfl
@[simp] theorem State.raiseLine_events (s : State) (k : Kind) : (s.raiseLine k).events = s.events := rfl
@[simp] theorem State.raiseLine_ppuSteps (s : State) (k : Kind) : (s.raiseLine k).ppuSteps = s.ppuSteps := rfl
@[simp] theorem State.raiseLine_cpuSteps (s : State) (k : Kind) : (s.raiseLine k).cpuSteps = s.cpuSteps := rfl
@[simp] theorem State.raiseLine_stallSlots (s : State) (k : Kind) : (s.raiseLine k).stallSlots = s.stallSlots := rfl
@[simp] theorem State.raiseLine_quanta (s : State) (k : Kind) : (s.raiseLine k).quanta = s.quanta := rfl
@[simp] theorem State.raiseLine_dmaCount (s : State) (k : Kind) : (s.raiseLine k).dmaCount = s.dmaCount := rfl
@[simp] theorem State.raiseLine_redraws (s : State) (k : Kind) : (s.raiseLine k).redraws = s.redraws := rfl
@[simp] theorem State.raiseLine_params (s : State) (k : Kind) : (s.raiseLine k).params = s.params := rfl
@[simp] theorem State.raiseLine_commands (s : State) (k : Kind) : (s.raiseLine k).commands = s.commands := rfl
@[simp] theorem State.raiseLine_script (s : State) (k : Kind) : (s.raiseLine k).script = s.script := rfl
@[simp] theorem State.raiseLine_drawn (s : State) (k : Kind) : (s.raiseLine k).drawn = s.drawn := rfl
@[simp] theorem State.raiseLine_hostInputs (s : State) (k : Kind) : (s.raiseLine k).hostInputs = s.hostInputs := rfl
@[simp] theorem State.raiseLine_hostDrawn (s : State) (k : Kind) : (s.raiseLine k).hostDrawn = s.hostDrawn := rfl
@[simp] theorem State.raiseLine_loadPath (s : State) (k : Kind) : (s.raiseLine k).loadPath = s.loadPath := rfl
@[simp] theorem State.raiseLine_result (s : State) (k : Kind) : (s.raiseLine k).result = s.result := rfl

/-! ### `clearLine` -/

@[simp] theorem State.clearLine_mem (s : State) : (s.clearLine).mem = s.mem := rfl
@[simp] theorem State.clearLine_rdMap (s : State) : (s.clearLine).rdMap = s.rdMap := rfl
@[simp] theorem State.clearLine_wrMap (s : State) : (s.clearLine).wrMap = s.wrMap := rfl
@[simp] theorem State.clearLine_phase (s : State) : (s.clearLine).phase = s.phase := rfl
@[simp] theorem State.clearLine_sched (s : State) : (s.clearLine).sched = s.sched := rfl
@[simp] theorem State.clearLine_setupError (s : State) : (s.clearLine).setupError = s.setupError := rfl
@[simp] theorem State.clearLine_fault (s : State) : (s.clearLine).fault = s.fault := rfl
@[simp] theorem State.clearLine_cartLoaded (s : State) : (s.clearLine).cartLoaded = s.cartLoaded := rfl
@[simp] theorem State.clearLine_line (s : State) : (s.clearLine).line = none := rfl
@[simp] theorem State.clearLine_dmaStall (s : State) : (s.clearLine).dmaStall = s.dmaStall := rfl
@[simp] theorem State.clearLine_budget (s : State) : (s.clearLine).budget = s.budget := rfl
@[simp] theorem State.clearLine_busy (s : State) : (s.clearLine).busy = s.busy := rfl
@[simp] theorem State.clearLine_quantaThisIter (s : State) : (s.clearLine).quantaThisIter = s.quantaThisIter := rfl
@[simp] theorem State.clearLine_events (s : State) : (s.clearLine).events = s.events := rfl
@[simp] theorem State.clearLine_ppuSteps (s : State) : (s.clearLine).ppuSteps = s.ppuSteps := rfl
@[simp] theorem State.clearLine_cpuSteps (s : State) : (s.clearLine).cpuSteps = s.cpuSteps := rfl
@[simp] theorem State.clearLine_stallSlots (s : State) : (s.clearLine).stallSlots = s.stallSlots := rfl
@[simp] theorem State.clearLine_quanta (s : State) : (s.clearLine).quanta = s.quanta := rfl
@[simp] theorem State.clearLine_dmaCount (s : State) : (s.clearLine).dmaCount = s.dmaCount := rfl
@[simp] theorem State.clearLine_redraws (s : State) : (s.clearLine).redraws = s.redraws := rfl
@[simp] theorem State.clearLine_params (s : State) : (s.clearLine).params = s.params := rfl
@[simp] theorem State.clearLine_commands (s : State) : (s.clearLine).commands = s.commands := rfl
@[simp] theorem State.clearLine_script (s : State) : (s.clearLine).script = s.script := rfl
@[simp] theorem State.clearLine_drawn (s : State) : (s.clearLine).drawn = s.drawn := rfl
@[simp] theorem State.clearLine_hostInputs (s : State) : (s.clearLine).hostInputs = s.hostInputs := rfl
@[simp] theorem State.clearLine_hostDrawn (s : State) : (s.clearLine).hostDrawn = s.hostDrawn := rfl
@[simp] theorem State.clearLine_loadPath (s : State) : (s.clearLine).loadPath = s.loadPath := rfl
@[simp] theorem State.clearLine_result (s : State) : (s.clearLine).result = s.result := rfl

/-! ### `enterFault` -/

@[simp] theorem State.enterFault_mem (s : State) (f : RunFault) : (s.enterFault f).mem = s.mem := rfl
@[simp] theorem State.enterFault_rdMap (s : State) (f : RunFault) : (s.enterFault f).rdMap = s.rdMap := rfl
@[simp] theorem State.enterFault_wrMap (s : State) (f : RunFault) : (s.enterFault f).wrMap = s.wrMap := rfl
@[simp] theorem State.enterFault_phase (s : State) (f : RunFault) : (s.enterFault f).phase = s.phase := rfl
@[simp] theorem State.enterFault_sched (s : State) (f : RunFault) : (s.enterFault f).sched = .stopped := rfl
@[simp] theorem State.enterFault_setupError (s : State) (f : RunFault) :
    (s.enterFault f).setupError = s.setupError := rfl
@[simp] theorem State.enterFault_fault (s : State) (f : RunFault) : (s.enterFault f).fault = some f := rfl
@[simp] theorem State.enterFault_cartLoaded (s : State) (f : RunFault) :
    (s.enterFault f).cartLoaded = s.cartLoaded := rfl
@[simp] theorem State.enterFault_line (s : State) (f : RunFault) : (s.enterFault f).line = s.line := rfl
@[simp] theorem State.enterFault_dmaStall (s : State) (f : RunFault) : (s.enterFault f).dmaStall = s.dmaStall := rfl
@[simp] theorem State.enterFault_budget (s : State) (f : RunFault) : (s.enterFault f).budget = s.budget := rfl
@[simp] theorem State.enterFault_busy (s : State) (f : RunFault) : (s.enterFault f).busy = s.busy := rfl
@[simp] theorem State.enterFault_quantaThisIter (s : State) (f : RunFault) :
    (s.enterFault f).quantaThisIter = s.quantaThisIter := rfl
@[simp] theorem State.enterFault_events (s : State) (f : RunFault) : (s.enterFault f).events = s.events := rfl
@[simp] theorem State.enterFault_ppuSteps (s : State) (f : RunFault) : (s.enterFault f).ppuSteps = s.ppuSteps := rfl
@[simp] theorem State.enterFault_cpuSteps (s : State) (f : RunFault) : (s.enterFault f).cpuSteps = s.cpuSteps := rfl
@[simp] theorem State.enterFault_stallSlots (s : State) (f : RunFault) :
    (s.enterFault f).stallSlots = s.stallSlots := rfl
@[simp] theorem State.enterFault_quanta (s : State) (f : RunFault) : (s.enterFault f).quanta = s.quanta := rfl
@[simp] theorem State.enterFault_dmaCount (s : State) (f : RunFault) : (s.enterFault f).dmaCount = s.dmaCount := rfl
@[simp] theorem State.enterFault_redraws (s : State) (f : RunFault) : (s.enterFault f).redraws = s.redraws := rfl
@[simp] theorem State.enterFault_params (s : State) (f : RunFault) : (s.enterFault f).params = s.params := rfl
@[simp] theorem State.enterFault_commands (s : State) (f : RunFault) : (s.enterFault f).commands = s.commands := rfl
@[simp] theorem State.enterFault_script (s : State) (f : RunFault) : (s.enterFault f).script = s.script := rfl
@[simp] theorem State.enterFault_drawn (s : State) (f : RunFault) : (s.enterFault f).drawn = s.drawn := rfl
@[simp] theorem State.enterFault_hostInputs (s : State) (f : RunFault) :
    (s.enterFault f).hostInputs = s.hostInputs := rfl
@[simp] theorem State.enterFault_hostDrawn (s : State) (f : RunFault) :
    (s.enterFault f).hostDrawn = s.hostDrawn := rfl
@[simp] theorem State.enterFault_loadPath (s : State) (f : RunFault) :
    (s.enterFault f).loadPath = s.loadPath := rfl
@[simp] theorem State.enterFault_result (s : State) (f : RunFault) : (s.enterFault f).result = s.result := rfl

/-! ### `log` -/

@[simp] theorem State.log_mem (s : State) (e : Event) : (s.log e).mem = s.mem := rfl
@[simp] theorem State.log_rdMap (s : State) (e : Event) : (s.log e).rdMap = s.rdMap := rfl
@[simp] theorem State.log_wrMap (s : State) (e : Event) : (s.log e).wrMap = s.wrMap := rfl
@[simp] theorem State.log_phase (s : State) (e : Event) : (s.log e).phase = s.phase := rfl
@[simp] theorem State.log_sched (s : State) (e : Event) : (s.log e).sched = s.sched := rfl
@[simp] theorem State.log_setupError (s : State) (e : Event) : (s.log e).setupError = s.setupError := rfl
@[simp] theorem State.log_fault (s : State) (e : Event) : (s.log e).fault = s.fault := rfl
@[simp] theorem State.log_cartLoaded (s : State) (e : Event) : (s.log e).cartLoaded = s.cartLoaded := rfl
@[simp] theorem State.log_line (s : State) (e : Event) : (s.log e).line = s.line := rfl
@[simp] theorem State.log_dmaStall (s : State) (e : Event) : (s.log e).dmaStall = s.dmaStall := rfl
@[simp] theorem State.log_budget (s : State) (e : Event) : (s.log e).budget = s.budget := rfl
@[simp] theorem State.log_busy (s : State) (e : Event) : (s.log e).busy = s.busy := rfl
@[simp] theorem State.log_quantaThisIter (s : State) (e : Event) : (s.log e).quantaThisIter = s.quantaThisIter := rfl
@[simp] theorem State.log_events (s : State) (e : Event) : (s.log e).events = s.events ++ [e] := rfl
@[simp] theorem State.log_ppuSteps (s : State) (e : Event) : (s.log e).ppuSteps = s.ppuSteps := rfl
@[simp] theorem State.log_cpuSteps (s : State) (e : Event) : (s.log e).cpuSteps = s.cpuSteps := rfl
@[simp] theorem State.log_stallSlots (s : State) (e : Event) : (s.log e).stallSlots = s.stallSlots := rfl
@[simp] theorem State.log_quanta (s : State) (e : Event) : (s.log e).quanta = s.quanta := rfl
@[simp] theorem State.log_dmaCount (s : State) (e : Event) : (s.log e).dmaCount = s.dmaCount := rfl
@[simp] theorem State.log_redraws (s : State) (e : Event) : (s.log e).redraws = s.redraws := rfl
@[simp] theorem State.log_params (s : State) (e : Event) : (s.log e).params = s.params := rfl
@[simp] theorem State.log_commands (s : State) (e : Event) : (s.log e).commands = s.commands := rfl
@[simp] theorem State.log_script (s : State) (e : Event) : (s.log e).script = s.script := rfl
@[simp] theorem State.log_drawn (s : State) (e : Event) : (s.log e).drawn = s.drawn := rfl
@[simp] theorem State.log_hostInputs (s : State) (e : Event) : (s.log e).hostInputs = s.hostInputs := rfl
@[simp] theorem State.log_hostDrawn (s : State) (e : Event) : (s.log e).hostDrawn = s.hostDrawn := rfl
@[simp] theorem State.log_loadPath (s : State) (e : Event) : (s.log e).loadPath = s.loadPath := rfl
@[simp] theorem State.log_result (s : State) (e : Event) : (s.log e).result = s.result := rfl

/-! ### `setEvent` -/

@[simp] theorem State.setEvent_mem (s : State) (k : Nat) (e : Event) : (s.setEvent k e).mem = s.mem := rfl
@[simp] theorem State.setEvent_rdMap (s : State) (k : Nat) (e : Event) : (s.setEvent k e).rdMap = s.rdMap := rfl
@[simp] theorem State.setEvent_wrMap (s : State) (k : Nat) (e : Event) : (s.setEvent k e).wrMap = s.wrMap := rfl
@[simp] theorem State.setEvent_phase (s : State) (k : Nat) (e : Event) : (s.setEvent k e).phase = s.phase := rfl
@[simp] theorem State.setEvent_sched (s : State) (k : Nat) (e : Event) : (s.setEvent k e).sched = s.sched := rfl
@[simp] theorem State.setEvent_setupError (s : State) (k : Nat) (e : Event) :
    (s.setEvent k e).setupError = s.setupError := rfl
@[simp] theorem State.setEvent_fault (s : State) (k : Nat) (e : Event) : (s.setEvent k e).fault = s.fault := rfl
@[simp] theorem State.setEvent_cartLoaded (s : State) (k : Nat) (e : Event) :
    (s.setEvent k e).cartLoaded = s.cartLoaded := rfl
@[simp] theorem State.setEvent_line (s : State) (k : Nat) (e : Event) : (s.setEvent k e).line = s.line := rfl
@[simp] theorem State.setEvent_dmaStall (s : State) (k : Nat) (e : Event) :
    (s.setEvent k e).dmaStall = s.dmaStall := rfl
@[simp] theorem State.setEvent_budget (s : State) (k : Nat) (e : Event) : (s.setEvent k e).budget = s.budget := rfl
@[simp] theorem State.setEvent_busy (s : State) (k : Nat) (e : Event) : (s.setEvent k e).busy = s.busy := rfl
@[simp] theorem State.setEvent_quantaThisIter (s : State) (k : Nat) (e : Event) :
    (s.setEvent k e).quantaThisIter = s.quantaThisIter := rfl
@[simp] theorem State.setEvent_events (s : State) (k : Nat) (e : Event) :
    (s.setEvent k e).events = s.events.set k e := rfl
@[simp] theorem State.setEvent_ppuSteps (s : State) (k : Nat) (e : Event) :
    (s.setEvent k e).ppuSteps = s.ppuSteps := rfl
@[simp] theorem State.setEvent_cpuSteps (s : State) (k : Nat) (e : Event) :
    (s.setEvent k e).cpuSteps = s.cpuSteps := rfl
@[simp] theorem State.setEvent_stallSlots (s : State) (k : Nat) (e : Event) :
    (s.setEvent k e).stallSlots = s.stallSlots := rfl
@[simp] theorem State.setEvent_quanta (s : State) (k : Nat) (e : Event) : (s.setEvent k e).quanta = s.quanta := rfl
@[simp] theorem State.setEvent_dmaCount (s : State) (k : Nat) (e : Event) :
    (s.setEvent k e).dmaCount = s.dmaCount := rfl
@[simp] theorem State.setEvent_redraws (s : State) (k : Nat) (e : Event) : (s.setEvent k e).redraws = s.redraws := rfl
@[simp] theorem State.setEvent_params (s : State) (k : Nat) (e : Event) : (s.setEvent k e).params = s.params := rfl
@[simp] theorem State.setEvent_commands (s : State) (k : Nat) (e : Event) :
    (s.setEvent k e).commands = s.commands := rfl
@[simp] theorem State.setEvent_script (s : State) (k : Nat) (e : Event) : (s.setEvent k e).script = s.script := rfl
@[simp] theorem State.setEvent_drawn (s : State) (k : Nat) (e : Event) : (s.setEvent k e).drawn = s.drawn := rfl
@[simp] theorem State.setEvent_hostInputs (s : State) (k : Nat) (e : Event) :
    (s.setEvent k e).hostInputs = s.hostInputs := rfl
@[simp] theorem State.setEvent_hostDrawn (s : State) (k : Nat) (e : Event) :
    (s.setEvent k e).hostDrawn = s.hostDrawn := rfl
@[simp] theorem State.setEvent_loadPath (s : State) (k : Nat) (e : Event) :
    (s.setEvent k e).loadPath = s.loadPath := rfl
@[simp] theorem State.setEvent_result (s : State) (k : Nat) (e : Event) : (s.setEvent k e).result = s.result := rfl

/-! ### `recordPath` -/

@[simp] theorem State.recordPath_mem (s : State) (path : String) : (s.recordPath path).mem = s.mem := rfl
@[simp] theorem State.recordPath_rdMap (s : State) (path : String) : (s.recordPath path).rdMap = s.rdMap := rfl
@[simp] theorem State.recordPath_wrMap (s : State) (path : String) : (s.recordPath path).wrMap = s.wrMap := rfl
@[simp] theorem State.recordPath_phase (s : State) (path : String) : (s.recordPath path).phase = s.phase := rfl
@[simp] theorem State.recordPath_sched (s : State) (path : String) : (s.recordPath path).sched = s.sched := rfl
@[simp] theorem State.recordPath_setupError (s : State) (path : String) :
    (s.recordPath path).setupError = s.setupError := rfl
@[simp] theorem State.recordPath_fault (s : State) (path : String) : (s.recordPath path).fault = s.fault := rfl
@[simp] theorem State.recordPath_cartLoaded (s : State) (path : String) :
    (s.recordPath path).cartLoaded = s.cartLoaded := rfl
@[simp] theorem State.recordPath_line (s : State) (path : String) : (s.recordPath path).line = s.line := rfl
@[simp] theorem State.recordPath_dmaStall (s : State) (path : String) :
    (s.recordPath path).dmaStall = s.dmaStall := rfl
@[simp] theorem State.recordPath_budget (s : State) (path : String) : (s.recordPath path).budget = s.budget := rfl
@[simp] theorem State.recordPath_busy (s : State) (path : String) : (s.recordPath path).busy = s.busy := rfl
@[simp] theorem State.recordPath_quantaThisIter (s : State) (path : String) :
    (s.recordPath path).quantaThisIter = s.quantaThisIter := rfl
@[simp] theorem State.recordPath_events (s : State) (path : String) : (s.recordPath path).events = s.events := rfl
@[simp] theorem State.recordPath_ppuSteps (s : State) (path : String) :
    (s.recordPath path).ppuSteps = s.ppuSteps := rfl
@[simp] theorem State.recordPath_cpuSteps (s : State) (path : String) :
    (s.recordPath path).cpuSteps = s.cpuSteps := rfl
@[simp] theorem State.recordPath_stallSlots (s : State) (path : String) :
    (s.recordPath path).stallSlots = s.stallSlots := rfl
@[simp] theorem State.recordPath_quanta (s : State) (path : String) : (s.recordPath path).quanta = s.quanta := rfl
@[simp] theorem State.recordPath_dmaCount (s : State) (path : String) :
    (s.recordPath path).dmaCount = s.dmaCount := rfl
@[simp] theorem State.recordPath_redraws (s : State) (path : String) : (s.recordPath path).redraws = s.redraws := rfl
@[simp] theorem State.recordPath_params (s : State) (path : String) : (s.recordPath path).params = s.params := rfl
@[simp] theorem State.recordPath_commands (s : State) (path : String) :
    (s.recordPath path).commands = s.commands := rfl
@[simp] theorem State.recordPath_script (s : State) (path : String) : (s.recordPath path).script = s.script := rfl
@[simp] theorem State.recordPath_drawn (s : State) (path : String) : (s.recordPath path).drawn = s.drawn := rfl
@[simp] theorem State.recordPath_hostInputs (s : State) (path : String) :
    (s.recordPath path).hostInputs = s.hostInputs := rfl
@[simp] theorem State.recordPath_hostDrawn (s : State) (path : String) :
    (s.recordPath path).hostDrawn = s.hostDrawn := rfl
@[simp] theorem State.recordPath_loadPath (s : State) (path : String) :
    (s.recordPath path).loadPath = some path := rfl
@[simp] theorem State.recordPath_result (s : State) (path : String) : (s.recordPath path).result = s.result := rfl

/-! ### `afterDraw` -/

@[simp] theorem State.afterDraw_mem (s : State) : (s.afterDraw).mem = s.mem := by
  unfold State.afterDraw
  split <;> rfl
@[simp] theorem State.afterDraw_rdMap (s : State) : (s.afterDraw).rdMap = s.rdMap := by
  unfold State.afterDraw
  split <;> rfl
@[simp] theorem State.afterDraw_wrMap (s : State) : (s.afterDraw).wrMap = s.wrMap := by
  unfold State.afterDraw
  split <;> rfl
@[simp] theorem State.afterDraw_phase (s : State) : (s.afterDraw).phase = s.phase := by
  unfold State.afterDraw
  split <;> rfl
@[simp] theorem State.afterDraw_sched (s : State) : (s.afterDraw).sched = s.sched := by
  unfold State.afterDraw
  split <;> rfl
@[simp] theorem State.afterDraw_setupError (s : State) : (s.afterDraw).setupError = s.setupError := by
  unfold State.afterDraw
  split <;> rfl
@[simp] theorem State.afterDraw_fault (s : State) : (s.afterDraw).fault = s.fault := by
  unfold State.afterDraw
  split <;> rfl
@[simp] theorem State.afterDraw_cartLoaded (s : State) : (s.afterDraw).cartLoaded = s.cartLoaded := by
  unfold State.afterDraw
  split <;> rfl
@[simp] theorem State.afterDraw_line (s : State) : (s.afterDraw).line = s.line := by
  unfold State.afterDraw
  split <;> rfl
@[simp] theorem State.afterDraw_dmaStall (s : State) : (s.afterDraw).dmaStall = s.dmaStall := by
  unfold State.afterDraw
  split <;> rfl
@[simp] theorem State.afterDraw_budget (s : State) : (s.afterDraw).budget = s.budget := by
  unfold State.afterDraw
  split <;> rfl
@[simp] theorem State.afterDraw_busy (s : State) : (s.afterDraw).busy = s.busy := by
  unfold State.afterDraw
  split <;> rfl
@[simp] theorem State.afterDraw_quantaThisIter (s : State) : (s.afterDraw).quantaThisIter = s.quantaThisIter := by
  unfold State.afterDraw
  split <;> rfl
@[simp] theorem State.afterDraw_events (s : State) : (s.afterDraw).events = s.events := by
  unfold State.afterDraw
  split <;> rfl
@[simp] theorem State.afterDraw_ppuSteps (s : State) : (s.afterDraw).ppuSteps = s.ppuSteps := by
  unfold State.afterDraw
  split <;> rfl
@[simp] theorem State.afterDraw_cpuSteps (s : State) : (s.afterDraw).cpuSteps = s.cpuSteps := by
  unfold State.afterDraw
  split <;> rfl
@[simp] theorem State.afterDraw_stallSlots (s : State) : (s.afterDraw).stallSlots = s.stallSlots := by
  unfold State.afterDraw
  split <;> rfl
@[simp] theorem State.afterDraw_quanta (s : State) : (s.afterDraw).quanta = s.quanta := by
  unfold State.afterDraw
  split <;> rfl
@[simp] theorem State.afterDraw_dmaCount (s : State) : (s.afterDraw).dmaCount = s.dmaCount := by
  unfold State.afterDraw
  split <;> rfl
@[simp] theorem State.afterDraw_redraws (s : State) : (s.afterDraw).redraws = s.redraws := by
  unfold State.afterDraw
  split <;> rfl
@[simp] theorem State.afterDraw_params (s : State) : (s.afterDraw).params = s.params := by
  unfold State.afterDraw
  split <;> rfl
@[simp] theorem State.afterDraw_commands (s : State) : (s.afterDraw).commands = s.commands := by
  unfold State.afterDraw
  split <;> rfl
@[simp] theorem State.afterDraw_hostInputs (s : State) : (s.afterDraw).hostInputs = s.hostInputs := by
  unfold State.afterDraw
  split <;> rfl
@[simp] theorem State.afterDraw_hostDrawn (s : State) : (s.afterDraw).hostDrawn = s.hostDrawn := by
  unfold State.afterDraw
  split <;> rfl
@[simp] theorem State.afterDraw_loadPath (s : State) : (s.afterDraw).loadPath = s.loadPath := by
  unfold State.afterDraw
  split <;> rfl
@[simp] theorem State.afterDraw_result (s : State) : (s.afterDraw).result = s.result := by
  unfold State.afterDraw
  split <;> rfl

/-! ### `atSlot` -/

@[simp] theorem State.atSlot_mem (s : State) (i : Slot) : (s.atSlot i).mem = s.mem := rfl
@[simp] theorem State.atSlot_rdMap (s : State) (i : Slot) : (s.atSlot i).rdMap = s.rdMap := rfl
@[simp] theorem State.atSlot_wrMap (s : State) (i : Slot) : (s.atSlot i).wrMap = s.wrMap := rfl
@[simp] theorem State.atSlot_phase (s : State) (i : Slot) : (s.atSlot i).phase = .slot s.quantaThisIter i := rfl
@[simp] theorem State.atSlot_sched (s : State) (i : Slot) : (s.atSlot i).sched = s.sched := rfl
@[simp] theorem State.atSlot_setupError (s : State) (i : Slot) : (s.atSlot i).setupError = s.setupError := rfl
@[simp] theorem State.atSlot_fault (s : State) (i : Slot) : (s.atSlot i).fault = s.fault := rfl
@[simp] theorem State.atSlot_cartLoaded (s : State) (i : Slot) : (s.atSlot i).cartLoaded = s.cartLoaded := rfl
@[simp] theorem State.atSlot_line (s : State) (i : Slot) : (s.atSlot i).line = s.line := rfl
@[simp] theorem State.atSlot_dmaStall (s : State) (i : Slot) : (s.atSlot i).dmaStall = s.dmaStall := rfl
@[simp] theorem State.atSlot_budget (s : State) (i : Slot) : (s.atSlot i).budget = s.budget := rfl
@[simp] theorem State.atSlot_busy (s : State) (i : Slot) : (s.atSlot i).busy = s.busy := rfl
@[simp] theorem State.atSlot_quantaThisIter (s : State) (i : Slot) :
    (s.atSlot i).quantaThisIter = s.quantaThisIter := rfl
@[simp] theorem State.atSlot_events (s : State) (i : Slot) : (s.atSlot i).events = s.events := rfl
@[simp] theorem State.atSlot_ppuSteps (s : State) (i : Slot) : (s.atSlot i).ppuSteps = s.ppuSteps := rfl
@[simp] theorem State.atSlot_cpuSteps (s : State) (i : Slot) : (s.atSlot i).cpuSteps = s.cpuSteps := rfl
@[simp] theorem State.atSlot_stallSlots (s : State) (i : Slot) : (s.atSlot i).stallSlots = s.stallSlots := rfl
@[simp] theorem State.atSlot_quanta (s : State) (i : Slot) : (s.atSlot i).quanta = s.quanta := rfl
@[simp] theorem State.atSlot_dmaCount (s : State) (i : Slot) : (s.atSlot i).dmaCount = s.dmaCount := rfl
@[simp] theorem State.atSlot_redraws (s : State) (i : Slot) : (s.atSlot i).redraws = s.redraws := rfl
@[simp] theorem State.atSlot_params (s : State) (i : Slot) : (s.atSlot i).params = s.params := rfl
@[simp] theorem State.atSlot_commands (s : State) (i : Slot) : (s.atSlot i).commands = s.commands := rfl
@[simp] theorem State.atSlot_script (s : State) (i : Slot) : (s.atSlot i).script = s.script := rfl
@[simp] theorem State.atSlot_drawn (s : State) (i : Slot) : (s.atSlot i).drawn = s.drawn := rfl
@[simp] theorem State.atSlot_hostInputs (s : State) (i : Slot) : (s.atSlot i).hostInputs = s.hostInputs := rfl
@[simp] theorem State.atSlot_hostDrawn (s : State) (i : Slot) : (s.atSlot i).hostDrawn = s.hostDrawn := rfl
@[simp] theorem State.atSlot_loadPath (s : State) (i : Slot) : (s.atSlot i).loadPath = s.loadPath := rfl
@[simp] theorem State.atSlot_result (s : State) (i : Slot) : (s.atSlot i).result = s.result := rfl

/-! ### `afterHostInput` -/

@[simp] theorem State.afterHostInput_mem (s : State) : (s.afterHostInput).mem = s.mem := by
  unfold State.afterHostInput
  split <;> rfl
@[simp] theorem State.afterHostInput_rdMap (s : State) : (s.afterHostInput).rdMap = s.rdMap := by
  unfold State.afterHostInput
  split <;> rfl
@[simp] theorem State.afterHostInput_wrMap (s : State) : (s.afterHostInput).wrMap = s.wrMap := by
  unfold State.afterHostInput
  split <;> rfl
@[simp] theorem State.afterHostInput_phase (s : State) : (s.afterHostInput).phase = s.phase := by
  unfold State.afterHostInput
  split <;> rfl
@[simp] theorem State.afterHostInput_sched (s : State) : (s.afterHostInput).sched = s.sched := by
  unfold State.afterHostInput
  split <;> rfl
@[simp] theorem State.afterHostInput_setupError (s : State) : (s.afterHostInput).setupError = s.setupError := by
  unfold State.afterHostInput
  split <;> rfl
@[simp] theorem State.afterHostInput_fault (s : State) : (s.afterHostInput).fault = s.fault := by
  unfold State.afterHostInput
  split <;> rfl
@[simp] theorem State.afterHostInput_cartLoaded (s : State) : (s.afterHostInput).cartLoaded = s.cartLoaded := by
  unfold State.afterHostInput
  split <;> rfl
@[simp] theorem State.afterHostInput_line (s : State) : (s.afterHostInput).line = s.line := by
  unfold State.afterHostInput
  split <;> rfl
@[simp] theorem State.afterHostInput_dmaStall (s : State) : (s.afterHostInput).dmaStall = s.dmaStall := by
  unfold State.afterHostInput
  split <;> rfl
@[simp] theorem State.afterHostInput_budget (s : State) : (s.afterHostInput).budget = s.budget := by
  unfold State.afterHostInput
  split <;> rfl
@[simp] theorem State.afterHostInput_busy (s : State) : (s.afterHostInput).busy = s.busy := by
  unfold State.afterHostInput
  split <;> rfl
@[simp] theorem State.afterHostInput_quantaThisIter (s : State) : (s.afterHostInput).quantaThisIter = s.quantaThisIter := by
  unfold State.afterHostInput
  split <;> rfl
@[simp] theorem State.afterHostInput_events (s : State) : (s.afterHostInput).events = s.events := by
  unfold State.afterHostInput
  split <;> rfl
@[simp] theorem State.afterHostInput_ppuSteps (s : State) : (s.afterHostInput).ppuSteps = s.ppuSteps := by
  unfold State.afterHostInput
  split <;> rfl
@[simp] theorem State.afterHostInput_cpuSteps (s : State) : (s.afterHostInput).cpuSteps = s.cpuSteps := by
  unfold State.afterHostInput
  split <;> rfl
@[simp] theorem State.afterHostInput_stallSlots (s : State) : (s.afterHostInput).stallSlots = s.stallSlots := by
  unfold State.afterHostInput
  split <;> rfl
@[simp] theorem State.afterHostInput_quanta (s : State) : (s.afterHostInput).quanta = s.quanta := by
  unfold State.afterHostInput
  split <;> rfl
@[simp] theorem State.afterHostInput_dmaCount (s : State) : (s.afterHostInput).dmaCount = s.dmaCount := by
  unfold State.afterHostInput
  split <;> rfl
@[simp] theorem State.afterHostInput_redraws (s : State) : (s.afterHostInput).redraws = s.redraws := by
  unfold State.afterHostInput
  split <;> rfl
@[simp] theorem State.afterHostInput_params (s : State) : (s.afterHostInput).params = s.params := by
  unfold State.afterHostInput
  split <;> rfl
@[simp] theorem State.afterHostInput_commands (s : State) : (s.afterHostInput).commands = s.commands := by
  unfold State.afterHostInput
  split <;> rfl
@[simp] theorem State.afterHostInput_script (s : State) : (s.afterHostInput).script = s.script := by
  unfold State.afterHostInput
  split <;> rfl
@[simp] theorem State.afterHostInput_drawn (s : State) : (s.afterHostInput).drawn = s.drawn := by
  unfold State.afterHostInput
  split <;> rfl
@[simp] theorem State.afterHostInput_result (s : State) : (s.afterHostInput).result = s.result := by
  unfold State.afterHostInput
  split <;> rfl
@[simp] theorem State.afterHostInput_loadPath (s : State) : (s.afterHostInput).loadPath = s.loadPath := by
  unfold State.afterHostInput
  split <;> rfl

/-! ### `beginIter` -/

@[simp] theorem State.beginIter_mem (s : State) (d : Nat) : (s.beginIter d).mem = s.mem := rfl
@[simp] theorem State.beginIter_rdMap (s : State) (d : Nat) : (s.beginIter d).rdMap = s.rdMap := rfl
@[simp] theorem State.beginIter_wrMap (s : State) (d : Nat) : (s.beginIter d).wrMap = s.wrMap := rfl
@[simp] theorem State.beginIter_phase (s : State) (d : Nat) : (s.beginIter d).phase = s.phase := rfl
@[simp] theorem State.beginIter_sched (s : State) (d : Nat) : (s.beginIter d).sched = s.sched := rfl
@[simp] theorem State.beginIter_setupError (s : State) (d : Nat) :
    (s.beginIter d).setupError = s.setupError := rfl
@[simp] theorem State.beginIter_fault (s : State) (d : Nat) : (s.beginIter d).fault = s.fault := rfl
@[simp] theorem State.beginIter_cartLoaded (s : State) (d : Nat) :
    (s.beginIter d).cartLoaded = s.cartLoaded := rfl
@[simp] theorem State.beginIter_line (s : State) (d : Nat) : (s.beginIter d).line = s.line := rfl
@[simp] theorem State.beginIter_dmaStall (s : State) (d : Nat) : (s.beginIter d).dmaStall = s.dmaStall := rfl
@[simp] theorem State.beginIter_budget (s : State) (d : Nat) : (s.beginIter d).budget = s.budget + d := rfl
@[simp] theorem State.beginIter_busy (s : State) (d : Nat) : (s.beginIter d).busy = s.busy := rfl
@[simp] theorem State.beginIter_quantaThisIter (s : State) (d : Nat) : (s.beginIter d).quantaThisIter = 0 := rfl
@[simp] theorem State.beginIter_events (s : State) (d : Nat) : (s.beginIter d).events = s.events := rfl
@[simp] theorem State.beginIter_ppuSteps (s : State) (d : Nat) : (s.beginIter d).ppuSteps = s.ppuSteps := rfl
@[simp] theorem State.beginIter_cpuSteps (s : State) (d : Nat) : (s.beginIter d).cpuSteps = s.cpuSteps := rfl
@[simp] theorem State.beginIter_stallSlots (s : State) (d : Nat) :
    (s.beginIter d).stallSlots = s.stallSlots := rfl
@[simp] theorem State.beginIter_quanta (s : State) (d : Nat) : (s.beginIter d).quanta = s.quanta := rfl
@[simp] theorem State.beginIter_dmaCount (s : State) (d : Nat) : (s.beginIter d).dmaCount = s.dmaCount := rfl
@[simp] theorem State.beginIter_redraws (s : State) (d : Nat) : (s.beginIter d).redraws = s.redraws := rfl
@[simp] theorem State.beginIter_params (s : State) (d : Nat) : (s.beginIter d).params = s.params := rfl
@[simp] theorem State.beginIter_commands (s : State) (d : Nat) : (s.beginIter d).commands = s.commands := rfl
@[simp] theorem State.beginIter_script (s : State) (d : Nat) : (s.beginIter d).script = s.script := rfl
@[simp] theorem State.beginIter_drawn (s : State) (d : Nat) : (s.beginIter d).drawn = s.drawn := rfl
@[simp] theorem State.beginIter_hostInputs (s : State) (d : Nat) :
    (s.beginIter d).hostInputs = s.hostInputs := rfl
@[simp] theorem State.beginIter_hostDrawn (s : State) (d : Nat) : (s.beginIter d).hostDrawn = s.hostDrawn := rfl
@[simp] theorem State.beginIter_loadPath (s : State) (d : Nat) : (s.beginIter d).loadPath = s.loadPath := rfl
@[simp] theorem State.beginIter_result (s : State) (d : Nat) : (s.beginIter d).result = s.result := rfl

/-! ### `applyCeiling` -/

@[simp] theorem State.applyCeiling_mem (s : State) : (s.applyCeiling).mem = s.mem := by
  unfold State.applyCeiling
  split
  · split <;> rfl
  · rfl
@[simp] theorem State.applyCeiling_rdMap (s : State) : (s.applyCeiling).rdMap = s.rdMap := by
  unfold State.applyCeiling
  split
  · split <;> rfl
  · rfl
@[simp] theorem State.applyCeiling_wrMap (s : State) : (s.applyCeiling).wrMap = s.wrMap := by
  unfold State.applyCeiling
  split
  · split <;> rfl
  · rfl
@[simp] theorem State.applyCeiling_phase (s : State) : (s.applyCeiling).phase = s.phase := by
  unfold State.applyCeiling
  split
  · split <;> rfl
  · rfl
@[simp] theorem State.applyCeiling_sched (s : State) : (s.applyCeiling).sched = s.sched := by
  unfold State.applyCeiling
  split
  · split <;> rfl
  · rfl
@[simp] theorem State.applyCeiling_setupError (s : State) : (s.applyCeiling).setupError = s.setupError := by
  unfold State.applyCeiling
  split
  · split <;> rfl
  · rfl
@[simp] theorem State.applyCeiling_fault (s : State) : (s.applyCeiling).fault = s.fault := by
  unfold State.applyCeiling
  split
  · split <;> rfl
  · rfl
@[simp] theorem State.applyCeiling_cartLoaded (s : State) : (s.applyCeiling).cartLoaded = s.cartLoaded := by
  unfold State.applyCeiling
  split
  · split <;> rfl
  · rfl
@[simp] theorem State.applyCeiling_line (s : State) : (s.applyCeiling).line = s.line := by
  unfold State.applyCeiling
  split
  · split <;> rfl
  · rfl
@[simp] theorem State.applyCeiling_dmaStall (s : State) : (s.applyCeiling).dmaStall = s.dmaStall := by
  unfold State.applyCeiling
  split
  · split <;> rfl
  · rfl
@[simp] theorem State.applyCeiling_busy (s : State) : (s.applyCeiling).busy = s.busy := by
  unfold State.applyCeiling
  split
  · split <;> rfl
  · rfl
@[simp] theorem State.applyCeiling_quantaThisIter (s : State) : (s.applyCeiling).quantaThisIter = s.quantaThisIter := by
  unfold State.applyCeiling
  split
  · split <;> rfl
  · rfl
@[simp] theorem State.applyCeiling_events (s : State) : (s.applyCeiling).events = s.events := by
  unfold State.applyCeiling
  split
  · split <;> rfl
  · rfl
@[simp] theorem State.applyCeiling_ppuSteps (s : State) : (s.applyCeiling).ppuSteps = s.ppuSteps := by
  unfold State.applyCeiling
  split
  · split <;> rfl
  · rfl
@[simp] theorem State.applyCeiling_cpuSteps (s : State) : (s.applyCeiling).cpuSteps = s.cpuSteps := by
  unfold State.applyCeiling
  split
  · split <;> rfl
  · rfl
@[simp] theorem State.applyCeiling_stallSlots (s : State) : (s.applyCeiling).stallSlots = s.stallSlots := by
  unfold State.applyCeiling
  split
  · split <;> rfl
  · rfl
@[simp] theorem State.applyCeiling_quanta (s : State) : (s.applyCeiling).quanta = s.quanta := by
  unfold State.applyCeiling
  split
  · split <;> rfl
  · rfl
@[simp] theorem State.applyCeiling_dmaCount (s : State) : (s.applyCeiling).dmaCount = s.dmaCount := by
  unfold State.applyCeiling
  split
  · split <;> rfl
  · rfl
@[simp] theorem State.applyCeiling_redraws (s : State) : (s.applyCeiling).redraws = s.redraws := by
  unfold State.applyCeiling
  split
  · split <;> rfl
  · rfl
@[simp] theorem State.applyCeiling_params (s : State) : (s.applyCeiling).params = s.params := by
  unfold State.applyCeiling
  split
  · split <;> rfl
  · rfl
@[simp] theorem State.applyCeiling_commands (s : State) : (s.applyCeiling).commands = s.commands := by
  unfold State.applyCeiling
  split
  · split <;> rfl
  · rfl
@[simp] theorem State.applyCeiling_script (s : State) : (s.applyCeiling).script = s.script := by
  unfold State.applyCeiling
  split
  · split <;> rfl
  · rfl
@[simp] theorem State.applyCeiling_drawn (s : State) : (s.applyCeiling).drawn = s.drawn := by
  unfold State.applyCeiling
  split
  · split <;> rfl
  · rfl
@[simp] theorem State.applyCeiling_hostInputs (s : State) : (s.applyCeiling).hostInputs = s.hostInputs := by
  unfold State.applyCeiling
  split
  · split <;> rfl
  · rfl
@[simp] theorem State.applyCeiling_hostDrawn (s : State) : (s.applyCeiling).hostDrawn = s.hostDrawn := by
  unfold State.applyCeiling
  split
  · split <;> rfl
  · rfl
@[simp] theorem State.applyCeiling_loadPath (s : State) : (s.applyCeiling).loadPath = s.loadPath := by
  unfold State.applyCeiling
  split
  · split <;> rfl
  · rfl
@[simp] theorem State.applyCeiling_result (s : State) : (s.applyCeiling).result = s.result := by
  unfold State.applyCeiling
  split
  · split <;> rfl
  · rfl

/-! ### `redraw` -/

@[simp] theorem State.redraw_mem (s : State) : (s.redraw).mem = s.mem := rfl
@[simp] theorem State.redraw_rdMap (s : State) : (s.redraw).rdMap = s.rdMap := rfl
@[simp] theorem State.redraw_wrMap (s : State) : (s.redraw).wrMap = s.wrMap := rfl
@[simp] theorem State.redraw_phase (s : State) : (s.redraw).phase = s.phase := rfl
@[simp] theorem State.redraw_sched (s : State) : (s.redraw).sched = s.sched := rfl
@[simp] theorem State.redraw_setupError (s : State) : (s.redraw).setupError = s.setupError := rfl
@[simp] theorem State.redraw_fault (s : State) : (s.redraw).fault = s.fault := rfl
@[simp] theorem State.redraw_cartLoaded (s : State) : (s.redraw).cartLoaded = s.cartLoaded := rfl
@[simp] theorem State.redraw_line (s : State) : (s.redraw).line = s.line := rfl
@[simp] theorem State.redraw_dmaStall (s : State) : (s.redraw).dmaStall = s.dmaStall := rfl
@[simp] theorem State.redraw_budget (s : State) : (s.redraw).budget = s.budget := rfl
@[simp] theorem State.redraw_busy (s : State) : (s.redraw).busy = s.busy := rfl
@[simp] theorem State.redraw_quantaThisIter (s : State) : (s.redraw).quantaThisIter = s.quantaThisIter := rfl
@[simp] theorem State.redraw_events (s : State) : (s.redraw).events = s.events ++ [.redraw] := rfl
@[simp] theorem State.redraw_ppuSteps (s : State) : (s.redraw).ppuSteps = s.ppuSteps := rfl
@[simp] theorem State.redraw_cpuSteps (s : State) : (s.redraw).cpuSteps = s.cpuSteps := rfl
@[simp] theorem State.redraw_stallSlots (s : State) : (s.redraw).stallSlots = s.stallSlots := rfl
@[simp] theorem State.redraw_quanta (s : State) : (s.redraw).quanta = s.quanta := rfl
@[simp] theorem State.redraw_dmaCount (s : State) : (s.redraw).dmaCount = s.dmaCount := rfl
@[simp] theorem State.redraw_redraws (s : State) : (s.redraw).redraws = s.redraws + 1 := rfl
@[simp] theorem State.redraw_params (s : State) : (s.redraw).params = s.params := rfl
@[simp] theorem State.redraw_commands (s : State) : (s.redraw).commands = s.commands := rfl
@[simp] theorem State.redraw_script (s : State) : (s.redraw).script = s.script := rfl
@[simp] theorem State.redraw_drawn (s : State) : (s.redraw).drawn = s.drawn := rfl
@[simp] theorem State.redraw_hostInputs (s : State) : (s.redraw).hostInputs = s.hostInputs := rfl
@[simp] theorem State.redraw_hostDrawn (s : State) : (s.redraw).hostDrawn = s.hostDrawn := rfl
@[simp] theorem State.redraw_loadPath (s : State) : (s.redraw).loadPath = s.loadPath := rfl
@[simp] theorem State.redraw_result (s : State) : (s.redraw).result = s.result := rfl

/-! ### `abortStart` -/

@[simp] theorem State.abortStart_mem (s : State) (e : SetupError) : (s.abortStart e).mem = s.mem := rfl
@[simp] theorem State.abortStart_rdMap (s : State) (e : SetupError) : (s.abortStart e).rdMap = s.rdMap := rfl
@[simp] theorem State.abortStart_wrMap (s : State) (e : SetupError) : (s.abortStart e).wrMap = s.wrMap := rfl
@[simp] theorem State.abortStart_phase (s : State) (e : SetupError) : (s.abortStart e).phase = s.phase := rfl
@[simp] theorem State.abortStart_sched (s : State) (e : SetupError) : (s.abortStart e).sched = .stopped := rfl
@[simp] theorem State.abortStart_setupError (s : State) (e : SetupError) : (s.abortStart e).setupError = some e := rfl
@[simp] theorem State.abortStart_fault (s : State) (e : SetupError) : (s.abortStart e).fault = s.fault := rfl
@[simp] theorem State.abortStart_cartLoaded (s : State) (e : SetupError) :
    (s.abortStart e).cartLoaded = s.cartLoaded := rfl
@[simp] theorem State.abortStart_line (s : State) (e : SetupError) : (s.abortStart e).line = s.line := rfl
@[simp] theorem State.abortStart_dmaStall (s : State) (e : SetupError) : (s.abortStart e).dmaStall = s.dmaStall := rfl
@[simp] theorem State.abortStart_budget (s : State) (e : SetupError) : (s.abortStart e).budget = s.budget := rfl
@[simp] theorem State.abortStart_busy (s : State) (e : SetupError) : (s.abortStart e).busy = s.busy := rfl
@[simp] theorem State.abortStart_quantaThisIter (s : State) (e : SetupError) :
    (s.abortStart e).quantaThisIter = s.quantaThisIter := rfl
@[simp] theorem State.abortStart_events (s : State) (e : SetupError) : (s.abortStart e).events = s.events := rfl
@[simp] theorem State.abortStart_ppuSteps (s : State) (e : SetupError) : (s.abortStart e).ppuSteps = s.ppuSteps := rfl
@[simp] theorem State.abortStart_cpuSteps (s : State) (e : SetupError) : (s.abortStart e).cpuSteps = s.cpuSteps := rfl
@[simp] theorem State.abortStart_stallSlots (s : State) (e : SetupError) :
    (s.abortStart e).stallSlots = s.stallSlots := rfl
@[simp] theorem State.abortStart_quanta (s : State) (e : SetupError) : (s.abortStart e).quanta = s.quanta := rfl
@[simp] theorem State.abortStart_dmaCount (s : State) (e : SetupError) : (s.abortStart e).dmaCount = s.dmaCount := rfl
@[simp] theorem State.abortStart_redraws (s : State) (e : SetupError) : (s.abortStart e).redraws = s.redraws := rfl
@[simp] theorem State.abortStart_params (s : State) (e : SetupError) : (s.abortStart e).params = s.params := rfl
@[simp] theorem State.abortStart_commands (s : State) (e : SetupError) : (s.abortStart e).commands = s.commands := rfl
@[simp] theorem State.abortStart_script (s : State) (e : SetupError) : (s.abortStart e).script = s.script := rfl
@[simp] theorem State.abortStart_drawn (s : State) (e : SetupError) : (s.abortStart e).drawn = s.drawn := rfl
@[simp] theorem State.abortStart_hostInputs (s : State) (e : SetupError) :
    (s.abortStart e).hostInputs = s.hostInputs := rfl
@[simp] theorem State.abortStart_hostDrawn (s : State) (e : SetupError) :
    (s.abortStart e).hostDrawn = s.hostDrawn := rfl
@[simp] theorem State.abortStart_loadPath (s : State) (e : SetupError) :
    (s.abortStart e).loadPath = s.loadPath := rfl
@[simp] theorem State.abortStart_result (s : State) (e : SetupError) : (s.abortStart e).result = s.result := rfl

/-! ### `ended` -/

@[simp] theorem State.ended_mem (s : State) (r : Option Result) : (s.ended r).mem = s.mem := rfl
@[simp] theorem State.ended_rdMap (s : State) (r : Option Result) : (s.ended r).rdMap = s.rdMap := rfl
@[simp] theorem State.ended_wrMap (s : State) (r : Option Result) : (s.ended r).wrMap = s.wrMap := rfl
@[simp] theorem State.ended_phase (s : State) (r : Option Result) : (s.ended r).phase = .outside := rfl
@[simp] theorem State.ended_sched (s : State) (r : Option Result) : (s.ended r).sched = s.sched := rfl
@[simp] theorem State.ended_setupError (s : State) (r : Option Result) : (s.ended r).setupError = s.setupError := rfl
@[simp] theorem State.ended_fault (s : State) (r : Option Result) : (s.ended r).fault = s.fault := rfl
@[simp] theorem State.ended_cartLoaded (s : State) (r : Option Result) : (s.ended r).cartLoaded = s.cartLoaded := rfl
@[simp] theorem State.ended_line (s : State) (r : Option Result) : (s.ended r).line = s.line := rfl
@[simp] theorem State.ended_dmaStall (s : State) (r : Option Result) : (s.ended r).dmaStall = s.dmaStall := rfl
@[simp] theorem State.ended_budget (s : State) (r : Option Result) : (s.ended r).budget = s.budget := rfl
@[simp] theorem State.ended_busy (s : State) (r : Option Result) : (s.ended r).busy = s.busy := rfl
@[simp] theorem State.ended_quantaThisIter (s : State) (r : Option Result) :
    (s.ended r).quantaThisIter = s.quantaThisIter := rfl
@[simp] theorem State.ended_events (s : State) (r : Option Result) : (s.ended r).events = s.events := rfl
@[simp] theorem State.ended_ppuSteps (s : State) (r : Option Result) : (s.ended r).ppuSteps = s.ppuSteps := rfl
@[simp] theorem State.ended_cpuSteps (s : State) (r : Option Result) : (s.ended r).cpuSteps = s.cpuSteps := rfl
@[simp] theorem State.ended_stallSlots (s : State) (r : Option Result) : (s.ended r).stallSlots = s.stallSlots := rfl
@[simp] theorem State.ended_quanta (s : State) (r : Option Result) : (s.ended r).quanta = s.quanta := rfl
@[simp] theorem State.ended_dmaCount (s : State) (r : Option Result) : (s.ended r).dmaCount = s.dmaCount := rfl
@[simp] theorem State.ended_redraws (s : State) (r : Option Result) : (s.ended r).redraws = s.redraws := rfl
@[simp] theorem State.ended_params (s : State) (r : Option Result) : (s.ended r).params = s.params := rfl
@[simp] theorem State.ended_commands (s : State) (r : Option Result) : (s.ended r).commands = s.commands := rfl
@[simp] theorem State.ended_script (s : State) (r : Option Result) : (s.ended r).script = s.script := rfl
@[simp] theorem State.ended_drawn (s : State) (r : Option Result) : (s.ended r).drawn = s.drawn := rfl
@[simp] theorem State.ended_hostInputs (s : State) (r : Option Result) : (s.ended r).hostInputs = s.hostInputs := rfl
@[simp] theorem State.ended_hostDrawn (s : State) (r : Option Result) : (s.ended r).hostDrawn = s.hostDrawn := rfl
@[simp] theorem State.ended_loadPath (s : State) (r : Option Result) : (s.ended r).loadPath = s.loadPath := rfl
@[simp] theorem State.ended_result (s : State) (r : Option Result) : (s.ended r).result = r := rfl

/-! ### `loaded` -/

@[simp] theorem State.loaded_mem (s : State) : (s.loaded).mem = s.mem := rfl
@[simp] theorem State.loaded_rdMap (s : State) : (s.loaded).rdMap = s.rdMap := rfl
@[simp] theorem State.loaded_wrMap (s : State) : (s.loaded).wrMap = s.wrMap := rfl
@[simp] theorem State.loaded_phase (s : State) : (s.loaded).phase = s.phase := rfl
@[simp] theorem State.loaded_sched (s : State) : (s.loaded).sched = s.sched := rfl
@[simp] theorem State.loaded_setupError (s : State) : (s.loaded).setupError = s.setupError := rfl
@[simp] theorem State.loaded_fault (s : State) : (s.loaded).fault = s.fault := rfl
@[simp] theorem State.loaded_cartLoaded (s : State) : (s.loaded).cartLoaded = true := rfl
@[simp] theorem State.loaded_line (s : State) : (s.loaded).line = s.line := rfl
@[simp] theorem State.loaded_dmaStall (s : State) : (s.loaded).dmaStall = s.dmaStall := rfl
@[simp] theorem State.loaded_budget (s : State) : (s.loaded).budget = s.budget := rfl
@[simp] theorem State.loaded_busy (s : State) : (s.loaded).busy = s.busy := rfl
@[simp] theorem State.loaded_quantaThisIter (s : State) : (s.loaded).quantaThisIter = s.quantaThisIter := rfl
@[simp] theorem State.loaded_events (s : State) : (s.loaded).events = s.events := rfl
@[simp] theorem State.loaded_ppuSteps (s : State) : (s.loaded).ppuSteps = s.ppuSteps := rfl
@[simp] theorem State.loaded_cpuSteps (s : State) : (s.loaded).cpuSteps = s.cpuSteps := rfl
@[simp] theorem State.loaded_stallSlots (s : State) : (s.loaded).stallSlots = s.stallSlots := rfl
@[simp] theorem State.loaded_quanta (s : State) : (s.loaded).quanta = s.quanta := rfl
@[simp] theorem State.loaded_dmaCount (s : State) : (s.loaded).dmaCount = s.dmaCount := rfl
@[simp] theorem State.loaded_redraws (s : State) : (s.loaded).redraws = s.redraws := rfl
@[simp] theorem State.loaded_params (s : State) : (s.loaded).params = s.params := rfl
@[simp] theorem State.loaded_commands (s : State) : (s.loaded).commands = s.commands := rfl
@[simp] theorem State.loaded_script (s : State) : (s.loaded).script = s.script := rfl
@[simp] theorem State.loaded_drawn (s : State) : (s.loaded).drawn = s.drawn := rfl
@[simp] theorem State.loaded_hostInputs (s : State) : (s.loaded).hostInputs = s.hostInputs := rfl
@[simp] theorem State.loaded_hostDrawn (s : State) : (s.loaded).hostDrawn = s.hostDrawn := rfl
@[simp] theorem State.loaded_loadPath (s : State) : (s.loaded).loadPath = s.loadPath := rfl
@[simp] theorem State.loaded_result (s : State) : (s.loaded).result = s.result := rfl

/-! ### `addStall` -/

@[simp] theorem State.addStall_mem (s : State) : (s.addStall).mem = s.mem := rfl
@[simp] theorem State.addStall_rdMap (s : State) : (s.addStall).rdMap = s.rdMap := rfl
@[simp] theorem State.addStall_wrMap (s : State) : (s.addStall).wrMap = s.wrMap := rfl
@[simp] theorem State.addStall_phase (s : State) : (s.addStall).phase = s.phase := rfl
@[simp] theorem State.addStall_sched (s : State) : (s.addStall).sched = s.sched := rfl
@[simp] theorem State.addStall_setupError (s : State) : (s.addStall).setupError = s.setupError := rfl
@[simp] theorem State.addStall_fault (s : State) : (s.addStall).fault = s.fault := rfl
@[simp] theorem State.addStall_cartLoaded (s : State) : (s.addStall).cartLoaded = s.cartLoaded := rfl
@[simp] theorem State.addStall_line (s : State) : (s.addStall).line = s.line := rfl
@[simp] theorem State.addStall_dmaStall (s : State) :
    (s.addStall).dmaStall = s.dmaStall + s.params.dmaStallCycles := rfl
@[simp] theorem State.addStall_budget (s : State) : (s.addStall).budget = s.budget := rfl
@[simp] theorem State.addStall_busy (s : State) : (s.addStall).busy = s.busy := rfl
@[simp] theorem State.addStall_quantaThisIter (s : State) : (s.addStall).quantaThisIter = s.quantaThisIter := rfl
@[simp] theorem State.addStall_events (s : State) : (s.addStall).events = s.events := rfl
@[simp] theorem State.addStall_ppuSteps (s : State) : (s.addStall).ppuSteps = s.ppuSteps := rfl
@[simp] theorem State.addStall_cpuSteps (s : State) : (s.addStall).cpuSteps = s.cpuSteps := rfl
@[simp] theorem State.addStall_stallSlots (s : State) : (s.addStall).stallSlots = s.stallSlots := rfl
@[simp] theorem State.addStall_quanta (s : State) : (s.addStall).quanta = s.quanta := rfl
@[simp] theorem State.addStall_dmaCount (s : State) : (s.addStall).dmaCount = s.dmaCount + 1 := rfl
@[simp] theorem State.addStall_redraws (s : State) : (s.addStall).redraws = s.redraws := rfl
@[simp] theorem State.addStall_params (s : State) : (s.addStall).params = s.params := rfl
@[simp] theorem State.addStall_commands (s : State) : (s.addStall).commands = s.commands := rfl
@[simp] theorem State.addStall_script (s : State) : (s.addStall).script = s.script := rfl
@[simp] theorem State.addStall_drawn (s : State) : (s.addStall).drawn = s.drawn := rfl
@[simp] theorem State.addStall_hostInputs (s : State) : (s.addStall).hostInputs = s.hostInputs := rfl
@[simp] theorem State.addStall_hostDrawn (s : State) : (s.addStall).hostDrawn = s.hostDrawn := rfl
@[simp] theorem State.addStall_loadPath (s : State) : (s.addStall).loadPath = s.loadPath := rfl
@[simp] theorem State.addStall_result (s : State) : (s.addStall).result = s.result := rfl

/-! ### `countPpuStep` -/

@[simp] theorem State.countPpuStep_mem (s : State) : (s.countPpuStep).mem = s.mem := rfl
@[simp] theorem State.countPpuStep_rdMap (s : State) : (s.countPpuStep).rdMap = s.rdMap := rfl
@[simp] theorem State.countPpuStep_wrMap (s : State) : (s.countPpuStep).wrMap = s.wrMap := rfl
@[simp] theorem State.countPpuStep_phase (s : State) : (s.countPpuStep).phase = s.phase := rfl
@[simp] theorem State.countPpuStep_sched (s : State) : (s.countPpuStep).sched = s.sched := rfl
@[simp] theorem State.countPpuStep_setupError (s : State) : (s.countPpuStep).setupError = s.setupError := rfl
@[simp] theorem State.countPpuStep_fault (s : State) : (s.countPpuStep).fault = s.fault := rfl
@[simp] theorem State.countPpuStep_cartLoaded (s : State) : (s.countPpuStep).cartLoaded = s.cartLoaded := rfl
@[simp] theorem State.countPpuStep_line (s : State) : (s.countPpuStep).line = s.line := rfl
@[simp] theorem State.countPpuStep_dmaStall (s : State) : (s.countPpuStep).dmaStall = s.dmaStall := rfl
@[simp] theorem State.countPpuStep_budget (s : State) : (s.countPpuStep).budget = s.budget := rfl
@[simp] theorem State.countPpuStep_busy (s : State) : (s.countPpuStep).busy = s.busy := rfl
@[simp] theorem State.countPpuStep_quantaThisIter (s : State) :
    (s.countPpuStep).quantaThisIter = s.quantaThisIter := rfl
@[simp] theorem State.countPpuStep_events (s : State) : (s.countPpuStep).events = s.events := rfl
@[simp] theorem State.countPpuStep_ppuSteps (s : State) : (s.countPpuStep).ppuSteps = s.ppuSteps + 1 := rfl
@[simp] theorem State.countPpuStep_cpuSteps (s : State) : (s.countPpuStep).cpuSteps = s.cpuSteps := rfl
@[simp] theorem State.countPpuStep_stallSlots (s : State) : (s.countPpuStep).stallSlots = s.stallSlots := rfl
@[simp] theorem State.countPpuStep_quanta (s : State) : (s.countPpuStep).quanta = s.quanta := rfl
@[simp] theorem State.countPpuStep_dmaCount (s : State) : (s.countPpuStep).dmaCount = s.dmaCount := rfl
@[simp] theorem State.countPpuStep_redraws (s : State) : (s.countPpuStep).redraws = s.redraws := rfl
@[simp] theorem State.countPpuStep_params (s : State) : (s.countPpuStep).params = s.params := rfl
@[simp] theorem State.countPpuStep_commands (s : State) : (s.countPpuStep).commands = s.commands := rfl
@[simp] theorem State.countPpuStep_script (s : State) : (s.countPpuStep).script = s.script := rfl
@[simp] theorem State.countPpuStep_drawn (s : State) : (s.countPpuStep).drawn = s.drawn := rfl
@[simp] theorem State.countPpuStep_hostInputs (s : State) : (s.countPpuStep).hostInputs = s.hostInputs := rfl
@[simp] theorem State.countPpuStep_hostDrawn (s : State) : (s.countPpuStep).hostDrawn = s.hostDrawn := rfl
@[simp] theorem State.countPpuStep_loadPath (s : State) : (s.countPpuStep).loadPath = s.loadPath := rfl
@[simp] theorem State.countPpuStep_result (s : State) : (s.countPpuStep).result = s.result := rfl

/-! ### `countCpuStep` -/

@[simp] theorem State.countCpuStep_mem (s : State) : (s.countCpuStep).mem = s.mem := rfl
@[simp] theorem State.countCpuStep_rdMap (s : State) : (s.countCpuStep).rdMap = s.rdMap := rfl
@[simp] theorem State.countCpuStep_wrMap (s : State) : (s.countCpuStep).wrMap = s.wrMap := rfl
@[simp] theorem State.countCpuStep_phase (s : State) : (s.countCpuStep).phase = s.phase := rfl
@[simp] theorem State.countCpuStep_sched (s : State) : (s.countCpuStep).sched = s.sched := rfl
@[simp] theorem State.countCpuStep_setupError (s : State) : (s.countCpuStep).setupError = s.setupError := rfl
@[simp] theorem State.countCpuStep_fault (s : State) : (s.countCpuStep).fault = s.fault := rfl
@[simp] theorem State.countCpuStep_cartLoaded (s : State) : (s.countCpuStep).cartLoaded = s.cartLoaded := rfl
@[simp] theorem State.countCpuStep_line (s : State) : (s.countCpuStep).line = s.line := rfl
@[simp] theorem State.countCpuStep_dmaStall (s : State) : (s.countCpuStep).dmaStall = s.dmaStall := rfl
@[simp] theorem State.countCpuStep_budget (s : State) : (s.countCpuStep).budget = s.budget := rfl
@[simp] theorem State.countCpuStep_busy (s : State) : (s.countCpuStep).busy = s.busy := rfl
@[simp] theorem State.countCpuStep_quantaThisIter (s : State) :
    (s.countCpuStep).quantaThisIter = s.quantaThisIter := rfl
@[simp] theorem State.countCpuStep_events (s : State) : (s.countCpuStep).events = s.events := rfl
@[simp] theorem State.countCpuStep_ppuSteps (s : State) : (s.countCpuStep).ppuSteps = s.ppuSteps := rfl
@[simp] theorem State.countCpuStep_cpuSteps (s : State) : (s.countCpuStep).cpuSteps = s.cpuSteps + 1 := rfl
@[simp] theorem State.countCpuStep_stallSlots (s : State) : (s.countCpuStep).stallSlots = s.stallSlots := rfl
@[simp] theorem State.countCpuStep_quanta (s : State) : (s.countCpuStep).quanta = s.quanta := rfl
@[simp] theorem State.countCpuStep_dmaCount (s : State) : (s.countCpuStep).dmaCount = s.dmaCount := rfl
@[simp] theorem State.countCpuStep_redraws (s : State) : (s.countCpuStep).redraws = s.redraws := rfl
@[simp] theorem State.countCpuStep_params (s : State) : (s.countCpuStep).params = s.params := rfl
@[simp] theorem State.countCpuStep_commands (s : State) : (s.countCpuStep).commands = s.commands := rfl
@[simp] theorem State.countCpuStep_script (s : State) : (s.countCpuStep).script = s.script := rfl
@[simp] theorem State.countCpuStep_drawn (s : State) : (s.countCpuStep).drawn = s.drawn := rfl
@[simp] theorem State.countCpuStep_hostInputs (s : State) : (s.countCpuStep).hostInputs = s.hostInputs := rfl
@[simp] theorem State.countCpuStep_hostDrawn (s : State) : (s.countCpuStep).hostDrawn = s.hostDrawn := rfl
@[simp] theorem State.countCpuStep_loadPath (s : State) : (s.countCpuStep).loadPath = s.loadPath := rfl
@[simp] theorem State.countCpuStep_result (s : State) : (s.countCpuStep).result = s.result := rfl

/-! ### `countQuantum` -/

@[simp] theorem State.countQuantum_mem (s : State) : (s.countQuantum).mem = s.mem := rfl
@[simp] theorem State.countQuantum_rdMap (s : State) : (s.countQuantum).rdMap = s.rdMap := rfl
@[simp] theorem State.countQuantum_wrMap (s : State) : (s.countQuantum).wrMap = s.wrMap := rfl
@[simp] theorem State.countQuantum_phase (s : State) : (s.countQuantum).phase = s.phase := rfl
@[simp] theorem State.countQuantum_sched (s : State) : (s.countQuantum).sched = s.sched := rfl
@[simp] theorem State.countQuantum_setupError (s : State) : (s.countQuantum).setupError = s.setupError := rfl
@[simp] theorem State.countQuantum_fault (s : State) : (s.countQuantum).fault = s.fault := rfl
@[simp] theorem State.countQuantum_cartLoaded (s : State) : (s.countQuantum).cartLoaded = s.cartLoaded := rfl
@[simp] theorem State.countQuantum_line (s : State) : (s.countQuantum).line = s.line := rfl
@[simp] theorem State.countQuantum_dmaStall (s : State) : (s.countQuantum).dmaStall = s.dmaStall := rfl
@[simp] theorem State.countQuantum_budget (s : State) : (s.countQuantum).budget = s.budget := rfl
@[simp] theorem State.countQuantum_busy (s : State) : (s.countQuantum).busy = s.busy := rfl
@[simp] theorem State.countQuantum_quantaThisIter (s : State) :
    (s.countQuantum).quantaThisIter = s.quantaThisIter := rfl
@[simp] theorem State.countQuantum_events (s : State) : (s.countQuantum).events = s.events := rfl
@[simp] theorem State.countQuantum_ppuSteps (s : State) : (s.countQuantum).ppuSteps = s.ppuSteps := rfl
@[simp] theorem State.countQuantum_cpuSteps (s : State) : (s.countQuantum).cpuSteps = s.cpuSteps := rfl
@[simp] theorem State.countQuantum_stallSlots (s : State) : (s.countQuantum).stallSlots = s.stallSlots := rfl
@[simp] theorem State.countQuantum_quanta (s : State) : (s.countQuantum).quanta = s.quanta + 1 := rfl
@[simp] theorem State.countQuantum_dmaCount (s : State) : (s.countQuantum).dmaCount = s.dmaCount := rfl
@[simp] theorem State.countQuantum_redraws (s : State) : (s.countQuantum).redraws = s.redraws := rfl
@[simp] theorem State.countQuantum_params (s : State) : (s.countQuantum).params = s.params := rfl
@[simp] theorem State.countQuantum_commands (s : State) : (s.countQuantum).commands = s.commands := rfl
@[simp] theorem State.countQuantum_script (s : State) : (s.countQuantum).script = s.script := rfl
@[simp] theorem State.countQuantum_drawn (s : State) : (s.countQuantum).drawn = s.drawn := rfl
@[simp] theorem State.countQuantum_hostInputs (s : State) : (s.countQuantum).hostInputs = s.hostInputs := rfl
@[simp] theorem State.countQuantum_hostDrawn (s : State) : (s.countQuantum).hostDrawn = s.hostDrawn := rfl
@[simp] theorem State.countQuantum_loadPath (s : State) : (s.countQuantum).loadPath = s.loadPath := rfl
@[simp] theorem State.countQuantum_result (s : State) : (s.countQuantum).result = s.result := rfl

/-! ### `stallSlot` -/

@[simp] theorem State.stallSlot_mem (s : State) : (s.stallSlot).mem = s.mem := rfl
@[simp] theorem State.stallSlot_rdMap (s : State) : (s.stallSlot).rdMap = s.rdMap := rfl
@[simp] theorem State.stallSlot_wrMap (s : State) : (s.stallSlot).wrMap = s.wrMap := rfl
@[simp] theorem State.stallSlot_phase (s : State) : (s.stallSlot).phase = s.phase := rfl
@[simp] theorem State.stallSlot_sched (s : State) : (s.stallSlot).sched = s.sched := rfl
@[simp] theorem State.stallSlot_setupError (s : State) : (s.stallSlot).setupError = s.setupError := rfl
@[simp] theorem State.stallSlot_fault (s : State) : (s.stallSlot).fault = s.fault := rfl
@[simp] theorem State.stallSlot_cartLoaded (s : State) : (s.stallSlot).cartLoaded = s.cartLoaded := rfl
@[simp] theorem State.stallSlot_line (s : State) : (s.stallSlot).line = s.line := rfl
@[simp] theorem State.stallSlot_dmaStall (s : State) : (s.stallSlot).dmaStall = s.dmaStall - 1 := rfl
@[simp] theorem State.stallSlot_budget (s : State) : (s.stallSlot).budget = s.budget := rfl
@[simp] theorem State.stallSlot_busy (s : State) : (s.stallSlot).busy = s.busy := rfl
@[simp] theorem State.stallSlot_quantaThisIter (s : State) : (s.stallSlot).quantaThisIter = s.quantaThisIter := rfl
@[simp] theorem State.stallSlot_events (s : State) : (s.stallSlot).events = s.events := rfl
@[simp] theorem State.stallSlot_ppuSteps (s : State) : (s.stallSlot).ppuSteps = s.ppuSteps := rfl
@[simp] theorem State.stallSlot_cpuSteps (s : State) : (s.stallSlot).cpuSteps = s.cpuSteps := rfl
@[simp] theorem State.stallSlot_stallSlots (s : State) : (s.stallSlot).stallSlots = s.stallSlots + 1 := rfl
@[simp] theorem State.stallSlot_quanta (s : State) : (s.stallSlot).quanta = s.quanta := rfl
@[simp] theorem State.stallSlot_dmaCount (s : State) : (s.stallSlot).dmaCount = s.dmaCount := rfl
@[simp] theorem State.stallSlot_redraws (s : State) : (s.stallSlot).redraws = s.redraws := rfl
@[simp] theorem State.stallSlot_params (s : State) : (s.stallSlot).params = s.params := rfl
@[simp] theorem State.stallSlot_commands (s : State) : (s.stallSlot).commands = s.commands := rfl
@[simp] theorem State.stallSlot_script (s : State) : (s.stallSlot).script = s.script := rfl
@[simp] theorem State.stallSlot_drawn (s : State) : (s.stallSlot).drawn = s.drawn := rfl
@[simp] theorem State.stallSlot_hostInputs (s : State) : (s.stallSlot).hostInputs = s.hostInputs := rfl
@[simp] theorem State.stallSlot_hostDrawn (s : State) : (s.stallSlot).hostDrawn = s.hostDrawn := rfl
@[simp] theorem State.stallSlot_loadPath (s : State) : (s.stallSlot).loadPath = s.loadPath := rfl
@[simp] theorem State.stallSlot_result (s : State) : (s.stallSlot).result = s.result := rfl

/-! ### `charged` -/

@[simp] theorem State.charged_mem (s : State) : (s.charged).mem = s.mem := rfl
@[simp] theorem State.charged_rdMap (s : State) : (s.charged).rdMap = s.rdMap := rfl
@[simp] theorem State.charged_wrMap (s : State) : (s.charged).wrMap = s.wrMap := rfl
@[simp] theorem State.charged_phase (s : State) : (s.charged).phase = s.phase := rfl
@[simp] theorem State.charged_sched (s : State) : (s.charged).sched = s.sched := rfl
@[simp] theorem State.charged_setupError (s : State) : (s.charged).setupError = s.setupError := rfl
@[simp] theorem State.charged_fault (s : State) : (s.charged).fault = s.fault := rfl
@[simp] theorem State.charged_cartLoaded (s : State) : (s.charged).cartLoaded = s.cartLoaded := rfl
@[simp] theorem State.charged_line (s : State) : (s.charged).line = s.line := rfl
@[simp] theorem State.charged_dmaStall (s : State) : (s.charged).dmaStall = s.dmaStall := rfl
@[simp] theorem State.charged_budget (s : State) : (s.charged).budget = s.budget - s.params.quantumNs := rfl
@[simp] theorem State.charged_busy (s : State) : (s.charged).busy = s.busy := rfl
@[simp] theorem State.charged_quantaThisIter (s : State) : (s.charged).quantaThisIter = s.quantaThisIter + 1 := rfl
@[simp] theorem State.charged_events (s : State) : (s.charged).events = s.events := rfl
@[simp] theorem State.charged_ppuSteps (s : State) : (s.charged).ppuSteps = s.ppuSteps := rfl
@[simp] theorem State.charged_cpuSteps (s : State) : (s.charged).cpuSteps = s.cpuSteps := rfl
@[simp] theorem State.charged_stallSlots (s : State) : (s.charged).stallSlots = s.stallSlots := rfl
@[simp] theorem State.charged_quanta (s : State) : (s.charged).quanta = s.quanta := rfl
@[simp] theorem State.charged_dmaCount (s : State) : (s.charged).dmaCount = s.dmaCount := rfl
@[simp] theorem State.charged_redraws (s : State) : (s.charged).redraws = s.redraws := rfl
@[simp] theorem State.charged_params (s : State) : (s.charged).params = s.params := rfl
@[simp] theorem State.charged_commands (s : State) : (s.charged).commands = s.commands := rfl
@[simp] theorem State.charged_script (s : State) : (s.charged).script = s.script := rfl
@[simp] theorem State.charged_drawn (s : State) : (s.charged).drawn = s.drawn := rfl
@[simp] theorem State.charged_hostInputs (s : State) : (s.charged).hostInputs = s.hostInputs := rfl
@[simp] theorem State.charged_hostDrawn (s : State) : (s.charged).hostDrawn = s.hostDrawn := rfl
@[simp] theorem State.charged_loadPath (s : State) : (s.charged).loadPath = s.loadPath := rfl
@[simp] theorem State.charged_result (s : State) : (s.charged).result = s.result := rfl

/-! ### `running` -/

@[simp] theorem State.running_mem (s : State) : (s.running).mem = s.mem := rfl
@[simp] theorem State.running_rdMap (s : State) : (s.running).rdMap = s.rdMap := rfl
@[simp] theorem State.running_wrMap (s : State) : (s.running).wrMap = s.wrMap := rfl
@[simp] theorem State.running_phase (s : State) : (s.running).phase = s.phase := rfl
@[simp] theorem State.running_sched (s : State) : (s.running).sched = .running := rfl
@[simp] theorem State.running_setupError (s : State) : (s.running).setupError = s.setupError := rfl
@[simp] theorem State.running_fault (s : State) : (s.running).fault = s.fault := rfl
@[simp] theorem State.running_cartLoaded (s : State) : (s.running).cartLoaded = s.cartLoaded := rfl
@[simp] theorem State.running_line (s : State) : (s.running).line = none := rfl
@[simp] theorem State.running_dmaStall (s : State) : (s.running).dmaStall = 0 := rfl
@[simp] theorem State.running_budget (s : State) : (s.running).budget = 0 := rfl
@[simp] theorem State.running_busy (s : State) : (s.running).busy = { cpu := false, ppu := false } := rfl
@[simp] theorem State.running_quantaThisIter (s : State) : (s.running).quantaThisIter = s.quantaThisIter := rfl
@[simp] theorem State.running_events (s : State) : (s.running).events = s.events := rfl
@[simp] theorem State.running_ppuSteps (s : State) : (s.running).ppuSteps = s.ppuSteps := rfl
@[simp] theorem State.running_cpuSteps (s : State) : (s.running).cpuSteps = s.cpuSteps := rfl
@[simp] theorem State.running_stallSlots (s : State) : (s.running).stallSlots = s.stallSlots := rfl
@[simp] theorem State.running_quanta (s : State) : (s.running).quanta = s.quanta := rfl
@[simp] theorem State.running_dmaCount (s : State) : (s.running).dmaCount = s.dmaCount := rfl
@[simp] theorem State.running_redraws (s : State) : (s.running).redraws = s.redraws := rfl
@[simp] theorem State.running_params (s : State) : (s.running).params = s.params := rfl
@[simp] theorem State.running_commands (s : State) : (s.running).commands = s.commands := rfl
@[simp] theorem State.running_script (s : State) : (s.running).script = s.script := rfl
@[simp] theorem State.running_drawn (s : State) : (s.running).drawn = s.drawn := rfl
@[simp] theorem State.running_hostInputs (s : State) : (s.running).hostInputs = s.hostInputs := rfl
@[simp] theorem State.running_hostDrawn (s : State) : (s.running).hostDrawn = s.hostDrawn := rfl
@[simp] theorem State.running_loadPath (s : State) : (s.running).loadPath = s.loadPath := rfl
@[simp] theorem State.running_result (s : State) : (s.running).result = s.result := rfl

/-! ### The values of the updates that look first -/

theorem State.afterDraw_scripted {s : State} {d : Draw} {rest : List Draw} (h : s.script = d :: rest) :
    s.nextDraw = d ∧ s.afterDraw = { s with script := rest } := by
  simp [State.nextDraw, State.afterDraw, h]

theorem State.afterDraw_free {s : State} (h : s.script = []) :
    s.nextDraw = Config.draw s.drawn ∧ s.afterDraw = { s with drawn := s.drawn + 1 } := by
  simp [State.nextDraw, State.afterDraw, h]

@[simp] theorem State.afterHostInput_nextDraw (s : State) : s.afterHostInput.nextDraw = s.nextDraw := by
  simp [State.nextDraw]

theorem State.afterHostInput_scripted {s : State} {x : HostInput} {rest : List HostInput}
    (h : s.hostInputs = x :: rest) : s.hostInput = x ∧ s.afterHostInput = { s with hostInputs := rest } := by
  simp [State.hostInput, State.afterHostInput, h]

@[simp] theorem latchRaise_none (k : Kind) : latchRaise none k = some k := rfl

@[simp] theorem latchRaise_some (j k : Kind) : latchRaise (some j) k = some j := rfl

/-! ### `PerSpace` -/

@[simp] theorem perSpace_get_set_self {α : Type} (x : PerSpace α) (sp : Space) (v : α) :
    (x.set sp v).get sp = v := by cases sp <;> rfl

theorem perSpace_get_set {α : Type} (x : PerSpace α) (sp sp' : Space) (v : α) :
    (x.set sp v).get sp' = if sp' = sp then v else x.get sp' := by
  cases sp <;> cases sp' <;> rfl

@[simp] theorem perSpace_set_set {α : Type} (x : PerSpace α) (sp : Space) (v w : α) :
    (x.set sp v).set sp w = x.set sp w := by cases sp <;> rfl

@[simp] theorem perSpace_set_get {α : Type} (x : PerSpace α) (sp : Space) : x.set sp (x.get sp) = x := by
  cases sp <;> rfl

end Sys2Proof.Machine
end

