-- ==== Sys2Proof/Laws/Cells.lean ====
section
/-! SUPPORT. Lists of keyed values: what a lookup finds after an insertion or an erasure, that both keep the keys
rising, and from that the laws of the backing arrays (R22) and the interceptor maps (R23, R24). -/

namespace Sys2Proof.Machine

variable {β : Type}

/-! ### Lookup -/

theorem cellFind_insert (k j : Nat) (v : β) (l : List (Nat × β)) :
    cellFind j (cellInsert k v l) = if j = k then some v else cellFind j l := by
  induction l with
  | nil => simp [cellInsert, cellFind]
  | cons c rest ih =>
    obtain ⟨i, w⟩ := c
    simp only [cellInsert]
    split
    · simp [cellFind]
    · split
      · subst i
        simp only [cellFind]
        split <;> rfl
      · simp only [cellFind, ih]
        grind

theorem cellFind_eq_none {j : Nat} {l : List (Nat × β)} (h : ∀ c ∈ l, c.1 ≠ j) : cellFind j l = none := by
  induction l with
  | nil => rfl
  | cons c rest ih =>
    obtain ⟨i, w⟩ := c
    have hi : i ≠ j := h (i, w) (by simp)
    simp only [cellFind, if_neg hi.symm]
    exact ih fun c hc => h c (by simp [hc])

theorem cellFind_erase (k j : Nat) {l : List (Nat × β)} (h : cellsRise l) :
    cellFind j (cellErase k l) = if j = k then none else cellFind j l := by
  induction l with
  | nil => simp [cellErase, cellFind]
  | cons c rest ih =>
    obtain ⟨i, w⟩ := c
    obtain ⟨h1, h2⟩ := List.pairwise_cons.mp h
    simp only [cellErase]
    split
    · subst i
      split
      · subst j
        exact cellFind_eq_none fun c hc => Nat.ne_of_gt (h1 c hc)
      · rename_i hj
        simp [cellFind, hj]
    · simp only [cellFind, ih h2]
      grind

theorem cellFind_mem {j : Nat} {v : β} {l : List (Nat × β)} (h : cellFind j l = some v) : (j, v) ∈ l := by
  induction l with
  | nil => cases h
  | cons c rest ih =>
    obtain ⟨i, w⟩ := c
    simp only [cellFind] at h
    split at h
    · cases h
      subst i
      simp
    · simp [ih h]

/-! ### Canonical form -/

theorem mem_cellInsert {k : Nat} {v : β} {l : List (Nat × β)} {c : Nat × β} (h : c ∈ cellInsert k v l) :
    c = (k, v) ∨ c ∈ l := by
  induction l with
  | nil => simpa [cellInsert] using h
  | cons d rest ih =>
    obtain ⟨i, w⟩ := d
    simp only [cellInsert] at h
    grind

theorem mem_cellErase {k : Nat} {l : List (Nat × β)} {c : Nat × β} (h : c ∈ cellErase k l) : c ∈ l := by
  induction l with
  | nil => cases h
  | cons d rest ih =>
    obtain ⟨i, w⟩ := d
    simp only [cellErase] at h
    grind

theorem cellInsert_rise (k : Nat) (v : β) {l : List (Nat × β)} (h : cellsRise l) : cellsRise (cellInsert k v l) := by
  induction l with
  | nil => simp [cellInsert]
  | cons c rest ih =>
    obtain ⟨i, w⟩ := c
    obtain ⟨h1, h2⟩ := List.pairwise_cons.mp h
    simp only [cellInsert]
    split
    · refine List.pairwise_cons.mpr ⟨fun d hd => ?_, h⟩
      rcases List.mem_cons.mp hd with rfl | hd
      · assumption
      · exact Nat.lt_trans (by assumption) (h1 d hd)
    · split
      · subst i
        exact List.pairwise_cons.mpr ⟨h1, h2⟩
      · refine List.pairwise_cons.mpr ⟨fun d hd => ?_, ih h2⟩
        rcases mem_cellInsert hd with rfl | hd
        · simp only; omega
        · exact h1 d hd

theorem cellErase_rise (k : Nat) {l : List (Nat × β)} (h : cellsRise l) : cellsRise (cellErase k l) := by
  induction l with
  | nil => exact h
  | cons c rest ih =>
    obtain ⟨i, w⟩ := c
    obtain ⟨h1, h2⟩ := List.pairwise_cons.mp h
    simp only [cellErase]
    split
    · exact h2
    · exact List.pairwise_cons.mpr ⟨fun d hd => h1 d (mem_cellErase hd), ih h2⟩

theorem mapWf_insert (a : Addr) (v : β) {l : List (Nat × β)} (h : mapWf l) : mapWf (cellInsert a.toNat v l) :=
  ⟨cellInsert_rise _ _ h.1, fun c hc => by
    rcases mem_cellInsert hc with rfl | hc
    · exact a.isLt
    · exact h.2 c hc⟩

/-- Every write of a byte keeps the canonical form of a backing array. -/
theorem memoryWrite_wf (sp : Space) (a : Addr) (v : Byte) {m : Memory} (h : Memory.wf sp m) :
    Memory.wf sp (memoryWrite sp a v m) := by
  unfold memoryWrite
  split
  · exact ⟨cellErase_rise _ h.1, fun c hc => h.2 c (mem_cellErase hc)⟩
  · refine ⟨cellInsert_rise _ _ h.1, fun c hc => ?_⟩
    rcases mem_cellInsert hc with rfl | hc
    · exact ⟨a.isLt, by simpa using by assumption⟩
    · exact h.2 c hc

/-! ### Backing arrays -/

/-- A byte written is read back, and every other byte of that space stays (R22). -/
theorem raw_rawWrite {s : State} {sp : Space} (h : cellsRise (s.mem.get sp)) (a : Addr) (v : Byte) (sp' : Space)
    (b : Addr) : (s.rawWrite sp a v).raw sp' b = if sp' = sp ∧ b = a then v else s.raw sp' b := by
  unfold State.raw
  simp only [State.rawWrite_mem, perSpace_get_set]
  by_cases hs : sp' = sp
  · subst sp'
    simp only [if_true, true_and, memoryWrite]
    by_cases hb : b = a
    · subst b
      simp only [if_true]
      split
      · rename_i hv
        rw [cellFind_erase _ _ h]
        simp [hv]
      · simp [cellFind_insert]
    · have hn : b.toNat ≠ a.toNat := fun e => hb (BitVec.eq_of_toNat_eq e)
      simp only [if_neg hb]
      split
      · rw [cellFind_erase _ _ h, if_neg hn]
      · rw [cellFind_insert, if_neg hn]
  · simp [hs]

/-- Two lists of rising keys with the same lookups are the same list, so equal memories are equal data. -/
theorem cells_ext {m n : List (Nat × β)} (hm : cellsRise m) (hn : cellsRise n)
    (h : ∀ k, cellFind k m = cellFind k n) : m = n := by
  induction m generalizing n with
  | nil =>
    cases n with
    | nil => rfl
    | cons c rest => simpa [cellFind] using h c.1
  | cons c rest ih =>
    cases n with
    | nil => simpa [cellFind] using h c.1
    | cons d rest' =>
      obtain ⟨hm1, hm2⟩ := List.pairwise_cons.mp hm
      obtain ⟨hn1, hn2⟩ := List.pairwise_cons.mp hn
      have key : c.1 = d.1 := by
        have hc := h c.1
        have hd := h d.1
        rcases Nat.lt_trichotomy c.1 d.1 with hlt | heq | hgt
        · rw [cellFind_eq_none (l := d :: rest') fun x hx => by
            rcases List.mem_cons.mp hx with rfl | hx
            · exact Nat.ne_of_gt hlt
            · exact Nat.ne_of_gt (Nat.lt_trans hlt (hn1 x hx))] at hc
          simp [cellFind] at hc
        · exact heq
        · rw [cellFind_eq_none (l := c :: rest) fun x hx => by
            rcases List.mem_cons.mp hx with rfl | hx
            · exact Nat.ne_of_gt hgt
            · exact Nat.ne_of_gt (Nat.lt_trans hgt (hm1 x hx))] at hd
          simp [cellFind] at hd
      have val : c.2 = d.2 := by simpa [cellFind, key] using h c.1
      have tail : rest = rest' := by
        refine ih hm2 hn2 fun k => ?_
        by_cases hk : k = c.1
        · subst hk
          rw [cellFind_eq_none fun x hx => Nat.ne_of_gt (hm1 x hx),
            cellFind_eq_none fun x hx => Nat.ne_of_gt (key ▸ hn1 x hx)]
        · simpa [cellFind, hk, key ▸ hk] using h k
      rw [Prod.ext key val, tail]

/-! ### Interceptor maps -/

theorem readChannelAt_bindRead (s : State) (sp : Space) (a : Addr) (ch : ReadChannel) (sp' : Space) (b : Addr) :
    (s.bindRead sp a ch).readChannelAt sp' b = if sp' = sp ∧ b = a then some ch else s.readChannelAt sp' b := by
  unfold State.readChannelAt
  simp only [State.bindRead_rdMap, perSpace_get_set]
  by_cases hs : sp' = sp
  · subst sp'
    by_cases hb : b = a
    · simp [hb, cellFind_insert]
    · simp [hb, cellFind_insert, BitVec.toNat_inj]
  · simp [hs]

theorem writeChannelAt_bindWrite (s : State) (sp : Space) (a : Addr) (ch : WriteChannel) (sp' : Space) (b : Addr) :
    (s.bindWrite sp a ch).writeChannelAt sp' b = if sp' = sp ∧ b = a then some ch else s.writeChannelAt sp' b := by
  unfold State.writeChannelAt
  simp only [State.bindWrite_wrMap, perSpace_get_set]
  by_cases hs : sp' = sp
  · subst sp'
    by_cases hb : b = a
    · simp [hb, cellFind_insert]
    · simp [hb, cellFind_insert, BitVec.toNat_inj]
  · simp [hs]

@[simp] theorem writeChannelAt_bindRead (s : State) (sp : Space) (a : Addr) (ch : ReadChannel) (sp' : Space)
    (b : Addr) : (s.bindRead sp a ch).writeChannelAt sp' b = s.writeChannelAt sp' b := rfl

@[simp] theorem readChannelAt_bindWrite (s : State) (sp : Space) (a : Addr) (ch : WriteChannel) (sp' : Space)
    (b : Addr) : (s.bindWrite sp a ch).readChannelAt sp' b = s.readChannelAt sp' b := rfl

end Sys2Proof.Machine
end

