-- ==== Sys2Proof/Laws/Collaborators.lean ====
section
/-! SUPPORT. Said once: everything a collaborator call, and the operations nested in it, can do to the block. Each
shared operation has one lemma here, and proofs cite it instead of unfolding the operation. -/

namespace Sys2Proof.Machine

/-- The part of a state that nothing nested in a collaborator call can change. -/
def State.fixedPart (s : State) : State :=
  { s with
    mem := { cpu := [], ppu := [] }
    sched := .idle
    fault := none
    line := none
    dmaStall := 0
    busy := { cpu := false, ppu := false }
    events := []
    dmaCount := 0
    script := []
    drawn := 0 }

/-- How many calls of each counted kind a log holds (R51). -/
def tally (l : List Event) : Nat × Nat × Nat := (l.count .ppuStep, l.count .cpuStep, l.count .redraw)

/-- An event that no counter of R51 counts. -/
def Event.uncounted (e : Event) : Prop := e ≠ .ppuStep ∧ e ≠ .cpuStep ∧ e ≠ .redraw

/-- What nested operations can do, whether or not a fault halted them. -/
structure Within (s t : State) : Prop where
  /-- Everything outside the memories, the Scheduler state, the latch, the stall, the log and the draws stays. -/
  fixed : t.fixedPart = s.fixedPart
  /-- The latch stays, or a raise set it. -/
  line : t.line = s.line ∨ (s.line = none ∧ t.line = some .nmi)
  /-- The stall grows by one fixed count per transfer (R173, R176). -/
  stall : ∃ n, t.dmaCount = s.dmaCount + n ∧ t.dmaStall = s.dmaStall + n * s.params.dmaStallCycles
  /-- The log only grows (R50). -/
  log : s.events <+: t.events
  /-- No step and no redraw is made (R60). -/
  tally : tally t.events = tally s.events
  /-- The memories keep their canonical form. -/
  mem : ∀ sp, Memory.wf sp (s.mem.get sp) → Memory.wf sp (t.mem.get sp)
  /-- A busy space's memory stays: an access to it faults (R139). -/
  guarded : ∀ sp, s.busy.get sp = true → t.mem.get sp = s.mem.get sp
  /-- Draws are only taken: from the head of the script, or in the order of their count. -/
  draws : t.script <:+ s.script ∧ s.drawn ≤ t.drawn

/-- Where a fault inside a dispatched operation can have come from, in the state it leaves (R252): a busy space, or a
page that meets the window under the policy `fault`. -/
def Listed (t : State) : RunFault → Prop
  | .lateRegistration _ => False
  | .reentrantDispatch w =>
    ∃ sp a, t.busy.get sp = true ∧ (w = encode (.rd sp a) ∨ ∃ v, w = encode (.wr sp a v))
  | .dmaPageUnbound p => t.params.pagePolicy = .fault ∧ t.pageMeetsWindow p = true

/-- What nested operations do when no fault halts them. -/
structure Settled (s t : State) : Prop extends Within s t where
  sched : t.sched = s.sched
  fault : t.fault = s.fault
  busy : t.busy = s.busy

/-- What nested operations leave when a fault halts them (R253). -/
structure Broken (s t : State) : Prop extends Within s t where
  sched : t.sched = .stopped
  cause : ∃ f, t.fault = some f ∧ Listed t f
  /-- A busy flag that stood at the fault is left as it stood (R141). -/
  stillBusy : ∀ sp, s.busy.get sp = true → t.busy.get sp = true

theorem Broken.fault {s t : State} (h : Broken s t) : t.fault ≠ none := by
  obtain ⟨f, hf, -⟩ := h.cause
  simp [hf]

/-- The end of an inner operation begun in `s`. -/
def Obeys {α : Type} (s : State) : Flow α → Prop
  | .done _ t => Settled s t
  | .halted t => Broken s t

/-! ### Composition -/

theorem andThen_done {α β : Type} {m : Flow α} {k : α → State → Flow β} {b : β} {u : State}
    (h : andThen m k = .done b u) : ∃ a t, m = .done a t ∧ k a t = .done b u := by
  cases m with
  | done a t => exact ⟨a, t, rfl, h⟩
  | halted t => cases h

theorem Within.trans {s t u : State} (h : Within s t) (hb : t.busy = s.busy) (k : Within t u) :
    Within s u where
  fixed := k.fixed.trans h.fixed
  line := by
    rcases h.line with h1 | ⟨h1, h2⟩ <;> rcases k.line with k1 | ⟨k1, k2⟩ <;> simp_all
  stall := by
    obtain ⟨n, h1, h2⟩ := h.stall
    obtain ⟨m, k1, k2⟩ := k.stall
    have hp : t.params = s.params := (congrArg State.params h.fixed :)
    exact ⟨n + m, by omega, by rw [k2, h2, hp, Nat.add_mul]; omega⟩
  log := h.log.trans k.log
  tally := k.tally.trans h.tally
  mem := fun sp hs => k.mem sp (h.mem sp hs)
  guarded := fun sp hs => (k.guarded sp (by rw [hb]; exact hs)).trans (h.guarded sp hs)
  draws := ⟨k.draws.1.trans h.draws.1, Nat.le_trans h.draws.2 k.draws.2⟩

theorem draws_stay (s : State) : s.script <:+ s.script ∧ s.drawn ≤ s.drawn := ⟨List.suffix_refl _, Nat.le_refl _⟩

theorem Within.refl (s : State) : Within s s :=
  ⟨rfl, .inl rfl, ⟨0, by simp, by simp⟩, List.prefix_refl _, rfl, fun _ h => h, fun _ _ => rfl, draws_stay s⟩

theorem Settled.refl (s : State) : Settled s s := ⟨.refl s, rfl, rfl, rfl⟩

theorem Settled.trans {s t u : State} (h : Settled s t) (k : Settled t u) : Settled s u :=
  ⟨h.toWithin.trans h.busy k.toWithin, k.sched.trans h.sched, k.fault.trans h.fault, k.busy.trans h.busy⟩

theorem Obeys.from {α : Type} {s t : State} {f : Flow α} (h : Settled s t) (k : Obeys t f) : Obeys s f := by
  cases f with
  | done a u => exact h.trans k
  | halted u =>
    exact ⟨h.toWithin.trans h.busy k.toWithin, k.sched, k.cause, fun sp hs => k.stillBusy sp (by rw [h.busy]; exact hs)⟩

theorem Obeys.andThen {α β : Type} {s : State} {m : Flow α} {k : α → State → Flow β} (h : Obeys s m)
    (hk : ∀ a t, Settled s t → Obeys t (k a t)) : Obeys s (andThen m k) := by
  cases m with
  | done a t => exact Obeys.from h (hk a t h)
  | halted t => exact h

theorem raiseFault_obeys {α : Type} {f : RunFault} {s : State} (hf : Listed s f) :
    Obeys s (raiseFault (α := α) f s) :=
  ⟨⟨rfl, .inl rfl, ⟨0, by simp, by simp⟩, List.prefix_refl _, rfl, fun _ h => h, fun _ _ => rfl, draws_stay s⟩, rfl,
    ⟨f, rfl, by cases f <;> exact hf⟩, fun _ h => h⟩

/-! ### Draws and events -/

theorem afterDraw_draws (s : State) : s.afterDraw.script <:+ s.script ∧ s.drawn ≤ s.afterDraw.drawn := by
  unfold State.afterDraw
  split
  · rename_i h
    exact ⟨by simp [h], Nat.le_refl _⟩
  · exact ⟨List.suffix_refl _, Nat.le_succ _⟩

theorem tally_append_uncounted (l : List Event) {e : Event} (h : e.uncounted) : tally (l ++ [e]) = tally l := by
  simp [tally, List.count_append, h.1, h.2.1, h.2.2]

theorem tally_set_uncounted {l m : List Event} {e e' : Event} (h : l ++ [e] <+: m) (he : e.uncounted)
    (he' : e'.uncounted) : l <+: m.set l.length e' ∧ tally (m.set l.length e') = tally m := by
  obtain ⟨rest, rfl⟩ := h
  have : ((l ++ [e]) ++ rest).set l.length e' = l ++ ([e'] ++ rest) := by simp
  rw [this]
  refine ⟨List.prefix_append _ _, ?_⟩
  simp [tally, List.count_append, he.1, he.2.1, he.2.2, he'.1, he'.2.1, he'.2.2]

theorem afterDraw_log_settled (s : State) {e : Event} (he : e.uncounted) : Settled s (s.afterDraw.log e) := by
  refine ⟨⟨?_, by simp, ⟨0, by simp, by simp⟩, by simp, ?_, fun sp h => by simpa using h, by simp,
    afterDraw_draws s⟩, by simp, by simp, by simp⟩
  · unfold State.afterDraw State.log State.fixedPart
    split <;> rfl
  · simpa using tally_append_uncounted _ he

theorem log_settled (s : State) {e : Event} (he : e.uncounted) : Settled s (s.log e) :=
  ⟨⟨rfl, by simp, ⟨0, by simp, by simp⟩, by simp, by simpa using tally_append_uncounted _ he, fun _ h => h,
    fun _ _ => rfl, draws_stay s⟩, rfl, rfl, rfl⟩

/-! ### Shared operations -/

/-- A way to run nested operations that does nothing but what they may do. -/
def NestObeys (nest : Nested) : Prop := ∀ ag acts s, Obeys s (nest ag acts s)

section
variable {nest : Nested} (hn : NestObeys nest)
include hn

theorem callPlain_obeys (ag : Agent) {e : Event} (he : e.uncounted) (s : State) :
    Obeys s (callPlain nest ag e s) :=
  Obeys.from (afterDraw_log_settled s he) (hn ag _ _)

theorem callByte_obeys (ag : Agent) {e : Option Byte → Event} (he : ∀ v, (e v).uncounted) (s : State) :
    Obeys s (callByte nest ag e s) := by
  have h1 := afterDraw_log_settled s (he none)
  have h2 := hn ag s.nextDraw.acts (s.afterDraw.log (e none))
  unfold callByte
  cases hm : nest ag s.nextDraw.acts (s.afterDraw.log (e none)) with
  | halted t => rw [hm] at h2; exact Obeys.from (f := Flow.halted (α := Byte) t) h1 h2
  | done a t =>
    rw [hm] at h2
    have h := h1.trans h2
    have hl : s.events ++ [e none] <+: t.events := by simpa using h2.log
    obtain ⟨hp, ht⟩ := tally_set_uncounted hl (he none) (he (some s.nextDraw.byte))
    exact ⟨⟨h.fixed, h.line, h.stall, by simpa using hp, by simpa using ht.trans h.tally, h.mem,
      h.guarded, h.draws⟩, h.sched, h.fault, h.busy⟩

end

theorem cartRead_obeys (sp : Space) (a : Addr) (s : State) : Obeys s (cartRead sp a s) :=
  afterDraw_log_settled s (by simp [Event.uncounted])

theorem cartWrite_obeys (sp : Space) (a : Addr) (v : Byte) (s : State) : Obeys s (cartWrite sp a v s) :=
  log_settled s (by simp [Event.uncounted])

theorem pageBytes_obeys (l : List Addr) (s : State) : Obeys s (pageBytes l s) := by
  induction l generalizing s with
  | nil => exact Settled.refl s
  | cons a rest ih =>
    refine Obeys.andThen ?_ fun v t _ => Obeys.andThen (ih t) fun vs u _ => Settled.refl u
    split
    · exact cartRead_obeys _ _ _
    · exact Settled.refl s

theorem pageView_obeys (p : Byte) (s : State) : Obeys s (pageView p s) := by
  unfold pageView
  split
  · rename_i h
    exact raiseFault_obeys ⟨h.2, h.1⟩
  · exact pageBytes_obeys _ _

theorem rawWrite_settled {s : State} {sp : Space} (hb : s.busy.get sp = false) (a : Addr) (v : Byte) :
    Settled s (s.rawWrite sp a v) := by
  refine ⟨⟨rfl, .inl rfl, ⟨0, by simp, by simp⟩, List.prefix_refl _, rfl, fun sp' h => ?_, fun sp' h => ?_,
    draws_stay s⟩, rfl, rfl, rfl⟩
  simp only [State.rawWrite_mem, perSpace_get_set]
  split
  · subst sp'
    exact memoryWrite_wf _ _ _ h
  · exact h
  simp only [State.rawWrite_mem, perSpace_get_set]
  split
  · subst sp'
    simp [hb] at h
  · rfl

theorem raiseLine_settled (s : State) : Settled s (s.raiseLine .nmi) := by
  refine ⟨⟨rfl, ?_, ⟨0, by simp, by simp⟩, List.prefix_refl _, rfl, fun _ h => h, fun _ _ => rfl, draws_stay s⟩, rfl, rfl,
    rfl⟩
  cases hl : s.line <;> simp [hl]

section
variable {nest : Nested} (hn : NestObeys nest)
include hn

theorem dmaTransfer_obeys (p : Byte) (s : State) : Obeys s (dmaTransfer nest p s) := by
  refine Obeys.andThen (pageView_obeys p s) fun view t _ =>
    Obeys.andThen (callPlain_obeys hn .ppu (by simp [Event.uncounted]) t) fun _ u _ => ?_
  exact ⟨⟨rfl, .inl rfl, ⟨1, rfl, by simp⟩, List.prefix_refl _, rfl, fun _ h => h, fun _ _ => rfl, draws_stay u⟩, rfl, rfl,
    rfl⟩

theorem readAction_obeys (ch : ReadChannel) (s : State) : Obeys s (readAction nest ch s) := by
  cases ch with
  | joy2 => exact Settled.refl s
  | _ => exact callByte_obeys hn _ (fun v => by simp [Event.uncounted]) s

theorem writeAction_obeys (ch : WriteChannel) (v : Byte) (s : State) : Obeys s (writeAction nest ch v s) := by
  cases ch with
  | dma => exact Obeys.andThen (dmaTransfer_obeys hn v s) fun _ t _ => Settled.refl t
  | _ => exact callPlain_obeys hn _ (by simp [Event.uncounted]) s

omit hn in
/-- A channel action between setting and clearing its space's busy flag. -/
theorem invoke_obeys {α : Type} {sp : Space} {s : State} {m : Flow α} (hb : s.busy.get sp = false)
    (h : Obeys (s.setBusy sp true) m) : Obeys s (andThen m fun a t => .done a (t.setBusy sp false)) := by
  have hg : ∀ {t : State}, Within (s.setBusy sp true) t → Within s t := fun h =>
    ⟨h.fixed, h.line, h.stall, h.log, h.tally, h.mem, fun sp' hs => h.guarded sp' (by
      simp only [State.setBusy_busy, perSpace_get_set]
      split
      · rfl
      · exact hs), h.draws⟩
  cases m with
  | done a t =>
    refine ⟨?_, h.sched, h.fault, ?_⟩
    · have := hg h.toWithin
      exact ⟨this.fixed, this.line, this.stall, this.log, this.tally, this.mem, this.guarded, this.draws⟩
    · show t.busy.set sp false = s.busy
      rw [h.busy]
      simp [← hb]
  | halted t => exact ⟨hg h.toWithin, h.sched, h.cause, fun sp' hs => h.stillBusy sp' (by
      simp only [State.setBusy_busy, perSpace_get_set]
      split
      · rfl
      · exact hs)⟩

theorem dispatchRead_obeys (sp : Space) (a : Addr) (s : State) : Obeys s (dispatchRead nest sp a s) := by
  unfold dispatchRead
  split
  · exact raiseFault_obeys ⟨sp, a, by assumption, .inl rfl⟩
  · rename_i hb
    split
    · exact invoke_obeys (by simpa using hb) (readAction_obeys hn _ _)
    · exact cartRead_obeys _ _ _
    · exact Settled.refl s

theorem dispatchWrite_obeys (sp : Space) (a : Addr) (v : Byte) (s : State) :
    Obeys s (dispatchWrite nest sp a v s) := by
  unfold dispatchWrite
  split
  · exact raiseFault_obeys ⟨sp, a, by assumption, .inr ⟨v, rfl⟩⟩
  · rename_i hb
    split
    · exact invoke_obeys (by simpa using hb) (writeAction_obeys hn _ _ _)
    · exact cartWrite_obeys _ _ _ _
    · exact rawWrite_settled (by simpa using hb) _ _

theorem perform_obeys (act : Act) (s : State) : Obeys s (perform nest act s) := by
  match act with
  | .raise => exact raiseLine_settled s
  | .access sp (.rd a) => exact Obeys.andThen (dispatchRead_obeys hn sp a s) fun _ t _ => Settled.refl t
  | .access sp (.wr a v) => exact dispatchWrite_obeys hn sp a v s

theorem issue_obeys (ag : Agent) (act : Act) (s : State) : Obeys s (issue nest ag act s) := by
  unfold issue
  split
  · exact perform_obeys hn act s
  · exact Settled.refl s

theorem runActs_obeys (ag : Agent) (acts : List Act) (s : State) :
    Obeys s (runActs nest ag acts s) := by
  induction acts generalizing s with
  | nil => exact Settled.refl s
  | cons act rest ih => exact Obeys.andThen (issue_obeys hn ag act s) fun _ t _ => ih t

end

theorem nestedTo_obeys (n : Nat) : NestObeys (nestedTo n) := by
  induction n with
  | zero => exact fun _ _ s => Settled.refl s
  | succ n ih => exact fun ag acts s => runActs_obeys ih ag acts s

/-- Everything the operations nested in a collaborator call can do. -/
theorem nested_obeys : NestObeys nested := nestedTo_obeys 3

/-! ### What stays, field by field -/

section
variable {s t : State} (h : Within s t)
include h

theorem Within.rdMap : t.rdMap = s.rdMap := (congrArg State.rdMap h.fixed :)
theorem Within.wrMap : t.wrMap = s.wrMap := (congrArg State.wrMap h.fixed :)
theorem Within.phase : t.phase = s.phase := (congrArg State.phase h.fixed :)
theorem Within.setupError : t.setupError = s.setupError := (congrArg State.setupError h.fixed :)
theorem Within.cartLoaded : t.cartLoaded = s.cartLoaded := (congrArg State.cartLoaded h.fixed :)
theorem Within.budget : t.budget = s.budget := (congrArg State.budget h.fixed :)
theorem Within.quantaThisIter : t.quantaThisIter = s.quantaThisIter := (congrArg State.quantaThisIter h.fixed :)
theorem Within.ppuSteps : t.ppuSteps = s.ppuSteps := (congrArg State.ppuSteps h.fixed :)
theorem Within.cpuSteps : t.cpuSteps = s.cpuSteps := (congrArg State.cpuSteps h.fixed :)
theorem Within.stallSlots : t.stallSlots = s.stallSlots := (congrArg State.stallSlots h.fixed :)
theorem Within.quanta : t.quanta = s.quanta := (congrArg State.quanta h.fixed :)
theorem Within.redraws : t.redraws = s.redraws := (congrArg State.redraws h.fixed :)
theorem Within.params : t.params = s.params := (congrArg State.params h.fixed :)
theorem Within.commands : t.commands = s.commands := (congrArg State.commands h.fixed :)
theorem Within.hostInputs : t.hostInputs = s.hostInputs := (congrArg State.hostInputs h.fixed :)
theorem Within.result : t.result = s.result := (congrArg State.result h.fixed :)
theorem Within.hostDrawn : t.hostDrawn = s.hostDrawn := (congrArg State.hostDrawn h.fixed :)
theorem Within.loadPath : t.loadPath = s.loadPath := (congrArg State.loadPath h.fixed :)

end

end Sys2Proof.Machine
end

