-- ==== Sys2Proof/Laws/Scheduler.lean ====
section
/-! SUPPORT. Said once: what the slots, the quantum and the drain loop do to the block (R216, R218 to R220). -/

namespace Sys2Proof.Machine

/-! ### What every operation of a running machine keeps -/

/-- What an operation of a running machine keeps, whatever its collaborators do. -/
structure Keeps (s t : State) : Prop where
  rdMap : t.rdMap = s.rdMap
  wrMap : t.wrMap = s.wrMap
  params : t.params = s.params
  setupError : t.setupError = s.setupError
  cartLoaded : t.cartLoaded = s.cartLoaded
  commands : t.commands = s.commands
  log : s.events <+: t.events
  mem : ∀ sp, Memory.wf sp (s.mem.get sp) → Memory.wf sp (t.mem.get sp)

/-- The steps and redraws counted between two states are those the log records between them. -/
def CountsAgree (s t : State) : Prop :=
  t.ppuSteps + s.events.count .ppuStep = s.ppuSteps + t.events.count .ppuStep ∧
    t.cpuSteps + s.events.count .cpuStep = s.cpuSteps + t.events.count .cpuStep ∧
      t.redraws + s.events.count .redraw = s.redraws + t.events.count .redraw

/-- The same between a state and a halted one, but for a `PPU.step` that the fault halted where the free value leaves it
uncounted (log entry 23). -/
def CountsHalted (s t : State) : Prop :=
  CountsAgree s t ∨ Config.countsHaltedPpuStep = false ∧ CountsAgree s t.countPpuStep

/-- The end of an operation of a running machine, begun in `s`: done, or halted by a fault. -/
def Runs {α : Type} (s : State) : Flow α → Prop
  | .done _ t => Keeps s t ∧ CountsAgree s t ∧ t.sched = s.sched ∧ t.fault = s.fault ∧ t.busy = s.busy
  | .halted t => Keeps s t ∧ CountsHalted s t ∧ t.sched = .stopped ∧ ∃ f, t.fault = some f ∧ Listed t f

theorem Keeps.refl (s : State) : Keeps s s := ⟨rfl, rfl, rfl, rfl, rfl, rfl, List.prefix_refl _, fun _ h => h⟩

theorem Keeps.trans {s t u : State} (h : Keeps s t) (k : Keeps t u) : Keeps s u :=
  ⟨k.rdMap.trans h.rdMap, k.wrMap.trans h.wrMap, k.params.trans h.params, k.setupError.trans h.setupError,
    k.cartLoaded.trans h.cartLoaded, k.commands.trans h.commands, h.log.trans k.log,
    fun sp hs => k.mem sp (h.mem sp hs)⟩

theorem CountsAgree.trans {s t u : State} (h : CountsAgree s t) (k : CountsAgree t u) : CountsAgree s u := by
  obtain ⟨h1, h2, h3⟩ := h
  obtain ⟨k1, k2, k3⟩ := k
  exact ⟨by omega, by omega, by omega⟩

theorem CountsAgree.halted {s t u : State} (h : CountsAgree s t) (k : CountsHalted t u) : CountsHalted s u :=
  k.imp h.trans fun k => ⟨k.1, h.trans k.2⟩

theorem Within.keeps {s t : State} (h : Within s t) : Keeps s t :=
  ⟨h.rdMap, h.wrMap, h.params, h.setupError, h.cartLoaded, h.commands, h.log, h.mem⟩

theorem Within.countsAgree {s t : State} (h : Within s t) : CountsAgree s t := by
  have ht := h.tally
  simp only [Machine.tally, Prod.mk.injEq] at ht
  obtain ⟨h1, h2, h3⟩ := ht
  exact ⟨by rw [h.ppuSteps, h1], by rw [h.cpuSteps, h2], by rw [h.redraws, h3]⟩

theorem Obeys.runs {α : Type} {s : State} {f : Flow α} (h : Obeys s f) : Runs s f := by
  cases f with
  | done a t => exact ⟨h.keeps, h.toWithin.countsAgree, h.sched, h.fault, h.busy⟩
  | halted t => exact ⟨h.keeps, .inl h.toWithin.countsAgree, h.sched, h.cause⟩

theorem Runs.from {α : Type} {s t : State} {f : Flow α} (h : Runs t f) (hk : Keeps s t) (hc : CountsAgree s t)
    (hs : t.sched = s.sched) (hf : t.fault = s.fault) (hb : t.busy = s.busy) : Runs s f := by
  cases f with
  | done a u =>
    obtain ⟨k, c, h1, h2, h3⟩ := h
    exact ⟨hk.trans k, hc.trans c, h1.trans hs, h2.trans hf, h3.trans hb⟩
  | halted u =>
    obtain ⟨k, c, h1, h2⟩ := h
    exact ⟨hk.trans k, hc.halted c, h1, h2⟩

theorem Runs.andThen {α β : Type} {s : State} {m : Flow α} {k : α → State → Flow β} (h : Runs s m)
    (hk : ∀ a t, Runs t (k a t)) : Runs s (andThen m k) := by
  cases m with
  | done a t =>
    obtain ⟨h1, h2, h3, h4, h5⟩ := h
    exact Runs.from (hk a t) h1 h2 h3 h4 h5
  | halted t => exact h

/-- An operation that ends at once in a state that keeps what it must. -/
theorem Runs.done {α : Type} {s t : State} (a : α) (hk : Keeps s t) (hc : CountsAgree s t)
    (hs : t.sched = s.sched) (hf : t.fault = s.fault) (hb : t.busy = s.busy) : Runs s (.done a t) :=
  ⟨hk, hc, hs, hf, hb⟩

/-! ### Slots -/

/-- The state in which `PPU.step` runs: its draw taken, logged. -/
def ppuSlotStart (s : State) : State := s.afterDraw.log .ppuStep

/-- The state in which `CPU.step` runs. -/
def cpuSlotStart (s : State) : State := s.afterDraw.log .cpuStep

/-- A counted step is done when its call is, and counted. -/
theorem counted_done {count : State → State} {b : Bool} {f : Flow Unit} {t : State}
    (h : counted count b f = .done () t) : ∃ u, f = .done () u ∧ t = count u := by
  cases f with
  | done _ u => exact ⟨u, rfl, by injection h with _ h; exact h.symm⟩
  | halted u => cases h

/-- A counted step is halted when its call is, and then counted or not. -/
theorem counted_halted {count : State → State} {b : Bool} {f : Flow Unit} {t : State}
    (h : counted count b f = .halted t) : ∃ u, f = .halted u ∧ (b = true ∧ t = count u ∨ b = false ∧ t = u) := by
  cases f with
  | done _ u => cases h
  | halted u => cases b <;> exact ⟨u, rfl, by injection h with h; simp [← h]⟩

/-- A PPU slot's call is the step and what is nested in it (R218). -/
theorem ppuStep_obeys (s : State) : Obeys (ppuSlotStart s) (callPlain nested .ppu .ppuStep s) := nested_obeys .ppu _ _

/-- A CPU slot's call is the step and what is nested in it (R219). -/
theorem cpuStep_obeys (s : State) : Obeys (cpuSlotStart s) (callPlain nested .cpu .cpuStep s) := nested_obeys .cpu _ _

theorem deliver_obeys (s : State) : Obeys s.clearLine (deliver s) := by
  unfold deliver
  cases s.line with
  | none => exact Settled.refl _
  | some k => exact callPlain_obeys nested_obeys .cpu (by simp [Event.uncounted]) _

theorem ppuSlotStart_keeps (s : State) : Keeps s (ppuSlotStart s) := by
  refine ⟨?_, ?_, ?_, ?_, ?_, ?_, ?_, fun sp h => ?_⟩ <;> simp [ppuSlotStart]
  exact h

theorem cpuSlotStart_keeps (s : State) : Keeps s (cpuSlotStart s) := by
  refine ⟨?_, ?_, ?_, ?_, ?_, ?_, ?_, fun sp h => ?_⟩ <;> simp [cpuSlotStart]
  exact h

theorem countPpuStep_keeps (s : State) : Keeps s s.countPpuStep :=
  ⟨rfl, rfl, rfl, rfl, rfl, rfl, List.prefix_refl _, fun _ h => h⟩

theorem countCpuStep_keeps (s : State) : Keeps s s.countCpuStep :=
  ⟨rfl, rfl, rfl, rfl, rfl, rfl, List.prefix_refl _, fun _ h => h⟩

/-- Where a fault came from does not depend on the counts. -/
theorem listed_countPpuStep {s : State} {f : RunFault} (h : Listed s f) : Listed s.countPpuStep f := by
  cases f <;> exact h

theorem listed_countCpuStep {s : State} {f : RunFault} (h : Listed s f) : Listed s.countCpuStep f := by
  cases f <;> exact h

/-- The log gains the step's entry, and the count follows the call. -/
theorem ppuSlotStart_counts {s t : State} (h : CountsAgree (ppuSlotStart s) t) : CountsAgree s t.countPpuStep := by
  simp [CountsAgree, ppuSlotStart, List.count_append] at h ⊢
  omega

theorem cpuSlotStart_counts {s t : State} (h : CountsAgree (cpuSlotStart s) t) : CountsAgree s t.countCpuStep := by
  simp [CountsAgree, cpuSlotStart, List.count_append] at h ⊢
  omega

theorem ppuSlot_runs (s : State) : Runs s (ppuSlot s) := by
  have ho := ppuStep_obeys s
  cases h : ppuSlot s with
  | done _ t =>
    obtain ⟨u, hu, rfl⟩ := counted_done h
    rw [hu] at ho
    exact ⟨((ppuSlotStart_keeps s).trans ho.keeps).trans (countPpuStep_keeps u),
      ppuSlotStart_counts ho.toWithin.countsAgree, by simp [ho.sched, ppuSlotStart], by simp [ho.fault, ppuSlotStart],
      by simp [ho.busy, ppuSlotStart]⟩
  | halted t =>
    obtain ⟨u, hu, ⟨-, rfl⟩ | ⟨hb, rfl⟩⟩ := counted_halted h
    · rw [hu] at ho
      exact ⟨((ppuSlotStart_keeps s).trans ho.keeps).trans (countPpuStep_keeps u),
        .inl (ppuSlotStart_counts ho.toWithin.countsAgree), ho.sched, ho.cause.imp fun _ h => h.imp_right listed_countPpuStep⟩
    · rw [hu] at ho
      exact ⟨(ppuSlotStart_keeps s).trans ho.keeps, .inr ⟨hb, ppuSlotStart_counts ho.toWithin.countsAgree⟩, ho.sched,
        ho.cause⟩

theorem cpuStep_runs (s : State) : Runs s (counted State.countCpuStep true (callPlain nested .cpu .cpuStep s)) := by
  have ho := cpuStep_obeys s
  cases hm : callPlain nested .cpu .cpuStep s with
  | done _ u =>
    rw [hm] at ho
    exact ⟨((cpuSlotStart_keeps s).trans ho.keeps).trans (countCpuStep_keeps u),
      cpuSlotStart_counts ho.toWithin.countsAgree, by simp [ho.sched, cpuSlotStart], by simp [ho.fault, cpuSlotStart],
      by simp [ho.busy, cpuSlotStart]⟩
  | halted u =>
    rw [hm] at ho
    exact ⟨((cpuSlotStart_keeps s).trans ho.keeps).trans (countCpuStep_keeps u),
      .inl (cpuSlotStart_counts ho.toWithin.countsAgree), ho.sched, ho.cause.imp fun _ h => h.imp_right listed_countCpuStep⟩

theorem deliver_runs (s : State) : Runs s (deliver s) :=
  Runs.from (deliver_obeys s).runs ⟨rfl, rfl, rfl, rfl, rfl, rfl, List.prefix_refl _, fun _ h => h⟩ ⟨rfl, rfl, rfl⟩
    rfl rfl rfl

theorem cpuSlot_runs (s : State) : Runs s (cpuSlot s) := by
  unfold cpuSlot
  split
  · exact Runs.done () ⟨rfl, rfl, rfl, rfl, rfl, rfl, List.prefix_refl _, fun _ h => h⟩ ⟨rfl, rfl, rfl⟩ rfl rfl rfl
  · exact Runs.andThen (cpuStep_runs s) fun _ t => deliver_runs t

theorem atSlot_runs {α : Type} {s : State} {i : Slot} {f : Flow α} (h : Runs (s.atSlot i) f) : Runs s f :=
  Runs.from h ⟨rfl, rfl, rfl, rfl, rfl, rfl, List.prefix_refl _, fun _ h => h⟩ ⟨rfl, rfl, rfl⟩ rfl rfl rfl

theorem quantum_runs (s : State) : Runs s (quantum s) :=
  Runs.andThen (atSlot_runs (ppuSlot_runs _)) fun _ _ =>
    Runs.andThen (atSlot_runs (ppuSlot_runs _)) fun _ _ =>
      Runs.andThen (atSlot_runs (ppuSlot_runs _)) fun _ _ =>
        Runs.andThen (atSlot_runs (cpuSlot_runs _)) fun _ _ =>
          Runs.done () ⟨rfl, rfl, rfl, rfl, rfl, rfl, List.prefix_refl _, fun _ h => h⟩ ⟨rfl, rfl, rfl⟩ rfl rfl rfl

theorem drain_runs (fuel : Nat) (s : State) : Runs s (drain fuel s) := by
  induction fuel generalizing s with
  | zero => exact Runs.done () (.refl s) ⟨rfl, rfl, rfl⟩ rfl rfl rfl
  | succ n ih =>
    unfold drain
    split
    · refine Runs.andThen (quantum_runs s) fun _ t => ?_
      exact Runs.from (ih _) ⟨rfl, rfl, rfl, rfl, rfl, rfl, List.prefix_refl _, fun _ h => h⟩ ⟨rfl, rfl, rfl⟩ rfl rfl
        rfl
    · exact Runs.done () (.refl s) ⟨rfl, rfl, rfl⟩ rfl rfl rfl

/-! ### Slot accounting -/

/-- `p` PPU steps and `c` CPU slots were made, and nothing of the Scheduler's pacing changed. -/
structure Slots (s t : State) (p c : Nat) : Prop where
  ppuSteps : t.ppuSteps = s.ppuSteps + p
  cpuSlots : t.cpuSteps + t.stallSlots = s.cpuSteps + s.stallSlots + c
  quanta : t.quanta = s.quanta
  budget : t.budget = s.budget
  quantaThisIter : t.quantaThisIter = s.quantaThisIter
  redraws : t.redraws = s.redraws
  params : t.params = s.params
  hostInputs : t.hostInputs = s.hostInputs
  hostDrawn : t.hostDrawn = s.hostDrawn

theorem Slots.trans {s t u : State} {p c q d : Nat} (h : Slots s t p c) (k : Slots t u q d) :
    Slots s u (p + q) (c + d) :=
  ⟨by rw [k.ppuSteps, h.ppuSteps]; omega, by rw [k.cpuSlots, h.cpuSlots]; omega, k.quanta.trans h.quanta,
    k.budget.trans h.budget, k.quantaThisIter.trans h.quantaThisIter, k.redraws.trans h.redraws,
    k.params.trans h.params, k.hostInputs.trans h.hostInputs, k.hostDrawn.trans h.hostDrawn⟩

theorem Within.slots {s t : State} (h : Within s t) : Slots s t 0 0 :=
  ⟨h.ppuSteps, by rw [h.cpuSteps, h.stallSlots]; rfl, h.quanta, h.budget, h.quantaThisIter, h.redraws, h.params,
    h.hostInputs, h.hostDrawn⟩

theorem ppuSlot_done {s t : State} (h : ppuSlot s = .done () t) : Slots s t 1 0 := by
  have h1 : Slots s (ppuSlotStart s) 0 0 := by
    constructor <;> simp [ppuSlotStart]
  have h2 := ppuStep_obeys s
  obtain ⟨u, hu, rfl⟩ := counted_done h
  rw [hu] at h2
  exact (h1.trans h2.toWithin.slots).trans (u := u.countPpuStep)
    (q := 1) (d := 0) ⟨rfl, rfl, rfl, rfl, rfl, rfl, rfl, rfl, rfl⟩

theorem deliver_done {s t : State} (h : deliver s = .done () t) : Slots s t 0 0 := by
  have h1 : Slots s s.clearLine 0 0 := ⟨rfl, rfl, rfl, rfl, rfl, rfl, rfl, rfl, rfl⟩
  have h2 := deliver_obeys s
  rw [h] at h2
  exact h1.trans h2.toWithin.slots

theorem cpuSlot_done {s t : State} (h : cpuSlot s = .done () t) : Slots s t 0 1 := by
  unfold cpuSlot at h
  split at h
  · cases h
    exact ⟨rfl, (Nat.add_assoc _ _ _).symm, rfl, rfl, rfl, rfl, rfl, rfl, rfl⟩
  · have h1 : Slots s (cpuSlotStart s) 0 0 := by
      constructor <;> simp [cpuSlotStart]
    have h2 := cpuStep_obeys s
    cases hm : callPlain nested .cpu .cpuStep s with
    | halted u => simp [hm, counted, andThen] at h
    | done a u =>
      rw [hm] at h h2
      have h3 : Slots u u.countCpuStep 0 1 := ⟨rfl, by simp; omega, rfl, rfl, rfl, rfl, rfl, rfl, rfl⟩
      exact ((h1.trans h2.toWithin.slots).trans h3).trans (deliver_done h)

theorem atSlot_slots (s : State) (i : Slot) : Slots s (s.atSlot i) 0 0 :=
  ⟨rfl, rfl, rfl, rfl, rfl, rfl, rfl, rfl, rfl⟩

/-- A quantum that no fault halts makes three PPU steps and one CPU slot (R220), and is counted. -/
theorem quantum_done {s t : State} (h : quantum s = .done () t) :
    ∃ u, Slots s u 3 1 ∧ t = u.countQuantum := by
  obtain ⟨_, s1, h1, h⟩ := andThen_done h
  obtain ⟨_, s2, h2, h⟩ := andThen_done h
  obtain ⟨_, s3, h3, h⟩ := andThen_done h
  obtain ⟨_, s4, h4, h⟩ := andThen_done h
  have hs : Slots s s4 3 1 :=
    ((((atSlot_slots s _).trans (ppuSlot_done h1)).trans ((atSlot_slots s1 _).trans (ppuSlot_done h2))).trans
      ((atSlot_slots s2 _).trans (ppuSlot_done h3))).trans ((atSlot_slots s3 _).trans (cpuSlot_done h4))
  cases h
  exact ⟨s4, hs, rfl⟩

/-- How many more quanta the cap admits in this ITER, if it is finite (R216). -/
def State.capLeft (s : State) : Option Nat := s.params.maxQuanta.map (· - s.quantaThisIter)

/-- `n`, but no more than a bound if there is one. -/
def atMost (bound : Option Nat) (n : Nat) : Nat :=
  match bound with
  | some b => min n b
  | none => n

/-- A drain that no fault halts runs as many quanta as the budget holds, up to the cap (R216, R222). -/
theorem drain_done {s t : State} (hq : 0 < s.params.quantumNs)
    (h : drain (s.budget / s.params.quantumNs) s = .done () t) :
    ∃ n, n = atMost s.capLeft (s.budget / s.params.quantumNs) ∧ t.budget = s.budget - n * s.params.quantumNs ∧
      t.quantaThisIter = s.quantaThisIter + n ∧ t.ppuSteps = s.ppuSteps + 3 * n ∧
      t.cpuSteps + t.stallSlots = s.cpuSteps + s.stallSlots + n ∧ t.quanta = s.quanta + n ∧
      t.redraws = s.redraws ∧ t.params = s.params ∧ t.hostInputs = s.hostInputs ∧ t.hostDrawn = s.hostDrawn := by
  generalize hf : s.budget / s.params.quantumNs = fuel at h ⊢
  induction fuel generalizing s with
  | zero =>
    obtain rfl : s = t := by injection h
    exact ⟨0, by cases hc : s.capLeft <;> simp [atMost], by simp, by simp, by simp, by simp, by simp, rfl, rfl, rfl, rfl⟩
  | succ fuel ih =>
    unfold drain at h
    have hle : s.params.quantumNs ≤ s.budget := by
      have := Nat.div_mul_le_self s.budget s.params.quantumNs
      rw [hf, Nat.succ_mul] at this
      omega
    split at h
    · rename_i hc
      obtain ⟨_, u, h1, h2⟩ := andThen_done h
      obtain ⟨v, hv, rfl⟩ := quantum_done h1
      have hp : v.params = s.params := hv.params
      have hq' : 0 < v.countQuantum.charged.params.quantumNs := by simpa [hp] using hq
      obtain ⟨n, hn, hb, hi, hpp, hcc, hqq, hr, hpa, hhi, hhd⟩ := ih hq' (by
        simp only [State.charged_budget, State.charged_params, State.countQuantum_budget, State.countQuantum_params,
          hp, hv.budget]
        rw [Nat.div_eq_sub_div hq hle] at hf
        exact Nat.succ.inj hf) h2
      simp only [State.charged_budget, State.charged_params, State.countQuantum_budget, State.countQuantum_params,
        State.charged_quantaThisIter, State.countQuantum_quantaThisIter, State.charged_ppuSteps,
        State.countQuantum_ppuSteps, State.charged_cpuSteps, State.countQuantum_cpuSteps, State.charged_stallSlots,
        State.countQuantum_stallSlots, State.charged_quanta, State.countQuantum_quanta, State.charged_redraws,
        State.countQuantum_redraws, State.charged_hostInputs, State.countQuantum_hostInputs, State.charged_hostDrawn,
        State.countQuantum_hostDrawn, hp, hv.budget, hv.quantaThisIter, hv.ppuSteps, hv.cpuSlots, hv.quanta,
        hv.redraws, hv.hostInputs, hv.hostDrawn] at hb hi hpp hcc hqq hr hpa hhi hhd
      refine ⟨n + 1, ?_, by rw [hb, Nat.sub_sub, Nat.succ_mul, Nat.add_comm], by omega, by omega, by omega, by omega, hr, hpa, hhi, hhd⟩
      have hcap := hc.2
      simp only [State.underCap] at hcap
      simp only [State.capLeft, State.charged_params, State.countQuantum_params, State.charged_quantaThisIter,
        State.countQuantum_quantaThisIter, hp, hv.quantaThisIter] at hn
      simp only [State.capLeft]
      cases hm : s.params.maxQuanta with
      | none => simp [hm, atMost] at hn ⊢; omega
      | some b => simp [hm, atMost] at hn hcap ⊢; omega
    · rename_i hc
      obtain rfl : s = t := by injection h
      have hcap : s.underCap = false := by simpa [hle] using hc
      refine ⟨0, ?_, by simp, by simp, by simp, by simp, by simp, rfl, rfl, rfl, rfl⟩
      simp only [State.underCap] at hcap
      simp only [State.capLeft]
      cases hm : s.params.maxQuanta with
      | none => simp [hm] at hcap
      | some b => simp [hm, atMost] at hcap ⊢; omega

/-! ### What a halted quantum and a halted drain have kept -/

/-- The state in which an inner operation ends, done or halted. -/
def Flow.last {α : Type} : Flow α → State
  | .done _ s => s
  | .halted s => s

/-- What a slot keeps of the Scheduler's bookkeeping, halted or not. -/
structure Steady (s t : State) : Prop where
  params : t.params = s.params
  budget : t.budget = s.budget
  quantaThisIter : t.quantaThisIter = s.quantaThisIter
  quanta : t.quanta = s.quanta
  redraws : t.redraws = s.redraws

theorem Steady.trans {s t u : State} (h : Steady s t) (k : Steady t u) : Steady s u :=
  ⟨k.params.trans h.params, k.budget.trans h.budget, k.quantaThisIter.trans h.quantaThisIter,
    k.quanta.trans h.quanta, k.redraws.trans h.redraws⟩

theorem Steady.andThen {α β : Type} {s : State} {m : Flow α} {k : α → State → Flow β} (h : Steady s m.last)
    (hk : ∀ a t, Steady t (k a t).last) : Steady s (andThen m k).last := by
  cases m with
  | done a t => exact h.trans (hk a t)
  | halted t => exact h

theorem Within.steady {s t : State} (h : Within s t) : Steady s t :=
  ⟨h.params, h.budget, h.quantaThisIter, h.quanta, h.redraws⟩

theorem Obeys.steady {α : Type} {s : State} {f : Flow α} (h : Obeys s f) : Steady s f.last := by
  cases f with
  | done a t => exact h.toWithin.steady
  | halted t => exact h.toWithin.steady

theorem counted_steady {s : State} {f : Flow Unit} {count : State → State} {b : Bool} (h : Steady s f.last)
    (hc : ∀ t, Steady t (count t)) : Steady s (counted count b f).last := by
  cases f with
  | done _ t => exact h.trans (hc t)
  | halted t =>
    cases b with
    | true => exact h.trans (hc t)
    | false => exact h

theorem ppuSlot_steady (s : State) : Steady s (ppuSlot s).last :=
  counted_steady (.trans (t := ppuSlotStart s) (by constructor <;> simp [ppuSlotStart]) (ppuStep_obeys s).steady)
    fun _ => ⟨rfl, rfl, rfl, rfl, rfl⟩

theorem cpuSlot_steady (s : State) : Steady s (cpuSlot s).last := by
  unfold cpuSlot
  split
  · exact ⟨rfl, rfl, rfl, rfl, rfl⟩
  · refine Steady.andThen ?_ fun _ t => .trans (t := t.clearLine) ⟨rfl, rfl, rfl, rfl, rfl⟩ (deliver_obeys t).steady
    exact counted_steady (.trans (t := cpuSlotStart s) (by constructor <;> simp [cpuSlotStart]) (cpuStep_obeys s).steady)
      fun _ => ⟨rfl, rfl, rfl, rfl, rfl⟩

/-- A quantum that a fault halts is not counted (R253). -/
theorem quantum_halted {s t : State} (h : quantum s = .halted t) : Steady s t := by
  have at_slot : ∀ (s : State) (i : Slot), Steady s (s.atSlot i) := fun _ _ => ⟨rfl, rfl, rfl, rfl, rfl⟩
  have h1 := (at_slot s .ppu0).trans (ppuSlot_steady _)
  unfold quantum at h
  cases e1 : ppuSlot (s.atSlot .ppu0) with
  | halted u => rw [e1] at h h1; cases h; exact h1
  | done _ u =>
    rw [e1] at h h1
    have h2 := h1.trans ((at_slot u .ppu1).trans (ppuSlot_steady _))
    simp only [andThen] at h
    cases e2 : ppuSlot (u.atSlot .ppu1) with
    | halted v => rw [e2] at h h2; cases h; exact h2
    | done _ v =>
      rw [e2] at h h2
      have h3 := h2.trans ((at_slot v .ppu2).trans (ppuSlot_steady _))
      simp only at h
      cases e3 : ppuSlot (v.atSlot .ppu2) with
      | halted w => rw [e3] at h h3; cases h; exact h3
      | done _ w =>
        rw [e3] at h h3
        have h4 := h3.trans ((at_slot w .cpu).trans (cpuSlot_steady _))
        simp only at h
        cases e4 : cpuSlot (w.atSlot .cpu) with
        | halted x => rw [e4] at h h4; cases h; exact h4
        | done _ x => rw [e4] at h; cases h

/-- A drain that a fault halts has counted and paid for every quantum before the faulting one. -/
theorem drain_halted {fuel : Nat} {s t : State} (h : drain fuel s = .halted t) :
    ∃ n, t.quantaThisIter = s.quantaThisIter + n ∧ t.quanta = s.quanta + n ∧
      t.budget + n * s.params.quantumNs = s.budget ∧ t.redraws = s.redraws := by
  induction fuel generalizing s with
  | zero => cases h
  | succ fuel ih =>
    unfold drain at h
    split at h
    · rename_i hc
      cases hq : quantum s with
      | halted u =>
        rw [hq] at h
        cases h
        have k := quantum_halted hq
        exact ⟨0, k.quantaThisIter, k.quanta, by simp [k.budget], k.redraws⟩
      | done _ u =>
        rw [hq] at h
        obtain ⟨v, hv, rfl⟩ := quantum_done hq
        obtain ⟨n, h1, h2, h3, h4⟩ := ih h
        simp only [State.charged_budget, State.charged_params, State.countQuantum_budget, State.countQuantum_params,
          State.charged_quantaThisIter, State.countQuantum_quantaThisIter, State.charged_quanta,
          State.countQuantum_quanta, State.charged_redraws, State.countQuantum_redraws, hv.budget, hv.quantaThisIter,
          hv.quanta, hv.params, hv.redraws] at h1 h2 h3 h4
        exact ⟨n + 1, by omega, by omega, by rw [Nat.succ_mul]; omega, h4⟩
    · cases h

end Sys2Proof.Machine
end

