-- ==== Sys2Proof/Laws/Exec.lean ====
section
/-! SUPPORT. Said once: how an operation that has a step ends. Every fact about all operations is derived from
`exec_cases`. -/

namespace Sys2Proof.Machine

/-! ### Guards and endings -/

theorem whileRunning_live {s : State} (h : s.live) (k : State → Flow Result) :
    whileRunning s k = finish (k s) := by
  simp [whileRunning, h.1, h.2]

theorem whileRunning_next {s t : State} {k : State → Flow Result} (h : whileRunning s k = .next t) :
    s.live ∧ finish (k s) = .next t := by
  unfold whileRunning at h
  split at h
  · cases h
  · split at h
    · cases h
    · exact ⟨⟨by simpa using ‹¬s.sched ≠ .running›, by simpa using ‹¬s.fault ≠ none›⟩, h⟩

theorem whileSetup_inSetup {s : State} (h : s.inSetup) (w : Word) (k : State → Flow Result) :
    whileSetup w s k = finish (k s) := by
  simp [whileSetup, h.1, h.2]

theorem whileSetup_live {s : State} (h : s.live) (w : Word) (k : State → Flow Result) :
    whileSetup w s k = finish (raiseFault (.lateRegistration w) s) := by
  simp [whileSetup, h.1, h.2]

theorem whileSetup_next {s t : State} {w : Word} {k : State → Flow Result} (h : whileSetup w s k = .next t) :
    (s.inSetup ∧ finish (k s) = .next t) ∨ (s.live ∧ finish (raiseFault (.lateRegistration w) s) = .next t) := by
  unfold whileSetup at h
  split at h
  · cases h
  · rename_i hf
    have hf : s.fault = none := by simpa using hf
    split at h
    · cases h
    · exact .inr ⟨⟨by assumption, hf⟩, h⟩
    · exact .inl ⟨⟨by assumption, hf⟩, h⟩

/-- An operation that has a step ends in the state its effect left, outside the Scheduler's loop, with its result, or
with none if a fault halted it. -/
theorem finish_next {f : Flow Result} {t : State} (h : finish f = .next t) :
    (∃ v u, f = .done v u ∧ t = u.ended (some v)) ∨
      (∃ u, f = .halted u ∧ t = u.ended none) := by
  cases f with
  | done v u => exact .inl ⟨v, u, rfl, by simpa [finish] using h.symm⟩
  | halted u => exact .inr ⟨u, rfl, by simpa [finish] using h.symm⟩

theorem finish_answers (f : Flow Result) : ∃ t, finish f = .next t := by
  cases f <;> exact ⟨_, rfl⟩

theorem Runs.withResult {α : Type} {s : State} {f : Flow α} (h : Runs s f) (r : α → Result) :
    Runs s (withResult f r) :=
  Runs.andThen h fun _ t => Runs.done _ (.refl t) ⟨rfl, rfl, rfl⟩ rfl rfl rfl

/-! ### The outer iteration -/

theorem applyCeiling_redraw_runs (s : State) (v : Result) : Runs s (.done v s.applyCeiling.redraw) := by
  refine Runs.done v ⟨by simp, by simp, by simp, by simp, by simp, by simp, by simp, fun sp h => by simpa using h⟩ ?_
    (by simp) (by simp) (by simp)
  simp [CountsAgree, List.count_append]
  omega

/-- An iteration that does not stop is a run of quanta and one redraw (R213). -/
theorem outerIteration_runs {s : State} {h : HostInput} (hs : h.stop = false) : Runs s (outerIteration h s) := by
  simp only [outerIteration, hs, Bool.false_eq_true, if_false]
  refine Runs.andThen (Runs.from (drain_runs _ _) ?_ ?_ rfl rfl rfl) fun _ u => applyCeiling_redraw_runs u _
  · exact ⟨rfl, rfl, rfl, rfl, rfl, rfl, List.prefix_refl _, fun _ h => h⟩
  · exact ⟨rfl, rfl, rfl⟩

theorem afterHostInput_runs {α : Type} {s : State} {f : Flow α} (h : Runs s.afterHostInput f) : Runs s f := by
  refine Runs.from h ⟨by simp, by simp, by simp, by simp, by simp, by simp, by simp, fun sp h => by simpa using h⟩
    ?_ (by simp) (by simp) (by simp)
  simp [CountsAgree]

/-! ### Leaving Idle -/

/-- What `EnterRunning` does, from the state it sets up (R212). -/
theorem enterRunning_obeys (s : State) : Obeys s.running (enterRunning s) :=
  Obeys.andThen (callPlain_obeys nested_obeys .cpu (by simp [Event.uncounted]) _) fun _ t _ =>
    callPlain_obeys nested_obeys .ppu (by simp [Event.uncounted]) t

/-- `WiredOK` reads the maps and the parameters alone. -/
theorem wiredOk_congr {s t : State} (hr : t.rdMap = s.rdMap) (hw : t.wrMap = s.wrMap) (hp : t.params = s.params) :
    t.wiredOk = s.wiredOk := by
  unfold State.wiredOk State.readChannelAt State.writeChannelAt
  rw [hr, hw, hp]

@[simp] theorem afterHostInput_wiredOk (s : State) : s.afterHostInput.wiredOk = s.wiredOk :=
  wiredOk_congr (by simp) (by simp) (by simp)

/-- The state in which START enters Running, its path handed to a cartridge that loads (R211). -/
def State.cartIn (s : State) : State :=
  ((s.afterHostInput.afterDraw.recordPath s.hostInput.path).log (.cartLoad true)).loaded

/-- The four ends of START in Idle (R211): not wired, no cartridge, Running, or halted by a fault in a reset. -/
theorem leaveIdle_next {s t : State} (h : finish (leaveIdle s.hostInput.path s.afterHostInput) = .next t) :
    (s.wiredOk = false ∧ t = (s.afterHostInput.abortStart .wiring).ended (some (.sched .stopped))) ∨
    (s.wiredOk = true ∧ s.nextDraw.ok = false ∧
      t = (((s.afterHostInput.afterDraw.recordPath s.hostInput.path).log (.cartLoad false)).abortStart
        .cartLoad).ended (some (.sched .stopped))) ∨
    (s.wiredOk = true ∧ s.nextDraw.ok = true ∧
      ∃ u, enterRunning s.cartIn = .done () u ∧ Settled s.cartIn.running u ∧
        t = u.ended (some (.sched .running))) ∨
    (s.wiredOk = true ∧ s.nextDraw.ok = true ∧
      ∃ u, enterRunning s.cartIn = .halted u ∧ Broken s.cartIn.running u ∧ t = u.ended none) := by
  unfold leaveIdle at h
  rw [afterHostInput_wiredOk] at h
  cases hw : s.wiredOk with
  | false => exact .inl ⟨rfl, by simpa [hw, finish] using h.symm⟩
  | true =>
    simp only [hw, cartLoad, andThen, State.afterHostInput_nextDraw, Bool.true_eq_false, if_false] at h
    cases hd : s.nextDraw.ok with
    | false => exact .inr (.inl ⟨rfl, rfl, by simpa [hd, finish] using h.symm⟩)
    | true =>
      simp only [hd, Bool.true_eq_false, if_false] at h
      change finish (withResult (enterRunning s.cartIn) _) = _ at h
      have ho := enterRunning_obeys s.cartIn
      cases he : enterRunning s.cartIn with
      | done a u =>
        rw [he] at ho h
        exact .inr (.inr (.inl ⟨rfl, rfl, u, rfl, ho, by simpa [withResult, andThen, finish] using h.symm⟩))
      | halted u =>
        rw [he] at ho h
        exact .inr (.inr (.inr ⟨rfl, rfl, u, rfl, ho, by simpa [withResult, andThen, finish] using h.symm⟩))

/-! ### All operations -/

/-- How an operation that has a step can end. -/
theorem exec_cases {i : Instr} {s t : State} (h : exec i s = .next t) :
    (∃ sp a ch, i = .regr sp a (.read ch) ∧ s.inSetup ∧
      (t = s.ended (some (.registered false)) ∨
        t = (s.bindRead sp a ch).ended (some (.registered true)))) ∨
    (∃ sp a ch, i = .regw sp a (.write ch) ∧ s.inSetup ∧
      (t = s.ended (some (.registered false)) ∨
        t = (s.bindWrite sp a ch).ended (some (.registered true)))) ∨
    ((∃ sp a ch, i = .regr sp a ch ∨ i = .regw sp a ch) ∧ s.live ∧
      t = (s.enterFault (.lateRegistration (encode i))).ended none) ∨
    (i = .start ∧ s.inSetup ∧ finish (leaveIdle s.hostInput.path s.afterHostInput) = .next t) ∨
    (i = .iter ∧ s.live ∧ s.hostInput.stop = true ∧
      t = State.ended { s.afterHostInput with sched := .stopped } (some (.count 0))) ∨
    ((∀ sp a ch, i ≠ .regr sp a ch) ∧ (∀ sp a ch, i ≠ .regw sp a ch) ∧ i ≠ .start ∧ s.live ∧
      ∃ f, Runs s f ∧ finish f = .next t) := by
  have run : ∀ {k : State → Flow Result}, (∀ s, Runs s (k s)) → whileRunning s k = .next t →
      s.live ∧ ∃ f, Runs s f ∧ finish f = .next t := fun hk h =>
    ⟨(whileRunning_next h).1, _, hk s, (whileRunning_next h).2⟩
  cases i with
  | regr sp a ch =>
    cases ch with
    | write ch => simp [exec, execRegr] at h
    | read ch =>
      simp only [exec, execRegr] at h
      rcases whileSetup_next h with ⟨hs, hf⟩ | ⟨hs, hf⟩
      · refine .inl ⟨sp, a, ch, rfl, hs, ?_⟩
        split at hf
        · exact .inl (by simpa [finish] using hf.symm)
        · exact .inr (by simpa [finish] using hf.symm)
      · exact .inr (.inr (.inl ⟨⟨sp, a, _, .inl rfl⟩, hs, by simpa [finish, raiseFault] using hf.symm⟩))
  | regw sp a ch =>
    cases ch with
    | read ch => simp [exec, execRegw] at h
    | write ch =>
      simp only [exec, execRegw] at h
      rcases whileSetup_next h with ⟨hs, hf⟩ | ⟨hs, hf⟩
      · refine .inr (.inl ⟨sp, a, ch, rfl, hs, ?_⟩)
        split at hf
        · exact .inl (by simpa [finish] using hf.symm)
        · exact .inr (by simpa [finish] using hf.symm)
      · exact .inr (.inr (.inl ⟨⟨sp, a, _, .inr rfl⟩, hs, by simpa [finish, raiseFault] using hf.symm⟩))
  | start =>
    refine .inr (.inr (.inr (.inl ?_)))
    simp only [exec, execStart] at h
    split at h
    · cases h
    · split at h
      · cases h
      · exact ⟨rfl, ⟨by simpa using ‹¬s.sched ≠ .idle›, by simpa using ‹¬s.fault ≠ none›⟩, h⟩
  | iter =>
    simp only [exec, execIter] at h
    obtain ⟨hl, hf⟩ := whileRunning_next h
    cases hs : s.hostInput.stop with
    | true =>
      refine .inr (.inr (.inr (.inr (.inl ⟨rfl, hl, rfl, ?_⟩))))
      simpa [outerIteration, hs, finish] using hf.symm
    | false =>
      refine .inr (.inr (.inr (.inr (.inr ⟨by simp, by simp, by simp, hl, _, ?_, hf⟩))))
      exact afterHostInput_runs (outerIteration_runs hs)
  | rd sp a =>
    simp only [exec, execRd] at h
    exact .inr (.inr (.inr (.inr (.inr ⟨by simp, by simp, by simp,
      run (fun s => (dispatchRead_obeys nested_obeys sp a s).runs.withResult _) h⟩))))
  | wr sp a v =>
    simp only [exec, execWr] at h
    exact .inr (.inr (.inr (.inr (.inr ⟨by simp, by simp, by simp,
      run (fun s => (dispatchWrite_obeys nested_obeys sp a v s).runs.withResult _) h⟩))))
  | page p =>
    simp only [exec, execPage] at h
    exact .inr (.inr (.inr (.inr (.inr ⟨by simp, by simp, by simp,
      run (fun s => (pageView_obeys p s).runs.withResult _) h⟩))))
  | dmax p =>
    simp only [exec, execDmax] at h
    exact .inr (.inr (.inr (.inr (.inr ⟨by simp, by simp, by simp,
      run (fun s => (dmaTransfer_obeys nested_obeys p s).runs.withResult _) h⟩))))
  | raise k =>
    simp only [exec, execRaise] at h
    refine .inr (.inr (.inr (.inr (.inr ⟨by simp, by simp, by simp, run (fun s => ?_) h⟩))))
    exact Runs.done _ ⟨rfl, rfl, rfl, rfl, rfl, rfl, List.prefix_refl _, fun _ h => h⟩ ⟨rfl, rfl, rfl⟩ rfl rfl rfl
  | consume =>
    simp only [exec, execConsume] at h
    refine .inr (.inr (.inr (.inr (.inr ⟨by simp, by simp, by simp, run (fun s => ?_) h⟩))))
    exact Runs.done _ ⟨rfl, rfl, rfl, rfl, rfl, rfl, List.prefix_refl _, fun _ h => h⟩ ⟨rfl, rfl, rfl⟩ rfl rfl rfl
  | quantum =>
    simp only [exec, execQuantum] at h
    exact .inr (.inr (.inr (.inr (.inr ⟨by simp, by simp, by simp,
      run (fun s => (quantum_runs s).withResult _) h⟩))))
  | ppuslot =>
    simp only [exec, execPpuslot] at h
    exact .inr (.inr (.inr (.inr (.inr ⟨by simp, by simp, by simp,
      run (fun s => (ppuSlot_runs s).withResult _) h⟩))))
  | cpuslot =>
    simp only [exec, execCpuslot] at h
    exact .inr (.inr (.inr (.inr (.inr ⟨by simp, by simp, by simp,
      run (fun s => (cpuSlot_runs s).withResult _) h⟩))))

end Sys2Proof.Machine
end

