-- ==== Sys2Proof/Laws/Marks.lean ====
section
/-! SUPPORT. No operation reads `phase` or `result` (R27, log entry 9): run from a state with other values of them, an
operation does the same. -/

namespace Sys2Proof.Machine

/-- A state with other values of the two fields that no operation reads. -/
def State.marked (s : State) (p : Phase) (r : Option Result) : State := { s with phase := p, result := r }

/-- An inner operation with the state it ends in changed. -/
def Flow.map {α : Type} (g : State → State) : Flow α → Flow α
  | .done a s => .done a (g s)
  | .halted s => .halted (g s)

/-- An inner operation that neither reads nor writes the two fields. -/
def Blind {α : Type} (f : State → Flow α) : Prop := ∀ p r s, f (s.marked p r) = (f s).map (·.marked p r)

def NestBlind (nest : Nested) : Prop := ∀ ag acts, Blind (nest ag acts)

theorem marked_self (s : State) : s.marked s.phase s.result = s := rfl

theorem andThen_map {α β : Type} {m : Flow α} {k : α → State → Flow β} {g : State → State}
    (hk : ∀ a t, k a (g t) = (k a t).map g) : andThen (m.map g) k = (andThen m k).map g := by
  cases m with
  | done a t => exact hk a t
  | halted t => rfl

theorem Blind.andThen {α β : Type} {m : State → Flow α} {k : α → State → Flow β} (hm : Blind m)
    (hk : ∀ a, Blind (k a)) : Blind fun s => andThen (m s) k := fun p r s => by
  simp only [hm p r s]
  exact andThen_map fun a t => hk a p r t

theorem afterDraw_marked (s : State) (p : Phase) (r : Option Result) :
    (s.marked p r).afterDraw = s.afterDraw.marked p r := by
  unfold State.afterDraw State.marked
  cases s.script <;> rfl

theorem cartRead_blind (sp : Space) (a : Addr) : Blind (cartRead sp a) := fun p r s => by
  simp only [cartRead, afterDraw_marked]
  rfl

theorem pageBytes_blind (l : List Addr) : Blind (pageBytes l) := by
  induction l with
  | nil => exact fun _ _ _ => rfl
  | cons a rest ih =>
    have h1 : Blind fun s : State => if s.inWindow .cpu a ∧ s.params.pagePolicy = .cartridge then cartRead .cpu a s
        else .done (s.raw .cpu a) s := fun p r s => by
      by_cases hc : s.inWindow .cpu a ∧ s.params.pagePolicy = .cartridge
      · simp only [if_pos hc]
        rw [if_pos (by exact hc)]
        exact cartRead_blind _ _ p r s
      · simp only [if_neg hc]
        rw [if_neg (by exact hc)]
        rfl
    exact Blind.andThen h1 fun v => Blind.andThen ih fun vs => fun _ _ _ => rfl

theorem pageView_blind (p : Byte) : Blind (pageView p) := fun ph r s => by
  unfold pageView
  by_cases hc : s.pageMeetsWindow p = true ∧ s.params.pagePolicy = .fault
  · rw [if_pos hc, if_pos (by exact hc)]
    rfl
  · rw [if_neg hc, if_neg (by exact hc)]
    exact pageBytes_blind _ ph r s

section
variable {nest : Nested} (hn : NestBlind nest)
include hn

theorem callPlain_blind (ag : Agent) (e : Event) : Blind (callPlain nest ag e) := fun p r s => by
  unfold callPlain
  rw [afterDraw_marked]
  exact hn ag s.nextDraw.acts p r (s.afterDraw.log e)

theorem callByte_blind (ag : Agent) (e : Option Byte → Event) : Blind (callByte nest ag e) := fun p r s => by
  unfold callByte
  rw [afterDraw_marked]
  rw [show nest ag (s.marked p r).nextDraw.acts ((s.afterDraw.marked p r).log (e none)) =
    (nest ag s.nextDraw.acts (s.afterDraw.log (e none))).map (·.marked p r) from hn ag _ p r (s.afterDraw.log (e none))]
  exact andThen_map fun _ _ => rfl

theorem dmaTransfer_blind (p : Byte) : Blind (dmaTransfer nest p) :=
  Blind.andThen (pageView_blind p) fun _ => Blind.andThen (callPlain_blind hn _ _) fun _ => fun _ _ _ => rfl

theorem readAction_blind (ch : ReadChannel) : Blind (readAction nest ch) := by
  cases ch with
  | joy2 => exact fun _ _ _ => rfl
  | _ => exact callByte_blind hn _ _

theorem writeAction_blind (ch : WriteChannel) (v : Byte) : Blind (writeAction nest ch v) := by
  cases ch with
  | dma => exact Blind.andThen (dmaTransfer_blind hn v) fun _ => fun _ _ _ => rfl
  | _ => exact callPlain_blind hn _ _

theorem invokeRead_blind (sp : Space) (ch : ReadChannel) : Blind (invokeRead nest sp ch) := fun p r s =>
  Eq.trans (congrArg (andThen · _) (readAction_blind hn ch p r (s.setBusy sp true))) (andThen_map fun _ _ => rfl)

theorem invokeWrite_blind (sp : Space) (ch : WriteChannel) (v : Byte) : Blind (invokeWrite nest sp ch v) :=
  fun p r s =>
    Eq.trans (congrArg (andThen · _) (writeAction_blind hn ch v p r (s.setBusy sp true))) (andThen_map fun _ _ => rfl)

theorem dispatchRead_blind (sp : Space) (a : Addr) : Blind (dispatchRead nest sp a) := fun p r s => by
  unfold dispatchRead
  by_cases hb : s.busy.get sp = true
  · rw [if_pos hb, if_pos (by exact hb)]
    rfl
  · rw [if_neg hb, if_neg (by exact hb), show (s.marked p r).readClass sp a = s.readClass sp a from rfl]
    cases s.readClass sp a with
    | intercepted ch => exact invokeRead_blind hn sp ch p r s
    | cartridge => exact cartRead_blind sp a p r s
    | backing => rfl

theorem dispatchWrite_blind (sp : Space) (a : Addr) (v : Byte) : Blind (dispatchWrite nest sp a v) := fun p r s => by
  unfold dispatchWrite
  by_cases hb : s.busy.get sp = true
  · rw [if_pos hb, if_pos (by exact hb)]
    rfl
  · rw [if_neg hb, if_neg (by exact hb), show (s.marked p r).writeClass sp a = s.writeClass sp a from rfl]
    cases s.writeClass sp a with
    | intercepted ch => exact invokeWrite_blind hn sp ch v p r s
    | cartridge => rfl
    | backing => rfl

theorem perform_blind (act : Act) : Blind (perform nest act) :=
  match act with
  | .raise => fun _ _ _ => rfl
  | .access sp (.rd a) => Blind.andThen (dispatchRead_blind hn sp a) fun _ => fun _ _ _ => rfl
  | .access sp (.wr a v) => dispatchWrite_blind hn sp a v

theorem issue_blind (ag : Agent) (act : Act) : Blind (issue nest ag act) := fun p r s => by
  unfold issue
  rw [show mayIssue ag act (s.marked p r) = mayIssue ag act s from rfl]
  cases mayIssue ag act s with
  | true => exact perform_blind hn act p r s
  | false => rfl

theorem runActs_blind (ag : Agent) (acts : List Act) : Blind (runActs nest ag acts) := by
  induction acts with
  | nil => exact fun _ _ _ => rfl
  | cons act rest ih => exact Blind.andThen (issue_blind hn ag act) fun _ => ih

end

theorem nestedTo_blind (n : Nat) : NestBlind (nestedTo n) := by
  induction n with
  | zero => exact fun _ _ _ _ _ => rfl
  | succ n ih => exact fun ag acts => runActs_blind ih ag acts

theorem nested_blind : NestBlind nested := nestedTo_blind 3

theorem ppuSlot_blind : Blind ppuSlot := fun p r s => by
  unfold ppuSlot
  rw [callPlain_blind nested_blind .ppu .ppuStep p r s]
  cases callPlain nested .ppu .ppuStep s with
  | done _ t => rfl
  | halted t => cases Config.countsHaltedPpuStep <;> rfl

theorem deliver_blind : Blind deliver := fun p r s => by
  unfold deliver
  rw [show (s.marked p r).line = s.line from rfl]
  cases s.line with
  | none => rfl
  | some k => exact callPlain_blind nested_blind .cpu (.cpuInterrupt k) p r s.clearLine

theorem cpuSlot_blind : Blind cpuSlot := fun p r s => by
  unfold cpuSlot
  by_cases hd : s.dmaStall > 0
  · rw [if_pos hd, if_pos (by exact hd)]
    rfl
  · rw [if_neg hd, if_neg (by exact hd), callPlain_blind nested_blind .cpu .cpuStep p r s]
    cases callPlain nested .cpu .cpuStep s with
    | done _ t => exact deliver_blind p r t.countCpuStep
    | halted t => rfl

end Sys2Proof.Machine
end

