-- ==== Sys2Proof/Laws/Nesting.lean ====
section
/-! SUPPORT. How deep collaborator calls can nest (R79, R139): a channel action holds its space busy, so no deeper than
there are free spaces. -/

namespace Sys2Proof.Machine

/-- How many spaces are not busy. -/
def State.freeSpaces (s : State) : Nat := (!s.busy.cpu).toNat + (!s.busy.ppu).toNat

theorem freeSpaces_le (s : State) : s.freeSpaces ≤ 2 := by
  unfold State.freeSpaces
  cases s.busy.cpu <;> cases s.busy.ppu <;> decide

theorem freeSpaces_congr {s t : State} (h : t.busy = s.busy) : t.freeSpaces = s.freeSpaces := by
  simp only [State.freeSpaces, h]

theorem freeSpaces_setBusy {s : State} {sp : Space} (h : s.busy.get sp = false) :
    (s.setBusy sp true).freeSpaces + 1 = s.freeSpaces := by
  cases sp <;> simp only [PerSpace.get] at h <;> simp [State.freeSpaces, PerSpace.set, h, Nat.add_comm]

section
variable {m n : Nested} {s : State} (h : ∀ ag acts t, t.busy = s.busy → m ag acts t = n ag acts t)
include h

theorem readAction_congr (ch : ReadChannel) : readAction m ch s = readAction n ch s := by
  cases ch <;> simp only [readAction, callByte] <;> rw [h] <;> simp

theorem dmaTransfer_congr (p : Byte) : dmaTransfer m p s = dmaTransfer n p s := by
  unfold dmaTransfer
  have ho := pageView_obeys p s
  cases hp : pageView p s with
  | halted t => rfl
  | done v t =>
    rw [hp] at ho
    simp only [andThen, callPlain]
    rw [h]
    simp [ho.busy]

theorem writeAction_congr (ch : WriteChannel) (v : Byte) : writeAction m ch v s = writeAction n ch v s := by
  cases ch <;> simp only [writeAction, callPlain]
  case dma => rw [dmaTransfer_congr h]
  all_goals rw [h]; simp

end

/-- The calls inside an access have one space less to nest in. -/
theorem perform_congr {m n : Nested} {s : State}
    (h : ∀ ag acts t, t.freeSpaces + 1 = s.freeSpaces → m ag acts t = n ag acts t) (act : Act) :
    perform m act s = perform n act s := by
  have inside : ∀ {sp : Space}, ¬s.busy.get sp = true →
      ∀ ag acts t, t.busy = (s.setBusy sp true).busy → m ag acts t = n ag acts t := fun hb ag acts t ht =>
    h ag acts t (by rw [freeSpaces_congr ht]; exact freeSpaces_setBusy (by simpa using hb))
  match act with
  | .raise => rfl
  | .access sp (.rd a) =>
    simp only [perform, dispatchRead, invokeRead]
    split
    · rfl
    · split
      · rw [readAction_congr (inside (by assumption))]
      · rfl
      · rfl
  | .access sp (.wr a v) =>
    simp only [perform, dispatchWrite, invokeWrite]
    split
    · rfl
    · split
      · rw [writeAction_congr (inside (by assumption))]
      · rfl
      · rfl

/-- A depth beyond the free spaces changes nothing. -/
theorem nestedTo_succ {k : Nat} {s : State} (hs : s.freeSpaces < k) (ag : Agent) (acts : List Act) :
    nestedTo (k + 1) ag acts s = nestedTo k ag acts s := by
  induction k generalizing ag acts s with
  | zero => omega
  | succ k ih =>
    change runActs (nestedTo (k + 1)) ag acts s = runActs (nestedTo k) ag acts s
    induction acts generalizing s with
    | nil => rfl
    | cons act rest ihr =>
      have h1 : issue (nestedTo (k + 1)) ag act s = issue (nestedTo k) ag act s := by
        unfold issue
        rw [perform_congr fun ag acts t ht => ih (by omega) ag acts]
      have ho := issue_obeys (nestedTo_obeys k) ag act s
      simp only [runActs, h1]
      cases hi : issue (nestedTo k) ag act s with
      | halted t => rfl
      | done _ t =>
        rw [hi] at ho
        exact ihr (by rw [freeSpaces_congr ho.busy]; exact hs)

/-- An access issued inside a call is the same operation as the host's: the depth it has left is enough. -/
theorem perform_nested (act : Act) (s : State) : perform (nestedTo 2) act s = perform nested act s :=
  perform_congr (fun ag acts t ht => (nestedTo_succ (by have := freeSpaces_le s; omega) ag acts).symm) act

end Sys2Proof.Machine
end

