-- ==== Sys2Proof/Laws/Issued.lean ====
section
/-! SUPPORT. What a collaborator issues inside a call is performed, and is what the host's own operations would
do, one after another (R79, R131, R139). -/

namespace Sys2Proof.Machine

theorem mayIssue_of_issuedBy {ag : Agent} {act : Act} (h : issuedBy ag act) (s : State) :
    mayIssue ag act s = true := by
  cases ag with
  | cpu =>
    obtain ⟨x, rfl⟩ := h
    cases x <;> simp [mayIssue, Agent.reaches]
  | ppu =>
    rcases h with rfl | ⟨x, rfl⟩
    · simp [mayIssue]
    · cases x <;> simp [mayIssue, Agent.reaches]
  | input =>
    obtain ⟨sp, x, rfl⟩ := h
    cases x <;> cases sp <;> simp [mayIssue, Agent.reaches]

/-- One operation: the host's ends in the state the collaborator's leaves, but for the two fields no operation reads. -/
theorem exec_actInstr {s t : State} (act : Act) (hl : s.live) (h : exec (actInstr act) s = .next t) :
    (∃ u, perform nested act s = .done () u ∧ ∃ r, t = u.ended r) ∨
      ∃ u, perform nested act s = .halted u ∧ t = u.ended none := by
  match act with
  | .raise =>
    simp only [actInstr, exec, execRaise, whileRunning_live hl, finish] at h
    exact .inl ⟨_, rfl, _, by injection h with h; exact h.symm⟩
  | .access sp (.rd a) =>
    simp only [actInstr, exec, execRd, whileRunning_live hl] at h
    simp only [perform]
    cases hd : dispatchRead nested sp a s with
    | done v u =>
      rw [hd] at h
      exact .inl ⟨u, rfl, _, by injection h with h; exact h.symm⟩
    | halted u =>
      rw [hd] at h
      exact .inr ⟨u, rfl, by injection h with h; exact h.symm⟩
  | .access sp (.wr a v) =>
    simp only [actInstr, exec, execWr, whileRunning_live hl] at h
    simp only [perform]
    cases hd : dispatchWrite nested sp a v s with
    | done _ u =>
      rw [hd] at h
      exact .inl ⟨u, rfl, _, by injection h with h; exact h.symm⟩
    | halted u =>
      rw [hd] at h
      exact .inr ⟨u, rfl, by injection h with h; exact h.symm⟩

/-- The operations of a call, as the host's own run of them. -/
theorem runActs_issued {ag : Agent} {acts : List Act} {s t : State} (hi : ∀ act ∈ acts, issuedBy ag act) (hl : s.live)
    (h : runInstrs (acts.map actInstr) s = .next t) :
    (t.fault = none → nested ag acts s = .done () (t.marked s.phase s.result)) ∧
      (t.fault ≠ none → ∀ more, nested ag (acts ++ more) s = .halted (t.marked s.phase s.result)) := by
  change (t.fault = none → runActs (nestedTo 2) ag acts s = _) ∧
    (t.fault ≠ none → ∀ more, runActs (nestedTo 2) ag (acts ++ more) s = _)
  induction acts generalizing s with
  | nil =>
    injection h with h
    subst h
    exact ⟨fun _ => rfl, fun hf => absurd hl.2 hf⟩
  | cons act rest ih =>
    have hp : issue (nestedTo 2) ag act s = perform nested act s := by
      rw [issue, mayIssue_of_issuedBy (hi act (by simp)), if_pos rfl, perform_nested]
    have ho := perform_obeys nested_obeys act s
    simp only [List.map_cons, runInstrs] at h
    cases he : exec (actInstr act) s with
    | fault f => rw [he] at h; cases h
    | refused r => rw [he] at h; cases h
    | next u =>
      rw [he] at h
      rcases exec_actInstr act hl he with ⟨v, hv, r, rfl⟩ | ⟨v, hv, rfl⟩
      · rw [hv] at ho hp
        obtain ⟨k1, k2⟩ := ih (fun a ha => hi a (by simp [ha])) ⟨by simp [ho.sched, hl.1], by simp [ho.fault, hl.2]⟩ h
        have back : ∀ acts, runActs (nestedTo 2) ag acts v =
            (runActs (nestedTo 2) ag acts (v.ended r)).map (·.marked s.phase s.result) := fun acts => by
          rw [← runActs_blind (nestedTo_blind 2) ag acts s.phase s.result (v.ended r),
            ← ho.toWithin.phase, ← ho.toWithin.result]
          rfl
        refine ⟨fun hf => ?_, fun hf more => ?_⟩
        · simp only [runActs, hp, andThen, back, k1 hf]
          rfl
        · simp only [List.cons_append, runActs, hp, andThen, back, k2 hf more]
          rfl
      · rw [hv] at ho hp
        have hf : (v.ended none).fault ≠ none := ho.fault
        cases rest with
        | cons b rest =>
          simp only [List.map_cons, runInstrs] at h
          have : ∃ r, exec (actInstr b) (v.ended none) = .refused r := by
            match b with
            | .raise => exact ⟨.afterFault, by simp only [actInstr, exec, execRaise, whileRunning, if_pos hf]⟩
            | .access sp (.rd a) => exact ⟨.afterFault, by simp only [actInstr, exec, execRd, whileRunning, if_pos hf]⟩
            | .access sp (.wr a w) => exact ⟨.afterFault, by simp only [actInstr, exec, execWr, whileRunning, if_pos hf]⟩
          obtain ⟨r, hr⟩ := this
          rw [hr] at h
          cases h
        | nil =>
          injection h with h
          subst h
          refine ⟨fun hn => absurd hn hf, fun _ more => ?_⟩
          simp only [List.cons_append, runActs, hp, andThen]
          rw [← ho.toWithin.phase, ← ho.toWithin.result]
          rfl

/-- A call with what the collaborator issues inside it, from the host's own run of that; the two fields that no operation
reads may differ. -/
theorem callPlain_issued {ag : Agent} {e : Event} {s t : State} {xs more : List Act} {p : Phase} {r : Option Result}
    (hl : s.live) (hd : s.nextDraw.acts = xs ++ more) (hi : ∀ act ∈ xs, issuedBy ag act)
    (h : runInstrs (xs.map actInstr) ((s.afterDraw.log e).marked p r) = .next t) :
    (more = [] → t.fault = none → callPlain nested ag e s = .done () (t.marked s.phase s.result)) ∧
      (t.fault ≠ none → callPlain nested ag e s = .halted (t.marked s.phase s.result)) := by
  obtain ⟨k1, k2⟩ := runActs_issued hi ⟨by simpa [State.marked] using hl.1, by simpa [State.marked] using hl.2⟩ h
  have back : callPlain nested ag e s =
      (nested ag (xs ++ more) ((s.afterDraw.log e).marked p r)).map (·.marked s.phase s.result) := by
    rw [← nested_blind ag (xs ++ more) s.phase s.result, callPlain, hd]
    congr 1
    change _ = (s.afterDraw.log e).marked s.phase s.result
    rw [show s.phase = (s.afterDraw.log e).phase by simp, show s.result = (s.afterDraw.log e).result by simp]
    rfl
  refine ⟨fun hm hf => ?_, fun hf => ?_⟩
  · rw [back, hm, List.append_nil, k1 hf]
    rfl
  · rw [back, k2 hf]
    rfl

end Sys2Proof.Machine
end

