-- ==== Sys2Proof/Laws/Pages.lean ====
section
/-! SUPPORT. What a page view reads (R140): the backing bytes where the policy asks nobody, and the cartridge's answers
inside its window under the policy `cartridge`. -/

namespace Sys2Proof.Machine

/-- Where no byte is asked of the cartridge, the bytes are the backing bytes and nothing changes. -/
theorem pageBytes_raw {l : List Addr} {s : State}
    (h : ∀ a ∈ l, ¬(s.inWindow .cpu a = true ∧ s.params.pagePolicy = .cartridge)) :
    pageBytes l s = .done (l.map (s.raw .cpu)) s := by
  induction l with
  | nil => rfl
  | cons a rest ih =>
    simp only [pageBytes, if_neg (h a (by simp)), andThen, ih fun b hb => h b (by simp [hb])]
    rfl

/-- The window test of R140, byte by byte. -/
theorem pageMeetsWindow_iff (s : State) (p : Byte) :
    s.pageMeetsWindow p = true ↔ ∃ k, k < 256 ∧ s.inWindow .cpu (BitVec.ofNat 16 (p.toNat * 256 + k)) = true := by
  simp [State.pageMeetsWindow, pageAddrs, pageAddr]

/-- Taking a draw and setting a busy flag commute. -/
theorem afterDraw_setBusy (s : State) (sp : Space) (b : Bool) :
    (s.setBusy sp b).afterDraw = s.afterDraw.setBusy sp b := by
  unfold State.afterDraw State.setBusy
  cases s.script <;> rfl

/-- A page view neither reads nor writes a busy flag (R140): the DMA_W channel, which holds its space busy, sees the view
that PAGE answers. -/
theorem pageBytes_setBusy {l : List Addr} {s t : State} {vs : List Byte} (h : pageBytes l s = .done vs t) (sp : Space)
    (b : Bool) : pageBytes l (s.setBusy sp b) = .done vs (t.setBusy sp b) := by
  induction l generalizing s t vs with
  | nil => cases h; rfl
  | cons a rest ih =>
    obtain ⟨v, u, h1, h2⟩ := andThen_done h
    obtain ⟨ws, w, h3, h4⟩ := andThen_done h2
    cases h4
    have h0 : (if (s.setBusy sp b).inWindow .cpu a ∧ (s.setBusy sp b).params.pagePolicy = .cartridge
        then cartRead .cpu a (s.setBusy sp b) else .done ((s.setBusy sp b).raw .cpu a) (s.setBusy sp b)) =
        Flow.done v (u.setBusy sp b) := by
      by_cases hc : s.inWindow .cpu a ∧ s.params.pagePolicy = .cartridge
      · rw [if_pos hc] at h1
        rw [if_pos (by exact hc)]
        cases h1
        simp only [cartRead, afterDraw_setBusy]
        rfl
      · rw [if_neg hc] at h1
        rw [if_neg (by exact hc)]
        cases h1
        rfl
    simp only [pageBytes, h0, andThen, ih h3]

theorem pageView_setBusy {p : Byte} {s t : State} {view : List Byte} (h : pageView p s = .done view t) (sp : Space)
    (b : Bool) : pageView p (s.setBusy sp b) = .done view (t.setBusy sp b) := by
  unfold pageView at h ⊢
  split at h
  · cases h
  · rename_i hc
    rw [if_neg (by exact hc)]
    exact pageBytes_setBusy h sp b

end Sys2Proof.Machine
end

