-- ==== Sys2Proof/Laws/PerInstr.lean ====
section
/-! SUPPORT. For every operation: the word the encoder gives it has the fixed bits of its row of spec/opcode_table.json
(its mask and match), whatever its operands. -/

namespace Sys2Proof.Laws.TableRow

/-- The mask of an operation's row. -/
def mask : Instr → Word
  | .regr _ _ _ => 0xF7000000#32
  | .regw _ _ _ => 0xF7000000#32
  | .rd _ _ => 0xF70000FF#32
  | .wr _ _ _ => 0xF7000000#32
  | .page _ => 0xFFFFFF00#32
  | .dmax _ => 0xFFFFFF00#32
  | .raise _ => 0xFFFFFFFF#32
  | .consume => 0xFFFFFFFF#32
  | .start => 0xFFFFFFFF#32
  | .iter => 0xFFFFFFFF#32
  | .quantum => 0xFFFFFFFF#32
  | .ppuslot => 0xFFFFFFFF#32
  | .cpuslot => 0xFFFFFFFF#32

/-- The match of an operation's row. -/
def pattern : Instr → Word
  | .regr _ _ _ => 0x10000000#32
  | .regw _ _ _ => 0x20000000#32
  | .rd _ _ => 0x30000000#32
  | .wr _ _ _ => 0x40000000#32
  | .page _ => 0x50000000#32
  | .dmax _ => 0x60000000#32
  | .raise _ => 0x70000000#32
  | .consume => 0x80000000#32
  | .start => 0x90000000#32
  | .iter => 0xA0000000#32
  | .quantum => 0xB0000000#32
  | .ppuslot => 0xC0000000#32
  | .cpuslot => 0xD0000000#32

/-- The encoder's word of an operation matches the operation's row. -/
def Statement (i : Instr) : Prop := encode i &&& mask i = pattern i

/-- The mask of a row acts on a word field by field. -/
theorem wordOf_and (op op' : BitVec 4) (s s' : BitVec 1) (a a' : Addr) (d d' : Byte) :
    wordOf op s a d &&& (op' ++ (s' ++ (0x7#3 ++ (a' ++ d'))) : Word) =
      wordOf (op &&& op') (s &&& s') (a &&& a') (d &&& d') := by
  unfold wordOf
  rw [BitVec.and_append (w := 4) (v := 28), BitVec.and_append (w := 1) (v := 27),
    BitVec.and_append (w := 3) (v := 24), BitVec.and_append (w := 16) (v := 8)]
  rfl

theorem and_ones (op : BitVec 4) : op &&& 0xF#4 = op := by decide +revert

/-- Under the mask 0xF7000000 a word keeps its operation alone. -/
theorem wordOf_and_op (op : BitVec 4) (s : BitVec 1) (a : Addr) (d : Byte) :
    wordOf op s a d &&& 0xF7000000#32 = wordOf op 0#1 0#16 0#8 := by
  have h := wordOf_and op 0xF#4 s 0#1 a 0#16 d 0#8
  simp only [and_ones, BitVec.and_zero] at h
  exact h

theorem regr (sp : Space) (a : Addr) (ch : Channel) : Statement (.regr sp a ch) :=
  (wordOf_and_op _ _ _ _).trans (by rfl)

theorem regw (sp : Space) (a : Addr) (ch : Channel) : Statement (.regw sp a ch) :=
  (wordOf_and_op _ _ _ _).trans (by rfl)

theorem rd (sp : Space) (a : Addr) : Statement (.rd sp a) := by
  have h := wordOf_and 0x3#4 0xF#4 (spaceBit sp) 0#1 a 0#16 0#8 0xFF#8
  simp only [and_ones, BitVec.and_zero, BitVec.zero_and] at h
  exact h

theorem wr (sp : Space) (a : Addr) (v : Byte) : Statement (.wr sp a v) :=
  (wordOf_and_op _ _ _ _).trans (by rfl)

/-- Under the mask 0xFFFFFF00 a word with `S` and `A` zero keeps its operation alone. -/
theorem wordOf_and_byte (op : BitVec 4) (d : Byte) :
    wordOf op 0#1 0#16 d &&& 0xFFFFFF00#32 = wordOf op 0#1 0#16 0#8 := by
  have h := wordOf_and op 0xF#4 0#1 1#1 0#16 0xFFFF#16 d 0#8
  simp only [and_ones, BitVec.and_zero, BitVec.zero_and] at h
  exact h

theorem page (p : Byte) : Statement (.page p) := (wordOf_and_byte _ _).trans (by rfl)

theorem dmax (p : Byte) : Statement (.dmax p) := (wordOf_and_byte _ _).trans (by rfl)

theorem raise (k : Kind) : Statement (.raise k) := by cases k; rfl

theorem consume : Statement .consume := by rfl

theorem start : Statement .start := by rfl

theorem iter : Statement .iter := by rfl

theorem quantum : Statement .quantum := by rfl

theorem ppuslot : Statement .ppuslot := by rfl

theorem cpuslot : Statement .cpuslot := by rfl

end Sys2Proof.Laws.TableRow
end

