-- ==== Sys2Proof/Laws/PpuCalls.lean ====
section
/-! SUPPORT. What the PPU can do from inside a call when no interceptor is bound in its space (R62(d), R264): it
reaches only its own space and the latch, so it can neither fault nor touch the CPU's space or the stall. -/

namespace Sys2Proof.Machine

/-- What the PPU leaves as it was. -/
structure PpuOnly (s t : State) : Prop where
  memCpu : t.mem.cpu = s.mem.cpu
  dmaStall : t.dmaStall = s.dmaStall
  dmaCount : t.dmaCount = s.dmaCount
  interrupts : t.events.count (.cpuInterrupt .nmi) = s.events.count (.cpuInterrupt .nmi)
  line : t.line = s.line ∨ t.line = some .nmi
  busy : t.busy = s.busy
  rdMap : t.rdMap = s.rdMap
  wrMap : t.wrMap = s.wrMap

theorem PpuOnly.refl (s : State) : PpuOnly s s := ⟨rfl, rfl, rfl, rfl, .inl rfl, rfl, rfl, rfl⟩

theorem PpuOnly.trans {s t u : State} (h : PpuOnly s t) (k : PpuOnly t u) : PpuOnly s u :=
  ⟨k.memCpu.trans h.memCpu, k.dmaStall.trans h.dmaStall, k.dmaCount.trans h.dmaCount,
    k.interrupts.trans h.interrupts, by rcases k.line with k | k <;> rcases h.line with h | h <;> simp_all,
    k.busy.trans h.busy, k.rdMap.trans h.rdMap, k.wrMap.trans h.wrMap⟩

theorem issue_ppuOnly (nest : Nested) (act : Act) {s : State} (hb : s.unbusy) (hr : s.rdMap.ppu = [])
    (hw : s.wrMap.ppu = []) : ∃ t, issue nest .ppu act s = .done () t ∧ PpuOnly s t := by
  match act with
  | .raise =>
    refine ⟨s.raiseLine .nmi, by simp [issue, mayIssue, perform], rfl, rfl, rfl, rfl, ?_, rfl, rfl, rfl⟩
    cases hl : s.line <;> simp [hl]
  | .access .cpu x => exact ⟨s, by cases x <;> simp [issue, mayIssue, Agent.reaches, hb, PerSpace.get], .refl s⟩
  | .access .ppu (.rd a) =>
    cases hin : s.inWindow .ppu a with
    | true =>
      refine ⟨s.afterDraw.log (.cartRead .ppu a s.nextDraw.byte), ?_, by simp, by simp, by simp,
        by simp [List.count_append], .inl (by simp), by simp, by simp, by simp⟩
      simp [issue, mayIssue, Agent.reaches, perform, dispatchRead, State.readClass, State.readChannelAt, PerSpace.get,
        hr, cellFind, classOf, hb, hin, cartRead, andThen]
    | false =>
      refine ⟨s, ?_, .refl s⟩
      simp [issue, mayIssue, Agent.reaches, perform, dispatchRead, State.readClass, State.readChannelAt, PerSpace.get,
        hr, cellFind, classOf, hb, hin, andThen]
  | .access .ppu (.wr a v) =>
    cases hin : s.inWindow .ppu a with
    | true =>
      refine ⟨s.log (.cartWrite .ppu a v), ?_, rfl, rfl, rfl, by simp [List.count_append], .inl rfl, rfl, rfl, rfl⟩
      simp [issue, mayIssue, Agent.reaches, perform, dispatchWrite, State.writeClass, State.writeChannelAt,
        PerSpace.get, hw, cellFind, classOf, hb, hin, cartWrite]
    | false =>
      refine ⟨s.rawWrite .ppu a v, ?_, rfl, rfl, rfl, rfl, .inl rfl, rfl, rfl, rfl⟩
      simp [issue, mayIssue, Agent.reaches, perform, dispatchWrite, State.writeClass, State.writeChannelAt,
        PerSpace.get, hw, cellFind, classOf, hb, hin]

/-- Whatever the PPU issues inside a call completes and leaves the CPU's side alone. -/
theorem runActs_ppuOnly (nest : Nested) (acts : List Act) {s : State} (hb : s.unbusy) (hr : s.rdMap.ppu = [])
    (hw : s.wrMap.ppu = []) : ∃ t, runActs nest .ppu acts s = .done () t ∧ PpuOnly s t := by
  induction acts generalizing s with
  | nil => exact ⟨s, rfl, .refl s⟩
  | cons act rest ih =>
    obtain ⟨t, h1, h2⟩ := issue_ppuOnly nest act hb hr hw
    obtain ⟨u, k1, k2⟩ := ih (s := t) (h2.busy.trans hb) (by rw [h2.rdMap, hr]) (by rw [h2.wrMap, hw])
    exact ⟨u, by simp [runActs, h1, andThen, k1], h2.trans k2⟩

end Sys2Proof.Machine
end

