-- ==== Sys2Proof/Laws/Resets.lean ====
section
/-! SUPPORT. What the resets of START leave alone when they issue no WR (R212, R292): then no byte of memory changes. -/

namespace Sys2Proof.Machine

theorem Takes.extend {s t u : State} {d : Draw} (h : Within t u) (hd : Takes s t d) : Takes s u d := by
  obtain ⟨more, hm⟩ := h.draws.1
  rcases hd with ⟨taken, hs, ht⟩ | ⟨k, h1, h2, h3⟩
  · exact .inl ⟨taken ++ more, by rw [hs, ← hm, List.append_assoc], List.mem_append_left _ ht⟩
  · exact .inr ⟨k, h1, Nat.lt_of_lt_of_le h2 h.draws.2, h3⟩

theorem Takes.after {s t u : State} {d : Draw} (h : t.script <:+ s.script ∧ s.drawn ≤ t.drawn) (hd : Takes t u d) :
    Takes s u d := by
  obtain ⟨first, hf⟩ := h.1
  rcases hd with ⟨taken, hs, ht⟩ | ⟨k, h1, h2, h3⟩
  · exact .inl ⟨first ++ taken, by rw [← hf, hs, List.append_assoc], List.mem_append_right _ ht⟩
  · exact .inr ⟨k, Nat.le_trans h.2 h1, h2, h3⟩

/-- A call takes the draw it runs on. -/
theorem takes_nextDraw {s t : State} (h : t.script <:+ s.afterDraw.script ∧ s.afterDraw.drawn ≤ t.drawn) :
    Takes s t s.nextDraw := by
  obtain ⟨⟨first, hf⟩, hd⟩ := h
  cases hs : s.script with
  | nil =>
    obtain ⟨h1, h2⟩ := State.afterDraw_free hs
    rw [h2] at hd
    exact .inr ⟨s.drawn, Nat.le_refl _, hd, h1⟩
  | cons d rest =>
    obtain ⟨h1, h2⟩ := State.afterDraw_scripted hs
    replace hf : first ++ t.script = rest := by simpa [h2] using hf
    exact .inl ⟨d :: first, by rw [hs, ← hf]; rfl, by rw [h1]; exact List.mem_cons_self ..⟩

/-- An inner operation begun in `s` that changes no byte of memory if no draw it takes names a WR. -/
def ReadsOnly {α : Type} (s : State) (f : Flow α) : Prop :=
  (∀ d, Takes s f.last d → d.writesNothing) → f.last.mem = s.mem

/-- A way to run nested operations that stores nothing where no WR is named. -/
def NestReadsOnly (nest : Nested) : Prop :=
  ∀ ag acts s, (∀ sp a v, Act.access sp (.wr a v) ∉ acts) → ReadsOnly s (nest ag acts s)

theorem Obeys.within {α : Type} {s : State} {f : Flow α} (h : Obeys s f) : Within s f.last := by
  cases f with
  | done a t => exact h.toWithin
  | halted t => exact h.toWithin

theorem ReadsOnly.andThen {α β : Type} {s : State} {m : Flow α} {k : α → State → Flow β} (hm : ReadsOnly s m)
    (ho : Obeys s m) (hk : ∀ a t, ReadsOnly t (k a t)) (hko : ∀ a t, Obeys t (k a t)) :
    ReadsOnly s (andThen m k) := fun hd => by
  cases m with
  | halted t => exact hm hd
  | done a t =>
    have h1 : t.mem = s.mem := hm fun d h => hd d (h.extend (hko a t).within)
    exact (hk a t fun d h => hd d (h.after ho.within.draws)).trans h1

section
variable {nest : Nested} (hn : NestReadsOnly nest) (ho : NestObeys nest)
include hn ho

theorem callPlain_readsOnly (ag : Agent) (e : Event) (s : State) : ReadsOnly s (callPlain nest ag e s) := fun hd => by
  have hw := (ho ag s.nextDraw.acts (s.afterDraw.log e)).within
  exact (hn ag _ _ (hd _ (takes_nextDraw hw.draws)) fun d h => hd d (h.after (afterDraw_draws s))).trans (by simp)

theorem callByte_readsOnly (ag : Agent) (e : Option Byte → Event) (s : State) :
    ReadsOnly s (callByte nest ag e s) := by
  have h := callPlain_readsOnly hn ho ag (e none) s
  unfold callPlain at h
  unfold callByte
  cases hm : nest ag s.nextDraw.acts (s.afterDraw.log (e none)) <;> rw [hm] at h <;> exact h

theorem dispatchRead_readsOnly (sp : Space) (a : Addr) (s : State) : ReadsOnly s (dispatchRead nest sp a s) := by
  unfold dispatchRead
  split
  · exact fun _ => rfl
  · split
    · rename_i ch _
      have h : ReadsOnly (s.setBusy sp true) (readAction nest ch (s.setBusy sp true)) := by
        cases ch with
        | joy2 => exact fun _ => rfl
        | _ => exact callByte_readsOnly hn ho _ _ _
      unfold invokeRead
      cases hm : readAction nest ch (s.setBusy sp true) <;> rw [hm] at h <;> exact h
    · exact fun _ => by simp [cartRead, Flow.last]
    · exact fun _ => rfl

theorem issue_readsOnly (ag : Agent) (act : Act) (h : ∀ sp a v, act ≠ .access sp (.wr a v)) (s : State) :
    ReadsOnly s (issue nest ag act s) := by
  unfold issue
  split
  · match act with
    | .raise => exact fun _ => rfl
    | .access sp (.wr a v) => exact absurd rfl (h sp a v)
    | .access sp (.rd a) =>
      exact ReadsOnly.andThen (dispatchRead_readsOnly hn ho sp a s) (dispatchRead_obeys ho sp a s) (fun _ _ _ => rfl)
        fun _ t => Settled.refl t
  · exact fun _ => rfl

theorem runActs_readsOnly : NestReadsOnly (runActs nest) := fun ag acts s h => by
  induction acts generalizing s with
  | nil => exact fun _ => rfl
  | cons act rest ih =>
    exact ReadsOnly.andThen (issue_readsOnly hn ho ag act (fun sp a v he => h sp a v (by simp [he])) s)
      (issue_obeys ho ag act s) (fun _ t => ih t fun sp a v hm => h sp a v (List.mem_cons_of_mem _ hm))
      fun _ t => runActs_obeys ho ag rest t

end

theorem nestedTo_readsOnly (n : Nat) : NestReadsOnly (nestedTo n) := by
  induction n with
  | zero => exact fun _ _ _ _ _ => rfl
  | succ n ih => exact runActs_readsOnly ih (nestedTo_obeys n)

/-- Entering Running changes no byte of memory where no draw of the resets names a WR (R292). -/
theorem enterRunning_readsOnly (s : State) : ReadsOnly s.running (enterRunning s) :=
  ReadsOnly.andThen (callPlain_readsOnly (nestedTo_readsOnly 3) nested_obeys .cpu .cpuReset s.running)
    (callPlain_obeys nested_obeys .cpu (by simp [Event.uncounted]) _)
    (fun _ t => callPlain_readsOnly (nestedTo_readsOnly 3) nested_obeys .ppu .ppuReset t)
    fun _ t => callPlain_obeys nested_obeys .ppu (by simp [Event.uncounted]) t

end Sys2Proof.Machine
end

