-- ==== Sys2Proof/Machine/Codes.lean ====
section
/-! DEFINITION. The numbers the spec gives its outcomes: the SetupError codes (R251), the fault codes and what they
record (R252), and the byte forms of results (R107). -/

namespace Sys2Proof.Machine

/-- The SetupError codes (R251). -/
def setupErrorCode : SetupError → Nat
  | .wiring => 1
  | .cartLoad => 2

/-- The RuntimeInvariantViolation codes (R252). -/
def faultCode : RunFault → Nat
  | .lateRegistration _ => 1
  | .reentrantDispatch _ => 2
  | .dmaPageUnbound _ => 3

/-- The command word a fault records (R252): of the registration or of the dispatch. -/
def faultWord : RunFault → Option Word
  | .lateRegistration w => some w
  | .reentrantDispatch w => some w
  | .dmaPageUnbound _ => none

/-- The page index a fault records (R252). -/
def faultPage : RunFault → Option Byte
  | .lateRegistration _ => none
  | .reentrantDispatch _ => none
  | .dmaPageUnbound p => some p

/-- The byte form of a result, where R107 gives one: 0x01 and 0x00 for success and failure, 0xFF and the kind's code
for none and a kind, and RD's byte itself. -/
def resultByte : Result → Option Byte
  | .registered true => some 0x01#8
  | .registered false => some 0x00#8
  | .taken none => some 0xFF#8
  | .taken (some k) => some (kindCode k)
  | .byte v => some v
  | .nothing => none
  | .view _ => none
  | .stall _ => none
  | .sched _ => none
  | .count _ => none

end Sys2Proof.Machine
end

