-- ==== Sys2Proof/Tests/Slice0.lean ====
section
/-! SUPPORT. Tests: ill-formed operations, words written out from the spec's encodings, one step of each operation with
its result taken from 95_test_vectors.md, and for each statement a state and operands that meet its hypotheses. -/

open Sys2Proof Sys2Proof.Machine

namespace Sys2Proof.Tests

/-! ### Small states -/

/-- "WIRED" of 95_test_vectors.md: the standard bindings of R32 in place, nothing else done. -/
def wired : State :=
  { State.reset with
    rdMap := {
      cpu := [(0x2002, .ppuStatus), (0x2004, .oamData), (0x2007, .ppuData), (0x4016, .joy1), (0x4017, .joy2)]
      ppu := [] }
    wrMap := {
      cpu := [(0x2000, .ppuCtrl), (0x2001, .ppuMask), (0x2003, .oamAddr), (0x2004, .oamData), (0x2005, .ppuScroll),
        (0x2006, .ppuAddr), (0x2007, .ppuData), (0x4014, .dma), (0x4016, .joy1Strobe)]
      ppu := [] } }

/-- "RUNNING" of 95_test_vectors.md, with a script of draws. -/
def running (script : List Draw) : State :=
  { wired with
    sched := .running
    cartLoaded := true
    events := [.cartLoad true, .cpuReset, .ppuReset]
    script := script }

/-- RUNNING with the given host inputs, and draws for eight calls that issue nothing. -/
def hosted (inputs : List HostInput) : State :=
  { running (List.replicate 8 {}) with hostInputs := inputs }

/-- RUNNING under another page policy. -/
def runningUnder (policy : PagePolicy) (script : List Draw) : State :=
  { running script with params := { defaultParams with pagePolicy := policy } }

/-- A field of the state an operation leaves, if it leaves one. -/
def left {α : Type} (f : State → α) (o : Host.Outcome State Fault Refusal) : Option α :=
  match o with
  | .next t => some (f t)
  | .fault _ => none
  | .refused _ => none

/-- Why an operation was refused. -/
def why (o : Host.Outcome State Fault Refusal) : Option Refusal :=
  match o with
  | .next _ => none
  | .fault _ => none
  | .refused r => some r

/-! ### Ill-formed operations (R104) -/

theorem test_wf_regr_refuses_write_channel : (Instr.regr .cpu 0x2002#16 (.write .ppuCtrl)).wf = false := by decide

theorem test_wf_regw_refuses_read_channel : (Instr.regw .cpu 0x2002#16 (.read .oamData)).wf = false := by decide

/-! ### Decoding: the words of §2.1 and R113, each bit by bit from R101's layout -/

theorem test_decode_regr : decode 0b0001_0_000_0010000000000010_00000000#32 =
    .ok (.regr .cpu 0x2002#16 (.read .ppuStatus)) := by decide

theorem test_decode_regr_ppu : decode 0b0001_1_000_0010000000000010_00000000#32 =
    .ok (.regr .ppu 0x2002#16 (.read .ppuStatus)) := by decide

theorem test_decode_regw : decode 0b0010_0_000_0100000000010100_00010111#32 =
    .ok (.regw .cpu 0x4014#16 (.write .dma)) := by decide

theorem test_decode_rd : decode 0b0011_1_000_0001000000000000_00000000#32 = .ok (.rd .ppu 0x1000#16) := by decide

theorem test_decode_wr : decode 0b0100_1_000_0010010000000000_01011010#32 =
    .ok (.wr .ppu 0x2400#16 0x5A#8) := by decide

theorem test_decode_page : decode 0b0101_0_000_0000000000000000_11111111#32 = .ok (.page 0xFF#8) := by decide

theorem test_decode_dmax : decode 0b0110_0_000_0000000000000000_00000010#32 = .ok (.dmax 0x02#8) := by decide

theorem test_decode_raise : decode 0b0111_0_000_0000000000000000_00000000#32 = .ok (.raise .nmi) := by decide

theorem test_decode_consume : decode 0b1000_0_000_0000000000000000_00000000#32 = .ok .consume := by decide

theorem test_decode_scheduler :
    decode 0b1001_0_000_0000000000000000_00000000#32 = .ok .start ∧
    decode 0b1010_0_000_0000000000000000_00000000#32 = .ok .iter ∧
    decode 0b1011_0_000_0000000000000000_00000000#32 = .ok .quantum ∧
    decode 0b1100_0_000_0000000000000000_00000000#32 = .ok .ppuslot ∧
    decode 0b1101_0_000_0000000000000000_00000000#32 = .ok .cpuslot := by decide

/-- The ends of the two ranges of channel ids (R104): 0x04 and 0x10, 0x18 are channels, their neighbours are not. -/
theorem test_decode_channel_ids :
    decode 0x10401704#32 = .ok (.regr .cpu 0x4017#16 (.read .joy2)) ∧
    decode 0x10200205#32 = .error .channelId ∧
    decode 0x10200210#32 = .error .channelId ∧
    decode 0x20200002#32 = .error .channelId ∧
    decode 0x2020000F#32 = .error .channelId ∧
    decode 0x20401410#32 = .ok (.regw .cpu 0x4014#16 (.write .ppuCtrl)) ∧
    decode 0x20401618#32 = .ok (.regw .cpu 0x4016#16 (.write .joy1Strobe)) ∧
    decode 0x20200019#32 = .error .channelId := by decide

theorem test_decode_invalid :
    decode 0x00000000#32 = .error .reservedOp ∧
    decode 0xE0000000#32 = .error .reservedOp ∧
    decode 0xF0000000#32 = .error .reservedOp ∧
    decode 0x31200200#32 = .error .reservedBits ∧
    decode 0x30200201#32 = .error .mustBeZero ∧
    decode 0x58000002#32 = .error .mustBeZero ∧
    decode 0x50000102#32 = .error .mustBeZero ∧
    decode 0x70000001#32 = .error .kindCode ∧
    decode 0x80000001#32 = .error .mustBeZero ∧
    decode 0xA0000100#32 = .error .mustBeZero := by decide

theorem test_text : instrText (.wr .cpu 0x4014#16 0x02#8) = "WR cpu, 0x4014, 0x02" ∧
    instrText (.regr .cpu 0x2002#16 (.read .ppuStatus)) = "REGR cpu, 0x2002, PPU_STATUS_R" ∧
    instrText (.raise .nmi) = "RAISE NMI" := by decide

/-- The codes of X1 to X5 and the byte forms of R107. -/
theorem test_codes : setupErrorCode .wiring = 1 ∧ setupErrorCode .cartLoad = 2 ∧
    faultCode (.lateRegistration 0#32) = 1 ∧ faultCode (.reentrantDispatch 0#32) = 2 ∧
    faultCode (.dmaPageUnbound 0#8) = 3 ∧
    resultByte (.registered true) = some 0x01#8 ∧ resultByte (.registered false) = some 0x00#8 ∧
    resultByte (.taken none) = some 0xFF#8 ∧ resultByte (.taken (some .nmi)) = some 0x00#8 := by decide

/-! ### One step of each operation (95_test_vectors.md §2) -/

/-- A1 and A5: from construction, in either space. -/
theorem test_regr_binds :
    left (fun t => (t.result, t.readChannelAt .ppu 0x2002#16, t.readChannelAt .cpu 0x2002#16))
        (exec (.regr .ppu 0x2002#16 (.read .ppuStatus)) State.reset) =
      some (some (.registered true), some .ppuStatus, none) := by decide

/-- A3: a second channel at a bound address. -/
theorem test_regr_duplicate_fails :
    left (fun t => (t.result, t.readChannelAt .cpu 0x2002#16))
        (exec (.regr .cpu 0x2002#16 (.read .ppuData)) wired) =
      some (some (.registered false), some .ppuStatus) := by decide

/-- A4: an extra write binding at a read-only address. -/
theorem test_regw_binds :
    left (fun t => (t.result, t.writeChannelAt .cpu 0x2002#16))
        (exec (.regw .cpu 0x2002#16 (.write .ppuCtrl)) wired) =
      some (some (.registered true), some .ppuCtrl) := by decide

/-- A7, A8: LATE_REGISTRATION, with the word, even at a bound address. -/
theorem test_regr_late :
    left (fun t => (t.fault, t.sched, t.result)) (exec (.regr .cpu 0x2002#16 (.read .ppuStatus)) (running [])) =
      some (some (.lateRegistration 0x10200200#32), .stopped, none) := by decide

/-- W3: the interceptor's answer and its log entry. As W20: a read of the other space from inside the channel. -/
theorem test_rd_intercepted :
    left (fun t => (t.result, t.events.getLast?)) (exec (.rd .cpu 0x2002#16) (running [{ byte := 0x80#8 }])) =
      some (some (.byte 0x80#8), some (.ppuAccess .readStatus (some 0x80#8))) ∧
    left (fun t => (t.result, t.events.drop 3)) (exec (.rd .cpu 0x2007#16)
        (running [{ byte := 0x3C#8, acts := [.access .ppu (.rd 0x1000#16)] }, { byte := 0x77#8 }])) =
      some (some (.byte 0x3C#8),
        [.ppuAccess .readData (some 0x3C#8), .cartRead .ppu 0x1000#16 0x77#8]) := by decide

/-- W16: the top address of the CPU space is the cartridge's. -/
theorem test_rd_cartridge :
    left (fun t => (t.result, t.events.getLast?)) (exec (.rd .cpu 0xFFFF#16) (running [{ byte := 0xC0#8 }])) =
      some (some (.byte 0xC0#8), some (.cartRead .cpu 0xFFFF#16 0xC0#8)) := by decide

/-- W2: the byte stored is the byte read back. -/
theorem test_wr_stores (script : List Draw) : ∃ t, exec (.wr .cpu 0x0300#16 0x42#8) (running script) = .next t ∧
    t.raw .cpu 0x0300#16 = 0x42#8 := by
  refine ⟨((running script).rawWrite .cpu 0x0300#16 0x42#8).ended (some .nothing), rfl, ?_⟩
  exact (raw_rawWrite (s := running script) (sp := .cpu) .nil 0x0300#16 0x42#8 .cpu 0x0300#16).trans (by simp)

/-- W21: a PPU that re-enters the CPU space from `writeAddr`; `busy[CPU]` is left set. -/
theorem test_wr_reentrant :
    left (fun t => (t.fault, t.busy.cpu, t.result))
        (exec (.wr .cpu 0x2006#16 0x21#8) (running [{ acts := [.access .cpu (.rd 0x0000#16)] }])) =
      some (some (.reentrantDispatch 0x30000000#32), true, none) := by decide

/-- V5: the first page of the window under the policy `fault`. -/
theorem test_page_unbound :
    left (fun t => (t.fault, t.sched)) (exec (.page 0x80#8) (runningUnder .fault [])) =
      some (some (.dmaPageUnbound 0x80#8), .stopped) := by
  decide +kernel

/-- V6: the last page below it. -/
theorem test_page_below_window :
    (runningUnder .fault []).pageMeetsWindow 0x7F#8 = false := by
  decide +kernel

/-- M1, M6: the stall, the count and the answer of a transfer. -/
theorem test_dmax :
    left (fun t => (t.dmaStall, t.dmaCount, t.result)) (exec (.dmax 0x02#8) (running [{}])) =
      some (513, 1, some (.stall 513)) := by
  decide +kernel

/-- M2: two triggers in one CPU step add up. -/
theorem test_cpuslot_two_transfers :
    left (fun t => (t.dmaStall, t.dmaCount, t.cpuSteps))
        (exec .cpuslot (running [{ acts := [.access .cpu (.wr 0x4014#16 0x02#8), .access .cpu (.wr 0x4014#16 0x03#8)] },
          {}, {}])) = some (1026, 2, 1) := by
  decide +kernel

/-- I1, I2: a raise sets the line and a second one changes nothing. -/
theorem test_raise :
    left State.line (exec (.raise .nmi) (running [])) = some (some .nmi) ∧
    left State.line (exec (.raise .nmi) { running [] with line := some .nmi }) = some (some .nmi) := by decide

/-- I3, I4. -/
theorem test_consume :
    left (fun t => (t.result, t.line)) (exec .consume { running [] with line := some .nmi }) =
      some (some (.taken (some .nmi)), none) ∧
    left (fun t => (t.result, t.line)) (exec .consume (running [])) = some (some (.taken none), none) := by decide

/-- S1 and S3, and R291 and R131: a CPU reset that reads its vector from the cartridge and writes there. -/
theorem test_start :
    left (fun t => (t.sched, t.setupError, t.events)) (exec .start State.reset) =
      some (.stopped, some .wiring, []) ∧
    left (fun t => (t.sched, t.setupError, t.events)) (exec .start { wired with script := [{}, {}, {}] }) =
      some (.running, none, [.cartLoad true, .cpuReset, .ppuReset]) ∧
    left State.events (exec .start { wired with script :=
        [{}, { acts := [.access .cpu (.rd 0xFFFC#16), .access .cpu (.wr 0x8000#16 0x01#8)] }, { byte := 0xC0#8 }, {}] }) =
      some [.cartLoad true, .cpuReset, .cartRead .cpu 0xFFFC#16 0xC0#8, .cartWrite .cpu 0x8000#16 0x01#8, .ppuReset] := by
  decide

/-- S2: the cartridge does not load from the host's path. -/
theorem test_start_no_cartridge :
    left (fun t => (t.sched, t.setupError, t.events, t.loadPath)) (exec .start { wired with
        script := [{ ok := false }]
        hostInputs := [{ path := "missing.nes" }] }) =
      some (.stopped, some .cartLoad, [.cartLoad false], some "missing.nes") := by decide

/-- S8: 100 + 1200 owes two quanta and leaves 182. -/
theorem test_iter :
    left (fun t => (t.result, t.budget, t.quanta, t.redraws))
        (exec .iter { hosted [{ stop := false, elapsed := 1200 }] with budget := 100 }) =
      some (some (.count 2), 182, 2, 1) := by decide

/-- S12: the stop comes first. -/
theorem test_iter_stop :
    left (fun t => (t.result, t.budget, t.sched, t.redraws))
        (exec .iter { hosted [{ stop := true, elapsed := 5000 }] with budget := 300 }) =
      some (some (.count 0), 300, .stopped, 0) := by decide

/-- S14, with its four calls in order. -/
theorem test_quantum :
    left (fun t => (t.quanta, t.events.drop 3)) (exec .quantum (running [{}, {}, {}, {}])) =
      some (1, [.ppuStep, .ppuStep, .ppuStep, .cpuStep]) := by decide

/-- A raise from inside `PPU.step` (P3) is in the latch when the slot ends. -/
theorem test_ppuslot :
    left (fun t => (t.line, t.ppuSteps)) (exec .ppuslot (running [{ acts := [.raise, .raise] }])) =
      some (some .nmi, 1) := by decide

/-- A `PPU.step` that a fault halts (R253), through a PPU-space binding that R161 permits: the call stays logged, and its
count is the free value's. -/
theorem test_ppuslot_halted : ∃ t,
    exec .ppuslot { running [{ acts := [.access .ppu (.wr 0x2400#16 0x01#8)] },
        { acts := [.access .ppu (.rd 0x2400#16)] }] with wrMap := { cpu := [], ppu := [(0x2400, .ppuAddr)] } } = .next t ∧
      t.fault = some (.reentrantDispatch 0x38240000#32) ∧ t.events.count .ppuStep = 1 ∧
      t.ppuSteps = if Config.countsHaltedPpuStep then 1 else 0 := by
  simp only [exec, execPpuslot, ppuSlot]
  generalize Config.countsHaltedPpuStep = b
  cases b <;> exact ⟨_, rfl, rfl, rfl, rfl⟩

/-- I6 and I7: a stall slot delivers nothing; the next free slot delivers. -/
theorem test_cpuslot :
    left (fun t => (t.line, t.dmaStall, t.events.drop 3))
        (exec .cpuslot { running [{}, {}] with line := some .nmi, dmaStall := 3 }) = some (some .nmi, 2, []) ∧
    left (fun t => (t.line, t.dmaStall, t.events.drop 3))
        (exec .cpuslot { running [{}, {}] with line := some .nmi }) =
      some (none, 0, [.cpuStep, .cpuInterrupt .nmi]) := by decide

/-- W22, S4, I5, A9, X7: refusals. -/
theorem test_refusals :
    why (exec (.rd .cpu 0x0300#16) wired) = some .notRunning ∧
    why (exec .start (running [])) = some .notIdle ∧
    why (exec (.raise .nmi) wired) = some .notRunning ∧
    why (exec (.regw .cpu 0x5000#16 (.write .dma)) { wired with sched := .stopped }) = some .registrationClosed ∧
    why (step (wired.withFetchWord 32 0x10200210)) = some (.invalidWord .channelId) ∧
    why (exec .iter { running [] with fault := some (.dmaPageUnbound 0x80#8), sched := .stopped }) =
      some .afterFault := by decide

/-- PAGE under the policy `backing`, answered. -/
theorem page_answers_backing (s : State) (p : Byte) (hs : s.live) (hp : s.params.pagePolicy = .backing) :
    exec (.page p) s = .next (s.ended (some (.view ((pageAddrs p).map (s.raw .cpu))))) := by
  simp only [exec, execPage]
  rw [whileRunning_live hs, pageView, if_neg (by simp [hp]), pageBytes_raw (by simp [hp])]
  rfl

/-! ### Witnesses: for each statement with hypotheses, a state and operands that meet them all -/

/-- An operation has a step, and the field `f` of the state it leaves is `v`. -/
def leaves {α : Type} (f : State → α) (v : α) (o : Host.Outcome State Fault Refusal) : Prop :=
  ∃ t, o = .next t ∧ f t = v

/-- S17, and P4's count of the step that faults: in the second quantum of three, the CPU's step writes 0x2006 and the PPU re-enters the CPU space. -/
def halting : State :=
  { running [{}, {}, {}, {}, {}, {}, {}, { acts := [.access .cpu (.wr 0x2006#16 0x21#8)] },
      { acts := [.access .cpu (.rd 0x0000#16)] }] with
    hostInputs := [{ stop := false, elapsed := 1677 }] }

/-- RUNNING with one command word waiting, and draws that issue nothing. -/
def commanded (w : Word) : State := { running (List.replicate 4 {}) with commands := [w] }

theorem wired_canonical : wired.canonical := by
  refine ⟨fun sp => ?_, fun sp => ?_, fun sp => ?_⟩ <;> cases sp
  · exact ⟨.nil, by simp [wired, State.reset, PerSpace.get]⟩
  · exact ⟨.nil, by simp [wired, State.reset, PerSpace.get]⟩
  all_goals decide

theorem wired_ok : wired.wiredOk = true := by decide

theorem commanded_inv (w : Word) : (commanded w).Inv where
  canonical := wired_canonical
  outside := rfl
  unbusy := fun _ => rfl
  faulted := fun h => absurd rfl h
  setupFailed := fun h => absurd rfl h
  wired := fun _ => ⟨(wiredOk_congr rfl rfl rfl).trans wired_ok, rfl⟩
  pristine := fun h => by cases h
  counters := ⟨.inl rfl, rfl, rfl⟩

theorem test_witness_DecodeOfEncodeGivesBack :
    (Instr.regr .cpu 0x0000#16 (.read .ppuStatus)).wf = true ∧
    (Instr.regw .ppu 0xFFFF#16 (.write .joy1Strobe)).wf = true := by decide

theorem test_witness_EachValidWordHasOneMeaning :
    decode 0x28FFFF18#32 = .ok (.regw .ppu 0xFFFF#16 (.write .joy1Strobe)) := by decide

theorem test_witness_InvalidWordsAreRefused :
    (commanded 0xE0000000#32).commands = 0xE0000000#32 :: [] ∧ decode 0xE0000000#32 = .error .reservedOp := by decide

theorem test_witness_StepRunsTheDecodedInstruction :
    (commanded 0xB0000000#32).commands = 0xB0000000#32 :: [] ∧ decode 0xB0000000#32 = .ok .quantum ∧
    State.reset.commands = [] := by decide

theorem test_witness_StepKeepsInvariant :
    (commanded 0xB0000000#32).Inv ∧ leaves State.quanta 1 (step (commanded 0xB0000000#32)) ∧
    (commanded 0x10500003#32).Inv ∧
      leaves State.fault (some (.lateRegistration 0x10500003#32)) (step (commanded 0x10500003#32)) :=
  ⟨commanded_inv _, ⟨_, rfl, rfl⟩, commanded_inv _, ⟨_, rfl, rfl⟩⟩

theorem test_witness_RefusedExactlyWhenExcluded :
    (Instr.regr .cpu 0x2002#16 (.write .ppuCtrl)).wf = false ∧
    (Instr.regr .cpu 0x2002#16 (.read .ppuStatus)).wf = true ∧ (State.reset.fault = none ∧ State.reset.sched = .idle) ∧
    Instr.start.wf = true ∧ (running []).sched ≠ .idle ∧
    Instr.iter.wf = true ∧ (running []).fault = none ∧ (running []).sched = .running := by decide

theorem test_witness_SchedulerTransitions :
    leaves State.sched .running (exec (.raise .nmi) (running [])) ∧
    leaves State.sched .running (exec .start { wired with script := [{}, {}, {}] }) ∧
    leaves State.sched .stopped (exec .start State.reset) ∧
    leaves State.sched .stopped (exec .start { wired with script := [{ ok := false }] }) ∧
    leaves State.sched .stopped (exec .iter (hosted [{ stop := true, elapsed := 0 }])) ∧
    leaves State.sched .stopped (exec .iter halting) :=
  ⟨⟨_, rfl, rfl⟩, ⟨_, rfl, rfl⟩, ⟨_, rfl, rfl⟩, ⟨_, rfl, rfl⟩, ⟨_, rfl, rfl⟩, ⟨_, rfl, rfl⟩⟩

theorem test_witness_FaultsAriseOnlyWhereListed :
    halting.fault = none ∧ leaves State.fault (some (.reentrantDispatch 0x30000000#32)) (exec .iter halting) ∧
    leaves State.fault (some (.lateRegistration 0x10500003#32))
      (exec (.regr .cpu 0x5000#16 (.read .joy1)) (running [])) ∧
    left State.fault (exec (.page 0x80#8) (runningUnder .fault [])) = some (some (.dmaPageUnbound 0x80#8)) :=
  ⟨rfl, ⟨_, rfl, rfl⟩, ⟨_, rfl, rfl⟩, by decide +kernel⟩

theorem test_witness_EventLogOnlyGrows :
    leaves State.events [.cartLoad true, .cpuReset, .ppuReset, .ppuStep] (exec .ppuslot (running [{}])) :=
  ⟨_, rfl, rfl⟩

theorem test_witness_BindingsChangeOnlyDuringSetup :
    leaves State.quanta 1 (exec .quantum (running [{}, {}, {}, {}])) ∧ (running [{}, {}, {}, {}]).sched ≠ .idle :=
  ⟨⟨_, rfl, rfl⟩, by decide⟩

theorem test_witness_RegrBindsFreeAddress :
    wired.inSetup ∧ wired.readChannelAt .cpu 0x0000#16 = none ∧ wired.readChannelAt .ppu 0xFFFF#16 = none := by decide

theorem test_witness_RegwBindsFreeAddress :
    wired.inSetup ∧ wired.writeChannelAt .cpu 0x2002#16 = none ∧ wired.writeChannelAt .ppu 0xFFFF#16 = none := by
  decide

theorem test_witness_DuplicateRegistrationFails :
    wired.inSetup ∧ wired.readChannelAt .cpu 0x4017#16 = some .joy2 ∧
    wired.writeChannelAt .cpu 0x4014#16 = some .dma := by decide

theorem test_witness_LateRegistrationFaults : (running []).live := by decide

theorem test_witness_ReadAndWriteRegistrationsIndependent :
    State.reset.inSetup ∧ State.reset.readChannelAt .cpu 0x2007#16 = none ∧
    State.reset.writeChannelAt .cpu 0x2007#16 = none := by decide

theorem test_witness_WireBindsInAnyOrder :
    State.reset.inSetup ∧ paramsOk State.reset.params = true ∧ State.reset.rdMap.cpu = [] ∧
    State.reset.wrMap.cpu = [] ∧ (wire State.reset.params.addrs).reverse.Perm (wire State.reset.params.addrs) :=
  ⟨by decide, by decide, rfl, rfl, List.reverse_perm _⟩

/-- The last address below the CPU's window and the first above the PPU's. -/
theorem test_witness_RdOfBackingClass :
    (running []).live ∧ (running []).busy.get .cpu = false ∧ (running []).busy.get .ppu = false ∧
    (running []).readChannelAt .cpu 0x7FFF#16 = none ∧ (running []).inWindow .cpu 0x7FFF#16 = false ∧
    (running []).readChannelAt .ppu 0x2000#16 = none ∧ (running []).inWindow .ppu 0x2000#16 = false := by decide

/-- The ends of both windows. -/
theorem test_witness_RdOfCartridgeClass :
    (running []).live ∧ (running []).busy.get .cpu = false ∧ (running []).busy.get .ppu = false ∧
    (running []).readChannelAt .cpu 0x8000#16 = none ∧ (running []).inWindow .cpu 0x8000#16 = true ∧
    (running []).readChannelAt .cpu 0xFFFF#16 = none ∧ (running []).inWindow .cpu 0xFFFF#16 = true ∧
    (running []).readChannelAt .ppu 0x0000#16 = none ∧ (running []).inWindow .ppu 0x0000#16 = true ∧
    (running []).readChannelAt .ppu 0x1FFF#16 = none ∧ (running []).inWindow .ppu 0x1FFF#16 = true := by decide

theorem test_witness_RdOfCollaboratorChannel :
    let s := running [{ byte := 0x41#8 }]
    s.live ∧ s.busy.get .cpu = false ∧ s.script = { byte := 0x41#8 } :: [] ∧
    s.readChannelAt .cpu 0x2002#16 = some .ppuStatus ∧
      readCallEvent .ppuStatus (some 0x41#8) = some (.ppuAccess .readStatus (some 0x41#8)) ∧
    s.readChannelAt .cpu 0x4016#16 = some .joy1 ∧
      readCallEvent .joy1 (some 0x41#8) = some (.inputRead (some 0x41#8)) := by
  decide

/-- A PPU that reads its own space from inside PPU_DATA_R, and an input device that re-enters the CPU space. -/
theorem test_witness_RdOfCollaboratorChannel_issued :
    (∀ act ∈ [Act.access .ppu (.rd 0x1000#16)], issuedBy (readChannelAgent .ppuData) act) ∧
    leaves State.fault none (runInstrs ([Act.access .ppu (.rd 0x1000#16)].map actInstr) { running [{}] with
      busy := (running [{}]).busy.set .cpu true
      events := (running [{}]).events ++ [.ppuAccess .readData none] }) ∧
    (∀ act ∈ [Act.access .cpu (.rd 0x0000#16)], issuedBy (readChannelAgent .joy1) act) ∧
    leaves State.fault (some (.reentrantDispatch 0x30000000#32))
      (runInstrs ([Act.access .cpu (.rd 0x0000#16)].map actInstr) { running [] with
        busy := (running []).busy.set .cpu true
        events := (running []).events ++ [.inputRead none] }) :=
  ⟨by simp [issuedBy, readChannelAgent], ⟨_, rfl, rfl⟩, by simp [issuedBy, readChannelAgent], ⟨_, rfl, rfl⟩⟩

theorem test_witness_RdOfControllerPortTwo :
    (running []).live ∧ (running []).busy.get .cpu = false ∧
    (running []).readChannelAt .cpu 0x4017#16 = some .joy2 := by decide

theorem test_witness_InterceptedReadIgnoresBacking :
    (running [{ byte := 0x80#8 }]).live ∧ (running [{ byte := 0x80#8 }]).busy.get .cpu = false ∧
    (running [{ byte := 0x80#8 }]).readChannelAt .cpu 0x2002#16 = some .ppuStatus ∧
    leaves State.fault none (exec (.rd .cpu 0x2002#16)
      { running [{ byte := 0x80#8 }] with mem := { cpu := [(0x2002, 0x55#8)], ppu := [] } }) :=
  ⟨by decide, by decide, by decide, ⟨_, rfl, rfl⟩⟩

theorem test_witness_WrOfBackingClass :
    (running []).live ∧ (running []).canonical ∧ (running []).busy.get .cpu = false ∧
    (running []).writeChannelAt .cpu 0x2002#16 = none ∧ (running []).inWindow .cpu 0x2002#16 = false :=
  ⟨by decide, wired_canonical, by decide, by decide, by decide⟩

theorem test_witness_WrOfCartridgeClass :
    (running []).live ∧ (running []).busy.get .ppu = false ∧
    (running []).writeChannelAt .ppu 0x1FFF#16 = none ∧ (running []).inWindow .ppu 0x1FFF#16 = true ∧
    (running []).writeChannelAt .cpu 0x8000#16 = none ∧ (running []).inWindow .cpu 0x8000#16 = true := by decide

theorem test_witness_WrOfCollaboratorChannel :
    let s := running [{}]
    s.live ∧ s.busy.get .cpu = false ∧ s.script = {} :: [] ∧
    s.writeChannelAt .cpu 0x2000#16 = some .ppuCtrl ∧
      writeCallEvent .ppuCtrl 0x80#8 = some (.ppuAccess .writeCtrl (some 0x80#8)) ∧
    s.writeChannelAt .cpu 0x4016#16 = some .joy1Strobe ∧
      writeCallEvent .joy1Strobe 0x01#8 = some (.inputStrobe 0x01#8) := by decide

/-- A PPU that raises from inside PPU_DATA_W, and an input device that re-enters the CPU space. -/
theorem test_witness_WrOfCollaboratorChannel_issued :
    (∀ act ∈ [Act.raise], issuedBy (writeChannelAgent .ppuData) act) ∧
    leaves (fun t => (t.fault, t.line)) (none, some .nmi) (runInstrs ([Act.raise].map actInstr) { running [] with
      busy := (running []).busy.set .cpu true
      events := (running []).events ++ [.ppuAccess .writeData (some 0x5A#8)] }) ∧
    (∀ act ∈ [Act.access .cpu (.rd 0x0000#16)], issuedBy (writeChannelAgent .joy1Strobe) act) ∧
    leaves State.fault (some (.reentrantDispatch 0x30000000#32))
      (runInstrs ([Act.access .cpu (.rd 0x0000#16)].map actInstr) { running [] with
        busy := (running []).busy.set .cpu true
        events := (running []).events ++ [.inputStrobe 0x01#8] }) :=
  ⟨by simp [issuedBy, writeChannelAgent], ⟨_, rfl, rfl⟩, by simp [issuedBy, writeChannelAgent], ⟨_, rfl, rfl⟩⟩

theorem test_witness_InterceptedWriteNeverStores :
    (running [{}]).live ∧ (running [{}]).busy.get .cpu = false ∧
    (running [{}]).writeChannelAt .cpu 0x4014#16 = some .dma := by decide

theorem test_witness_BusySpaceFaults :
    State.live { running [] with busy := { cpu := false, ppu := true } } ∧
    State.busy { running [] with busy := { cpu := false, ppu := true } } = { cpu := false, ppu := true } ∧
    PerSpace.get { cpu := false, ppu := true } .ppu = true := by decide

theorem test_witness_ReentrantCollaboratorHalts :
    let s := running [{ acts := [.access .cpu (.rd 0x0000#16)] }]
    s.live ∧ s.busy.get .cpu = false ∧ s.writeChannelAt .cpu 0x2006#16 = some .ppuAddr ∧
    writeCallEvent .ppuAddr 0x21#8 = some (.ppuAccess .writeAddr (some 0x21#8)) ∧
    s.readChannelAt .cpu 0x2007#16 = some .ppuData ∧
    readCallEvent .ppuData none = some (.ppuAccess .readData none) ∧
    s.script = { acts := [.access .cpu (.rd 0x0000#16)] } :: [] ∧
    Act.access .cpu (.rd 0x0000#16) ∈ s.nextDraw.acts := by decide

/-- The page of the statement's DMA clauses, and a PPU that re-enters the CPU space from `doDma`. -/
theorem test_witness_ReentrantCollaboratorHalts_dma :
    let s := running [{ acts := [.access .cpu (.wr 0x0000#16 0x01#8)] }]
    s.live ∧ s.busy.get .cpu = false ∧ s.writeChannelAt .cpu 0x4014#16 = some .dma ∧
    ∃ t view, exec (.page 0x02#8) s = .next t ∧ t.result = some (.view view) ∧
      t.nextDraw.acts = .access .cpu (.wr 0x0000#16 0x01#8) :: [] :=
  ⟨by decide, by decide, by decide, _, _, page_answers_backing _ _ (by decide) (by decide), rfl, rfl⟩

theorem test_witness_PageIsTheBackingBytes : (running []).live ∧ (running []).params.pagePolicy = .backing := by decide

theorem test_witness_PageUnderCartridgePolicy :
    (runningUnder .cartridge [{ byte := 0x11#8 }]).live ∧
    (runningUnder .cartridge [{ byte := 0x11#8 }]).params.pagePolicy = .cartridge ∧
    (runningUnder .cartridge []).inWindow .cpu (BitVec.ofNat 16 ((0x7F#8).toNat * 256 + 255)) = false ∧
    (runningUnder .cartridge []).inWindow .cpu (BitVec.ofNat 16 ((0x80#8).toNat * 256 + 0)) = true := by decide

/-- The first page of the window, and the last below it. -/
theorem test_witness_PageUnderFaultPolicy :
    (runningUnder .fault []).live ∧ (runningUnder .fault []).params.pagePolicy = .fault ∧
    (runningUnder .fault []).inWindow .cpu (BitVec.ofNat 16 ((0x80#8).toNat * 256 + 0)) = true ∧
    (∀ k, k < 256 → (runningUnder .fault []).inWindow .cpu (BitVec.ofNat 16 ((0x7F#8).toNat * 256 + k)) = false) := by
  decide +kernel

theorem test_witness_DmaTransfersThePage :
    (running [{}]).live ∧ (running [{}]).params.pagePolicy = .backing ∧ (running [{}]).script = {} :: [] := by decide

theorem test_witness_DmaTriggerRunsOneTransfer :
    (running [{}]).live ∧ (running [{}]).busy.get .cpu = false ∧ (running [{}]).params.pagePolicy = .backing ∧
    (running [{}]).writeChannelAt .cpu 0x4014#16 = some .dma ∧ (running [{}]).script = {} :: [] ∧
    (runningUnder .fault [{}]).live ∧ (runningUnder .fault [{}]).busy.get .cpu = false ∧
    (∀ k, k < 256 → (runningUnder .fault [{}]).inWindow .cpu (BitVec.ofNat 16 ((0x7F#8).toNat * 256 + k)) = false) ∧
    (runningUnder .fault [{}]).writeChannelAt .cpu 0x4014#16 = some .dma := by
  decide +kernel

theorem test_witness_DmaHandsOnThePageView :
    (running [{}]).live ∧ (running [{}]).busy.get .cpu = false ∧
    (running [{}]).writeChannelAt .cpu 0x4014#16 = some .dma ∧
    ∃ t view, exec (.page 0x02#8) (running [{}]) = .next t ∧ t.result = some (.view view) ∧ t.nextDraw.acts = [] :=
  ⟨by decide, by decide, by decide, _, _, page_answers_backing _ _ (by decide) (by decide), rfl, rfl⟩

/-- I8: a PPU that raises inside `doDma`; and one whose write of its own space reaches a PPU-space channel (R161 permits
such bindings), inside which it re-enters that space. -/
theorem test_witness_DmaHandsOnThePageView_issued :
    let s := running [{ acts := [.raise] }]
    let bad := { running [{ acts := [.access .ppu (.wr 0x2400#16 0x01#8)] }, { acts := [.access .ppu (.rd 0x2400#16)] }] with
      wrMap := { cpu := [(0x4014, .dma)], ppu := [(0x2400, .ppuAddr)] } }
    (∀ act ∈ [Act.raise], issuedBy .ppu act) ∧
    (∃ t view, s.live ∧ exec (.page 0x02#8) s = .next t ∧ t.result = some (.view view) ∧
      t.nextDraw.acts = [.raise] ++ [] ∧
      leaves (fun u => (u.fault, u.line)) (none, some .nmi)
        (runInstrs ([Act.raise].map actInstr) { t.afterDraw with events := t.events ++ [.ppuDoDma view] }) ∧
      leaves State.fault none (runInstrs ([Act.raise].map actInstr) { t.afterDraw with
        busy := s.busy.set .cpu true
        events := t.events ++ [.ppuDoDma view] })) ∧
    (∀ act ∈ [Act.access .ppu (.wr 0x2400#16 0x01#8)], issuedBy .ppu act) ∧
    ∃ t view, bad.live ∧ exec (.page 0x02#8) bad = .next t ∧ t.result = some (.view view) ∧
      t.nextDraw.acts = [.access .ppu (.wr 0x2400#16 0x01#8)] ++ [] ∧
      bad.busy.get .cpu = false ∧ bad.writeChannelAt .cpu 0x4014#16 = some .dma ∧
      leaves State.fault (some (.reentrantDispatch 0x38240000#32))
        (runInstrs ([Act.access .ppu (.wr 0x2400#16 0x01#8)].map actInstr)
          { t.afterDraw with events := t.events ++ [.ppuDoDma view] }) ∧
      leaves State.fault (some (.reentrantDispatch 0x38240000#32))
        (runInstrs ([Act.access .ppu (.wr 0x2400#16 0x01#8)].map actInstr) { t.afterDraw with
          busy := bad.busy.set .cpu true
          events := t.events ++ [.ppuDoDma view] }) :=
  ⟨by simp [issuedBy],
    ⟨_, _, by decide, page_answers_backing _ _ (by decide) (by decide), rfl, rfl, ⟨_, rfl, rfl⟩, ⟨_, rfl, rfl⟩⟩,
    by simp [issuedBy],
    ⟨_, _, by decide, page_answers_backing _ _ (by decide) (by decide), rfl, rfl, rfl, by decide, ⟨_, rfl, rfl⟩,
      ⟨_, rfl, rfl⟩⟩⟩

theorem test_witness_UnboundDmaFaults :
    (runningUnder .fault []).live ∧ (runningUnder .fault []).params.pagePolicy = .fault ∧
    (runningUnder .fault []).inWindow .cpu (BitVec.ofNat 16 ((0xFF#8).toNat * 256 + 255)) = true ∧
    (runningUnder .fault []).busy.get .cpu = false ∧
    (runningUnder .fault []).writeChannelAt .cpu 0x4014#16 = some .dma := by decide

theorem test_witness_StallsOfOneStepAdd :
    (running [{}]).live ∧ (running [{}]).dmaStall = 0 ∧ leaves State.cpuSteps 1 (exec .cpuslot (running [{}])) :=
  ⟨by decide, rfl, ⟨_, rfl, rfl⟩⟩

theorem test_witness_StallFreezesOnlyTheCpu :
    let s := { running [] with dmaStall := 513 }
    s.live ∧ s.unbusy ∧ s.rdMap.ppu = [] ∧ s.wrMap.ppu = [] ∧ 513 ≤ s.dmaStall := by decide

theorem test_witness_RaiseSetsIdleLine : (running []).live ∧ (running []).line = none := by decide

theorem test_witness_ConsumeReadsAndClears : (running []).live := by decide

theorem test_witness_RaisesCoalesce : (running []).live ∧ (running []).line = none ∧ 0 < 1 := by decide

/-- P3: the second and the third PPU step of a quantum raise. -/
theorem test_witness_RaiseDeliveredInItsQuantum :
    let s := running [{}, { acts := [.raise] }, { acts := [.raise] }, {}, {}]
    s.live ∧ s.dmaStall = 0 ∧
    s.script = {} :: { acts := [.raise] } :: { acts := [.raise] } :: {} :: {} :: [] ∧
    (∀ x ∈ [] ++ [Act.raise] ++ [.raise], x = Act.raise) ∧ [] ++ [Act.raise] ++ [.raise] ≠ [] := by decide

theorem test_witness_StartUnwiredStops : State.reset.inSetup ∧ State.reset.wiredOk = false := by decide

theorem test_witness_StartWithoutCartridgeStops :
    let s := { wired with script := [{ ok := false }] }
    s.inSetup ∧ s.wiredOk = true ∧ s.nextDraw.ok = false := by decide

/-- WIRED, with a CPU reset that reads its vector from the cartridge (R291). -/
def resetting : State :=
  { wired with script :=
      [{}, { acts := [.access .cpu (.rd 0xFFFC#16), .access .cpu (.rd 0xFFFD#16)] }, { byte := 0x00#8 },
        { byte := 0xC0#8 }, {}] }

theorem test_witness_StartEntersRunning :
    resetting.inSetup ∧ resetting.wiredOk = true ∧
    resetting.script = {} :: { acts := [0xFFFC#16, 0xFFFD#16].map fun a => .access .cpu (.rd a) } ::
      ([{ byte := 0x00#8 }, { byte := 0xC0#8 }] ++ ({} : Draw) :: []) ∧
    (∀ a ∈ [0xFFFC#16, 0xFFFD#16], resetting.readChannelAt .cpu a = none ∧ resetting.inWindow .cpu a = true) :=
  ⟨⟨rfl, rfl⟩, (wiredOk_congr rfl rfl rfl).trans wired_ok, rfl, fun a ha => by
    simp only [List.mem_cons, List.not_mem_nil, or_false] at ha
    rcases ha with rfl | rfl <;> decide⟩

/-- WIRED, with a path for START, a cartridge that loads, and a CPU reset that writes the strobe register. -/
def writing (script : List Draw) : State :=
  { wired with
    hostInputs := [{ path := "game.nes" }]
    script := {} :: { acts := [.access .cpu (.wr 0x4016#16 0x01#8)] } :: script }

/-- Its CPU reset under way. -/
def writingReset (script : List Draw) : State :=
  { (writing script).afterHostInput with
    script := script
    sched := .running
    cartLoaded := true
    line := none
    dmaStall := 0
    budget := 0
    busy := { cpu := false, ppu := false }
    events := [.cartLoad true, .cpuReset]
    loadPath := some "game.nes" }

/-- A CPU reset that writes and a PPU reset that raises, and a CPU reset that a fault halts. -/
theorem test_witness_StartEntersRunning_issued :
    (writing [{}, { acts := [.raise] }]).inSetup ∧ (writing [{}, { acts := [.raise] }]).wiredOk = true ∧
    (∀ act ∈ [Act.access .cpu (.wr 0x4016#16 0x01#8)], issuedBy .cpu act) ∧ (∀ act ∈ [Act.raise], issuedBy .ppu act) ∧
    (∃ t, runInstrs ([Act.access .cpu (.wr 0x4016#16 0x01#8)].map actInstr) (writingReset [{}, { acts := [.raise] }]) =
        .next t ∧ t.fault = none ∧ t.script = { acts := [.raise] } :: [] ∧
      leaves State.fault none
        (runInstrs ([Act.raise].map actInstr) { t with script := [], events := t.events ++ [.ppuReset] })) ∧
    leaves State.fault (some (.reentrantDispatch 0x30000000#32))
      (runInstrs ([Act.access .cpu (.wr 0x4016#16 0x01#8)].map actInstr)
        (writingReset [{ acts := [.access .cpu (.rd 0x0000#16)] }])) :=
  ⟨⟨rfl, rfl⟩, (wiredOk_congr rfl rfl rfl).trans wired_ok, by simp [issuedBy], by simp [issuedBy],
    ⟨_, rfl, rfl, rfl, _, rfl, rfl⟩, ⟨_, rfl, rfl⟩⟩

theorem leaves_of_left {α : Type} {f : State → α} {v : α} {o : Host.Outcome State Fault Refusal}
    (h : left f o = some v) : leaves f v o := by
  cases o with
  | next t => exact ⟨t, rfl, Option.some.inj h⟩
  | fault _ => cases h
  | refused _ => cases h

/-- START takes five scripted draws and no free one, and none names a WR. -/
theorem test_witness_StartEntersRunning_reads :
    ∃ t, exec .start resetting = .next t ∧ ∀ d, Takes resetting t d → d.writesNothing := by
  obtain ⟨t, h, ht⟩ := leaves_of_left (f := fun t => (t.script, t.drawn)) (v := ([], 0))
    (show left _ (exec .start resetting) = _ by decide)
  obtain ⟨hs, hd⟩ := Prod.mk.inj ht
  refine ⟨t, h, fun d hd' => ?_⟩
  rcases hd' with ⟨taken, ht, hm⟩ | ⟨k, -, hk, -⟩
  · obtain rfl : resetting.script = taken := by simpa [hs] using ht
    simp only [resetting, List.mem_cons, List.not_mem_nil, or_false] at hm
    rcases hm with rfl | rfl | rfl | rfl | rfl <;> simp [Draw.writesNothing]
  · exact absurd hk (by simp [hd])

theorem test_witness_StartEntersRunning_initial : resetting.Inv where
  canonical := wired_canonical
  outside := rfl
  unbusy := fun _ => rfl
  faulted := fun h => absurd rfl h
  setupFailed := fun h => absurd rfl h
  wired := fun h => by cases h
  pristine := fun _ => ⟨rfl, rfl, rfl, rfl, rfl, rfl, rfl, rfl, rfl, rfl, rfl, rfl, rfl, rfl, rfl⟩
  counters := ⟨.inl rfl, rfl, rfl⟩

theorem test_witness_StopIsSeenFirst :
    (hosted [{ stop := true, elapsed := 5000 }]).live ∧
    (hosted [{ stop := true, elapsed := 5000 }]).hostInput.stop = true := by decide

/-- S6: one nanosecond short of a quantum. -/
theorem test_witness_IterWithoutQuantumRedraws :
    let s := hosted [{ stop := false, elapsed := 558 }]
    s.live ∧ s.hostInput.stop = false ∧ s.budget + s.hostInput.elapsed < s.params.quantumNs := by decide

theorem test_witness_IterRunsTheQuantaOwed :
    let s := { hosted [{ stop := false, elapsed := 1200 }] with budget := 100 }
    s.live ∧ 0 < s.params.quantumNs ∧ s.hostInput.stop = false ∧ leaves State.fault none (exec .iter s) :=
  ⟨by decide, by decide, rfl, ⟨_, rfl, rfl⟩⟩

theorem test_witness_HaltedIterKeepsWholeQuanta :
    halting.live ∧ leaves (fun t => (t.fault, t.budget, t.cpuSteps)) (some (.reentrantDispatch 0x30000000#32), 1118, 2)
      (exec .iter halting) :=
  ⟨by decide, ⟨_, rfl, rfl⟩⟩

/-- S6 and S7, 558 and then 1, and one quantum more, under a cap of one quantum for each ITER and a ceiling of 558. -/
theorem test_witness_ItersAbsorbJitter :
    let hs : List HostInput := 
      [{ stop := false, elapsed := 558 }, { stop := false, elapsed := 1 }, { stop := false, elapsed := 559 }]
    let s := { hosted hs with params := { defaultParams with maxQuanta := some 1, budgetCeiling := some 558 } }
    s.live ∧ 0 < s.params.quantumNs ∧ s.budget < s.params.quantumNs ∧ s.hostInputs = hs ++ [] ∧
    (∀ h ∈ hs, h.stop = false) ∧
    (∀ m pre h post, s.params.maxQuanta = some m → hs = pre ++ h :: post →
      ((s.budget + (pre.map (·.elapsed)).sum) % s.params.quantumNs + h.elapsed) / s.params.quantumNs ≤ m) ∧
    (∀ c pre h post, s.params.budgetCeiling = some c → hs = pre ++ h :: post →
      ((s.budget + (pre.map (·.elapsed)).sum) + h.elapsed) % s.params.quantumNs ≤ c) ∧
    leaves (fun t => (t.fault, t.quanta)) (none, 2) (runInstrs (List.replicate hs.length .iter) s) := by
  refine ⟨by decide, by decide, by decide, by decide, by decide, fun m pre h post hm hp => ?_,
    fun c pre h post hc _ => ?_, ⟨_, rfl, rfl⟩⟩
  · obtain rfl : 1 = m := Option.some.inj hm
    rcases pre with _ | ⟨_, _ | ⟨_, _ | ⟨_, pre⟩⟩⟩ <;> simp at hp <;> obtain ⟨rfl, hp⟩ := hp
    · decide
    · obtain ⟨rfl, -⟩ := hp
      decide
    · obtain ⟨rfl, rfl, -⟩ := hp
      decide
  · obtain rfl : 558 = c := Option.some.inj hc
    exact Nat.le_of_lt_succ (Nat.mod_lt _ (by decide))

theorem test_witness_PpuSlotStepsThePpu : (running [{}]).live ∧ (running [{}]).script = {} :: [] := by decide

/-- A step that raises and reads, and one that a fault halts inside a PPU-space channel. -/
theorem test_witness_PpuSlotStepsThePpu_issued :
    (∀ act ∈ [Act.raise, .access .ppu (.rd 0x1000#16)], issuedBy .ppu act) ∧
    leaves (fun t => (t.fault, t.line)) (none, some .nmi)
      (runInstrs ([Act.raise, .access .ppu (.rd 0x1000#16)].map actInstr)
        { running [{}] with events := (running [{}]).events ++ [.ppuStep] }) ∧
    (∀ act ∈ [Act.access .ppu (.wr 0x2400#16 0x01#8)], issuedBy .ppu act) ∧
    leaves State.fault (some (.reentrantDispatch 0x38240000#32))
      (runInstrs ([Act.access .ppu (.wr 0x2400#16 0x01#8)].map actInstr)
        { running [{ acts := [.access .ppu (.rd 0x2400#16)] }] with
          wrMap := { cpu := [], ppu := [(0x2400, .ppuAddr)] }
          events := (running []).events ++ [.ppuStep] }) :=
  ⟨by simp [issuedBy], ⟨_, rfl, rfl⟩, by simp [issuedBy], ⟨_, rfl, rfl⟩⟩

theorem test_witness_PpuSlotLeavesTheCpuSpace :
    (running []).live ∧ (running []).unbusy ∧ (running []).rdMap.ppu = [] ∧ (running []).wrMap.ppu = [] := by decide

theorem test_witness_StalledSlotOnlyCountsDown :
    State.live { running [] with dmaStall := 1 } ∧ 0 < State.dmaStall { running [] with dmaStall := 1 } := by decide

theorem test_witness_CpuSlotStepsAndDelivers :
    (running [{}]).live ∧ (running [{}]).dmaStall = 0 ∧ (running [{}]).line = none ∧
      (running [{}]).script = {} :: [] ∧
    State.line { running [{}, {}] with line := some .nmi } = some .nmi ∧
      State.script { running [{}, {}] with line := some .nmi } = {} :: {} :: [] := by decide

/-- A step that writes a PPU register and reads the cartridge, one whose write makes the PPU raise, and one that a fault
halts (P4). -/
theorem test_witness_CpuSlotStepsAndDelivers_issued :
    (∀ act ∈ [Act.access .cpu (.wr 0x2000#16 0x90#8), .access .cpu (.rd 0x8000#16)], issuedBy .cpu act) ∧
    leaves (fun t => (t.fault, t.line)) (none, none)
      (runInstrs ([Act.access .cpu (.wr 0x2000#16 0x90#8), .access .cpu (.rd 0x8000#16)].map actInstr)
        { running [{}, {}] with events := (running []).events ++ [.cpuStep] }) ∧
    leaves (fun t => (t.fault, t.line, t.script)) (none, some .nmi, {} :: [])
      (runInstrs ([Act.access .cpu (.wr 0x2000#16 0x90#8)].map actInstr)
        { running [{ acts := [.raise] }, {}] with events := (running []).events ++ [.cpuStep] }) ∧
    leaves State.fault (some (.reentrantDispatch 0x30000000#32))
      (runInstrs ([Act.access .cpu (.wr 0x2006#16 0x21#8)].map actInstr)
        { running [{ acts := [.access .cpu (.rd 0x0000#16)] }] with events := (running []).events ++ [.cpuStep] }) :=
  ⟨by simp [issuedBy], ⟨_, rfl, rfl⟩, ⟨_, rfl, rfl⟩, ⟨_, rfl, rfl⟩⟩

/-- With an interrupt pending: a `CPU.interrupt` that pushes a byte and reads its vector, and one that a fault halts. -/
theorem test_witness_CpuSlotStepsAndDelivers_interrupt :
    let told := fun script => ({ running script with
      events := (running []).events ++ [.cpuStep, .cpuInterrupt .nmi]
      cpuSteps := 1 } : State)
    let push := [Act.access .cpu (.wr 0x01FD#16 0x80#8), .access .cpu (.rd 0xFFFA#16)]
    let bad := [Act.access .cpu (.wr 0x2006#16 0x21#8)]
    leaves (fun t => (t.fault, t.line, t.script)) (none, some .nmi, { acts := push } :: [{}])
      (runInstrs [] { running [{ acts := push }, {}] with
        line := some .nmi
        events := (running []).events ++ [.cpuStep] }) ∧
    (∀ act ∈ push, issuedBy .cpu act) ∧
    leaves State.fault none (runInstrs (push.map actInstr) (told [{}])) ∧
    (∀ act ∈ bad, issuedBy .cpu act) ∧
    leaves State.fault (some (.reentrantDispatch 0x30000000#32))
      (runInstrs (bad.map actInstr) (told [{ acts := [.access .cpu (.rd 0x0000#16)] }])) :=
  ⟨⟨_, rfl, rfl⟩, by simp [issuedBy], ⟨_, rfl, rfl⟩, by simp [issuedBy], ⟨_, rfl, rfl⟩⟩

theorem test_witness_QuantumInterleaves :
    (running [{}, {}, {}, {}]).live ∧ (running [{}, {}, {}, {}]).dmaStall = 0 ∧
      (running [{}, {}, {}, {}]).line = none ∧ (running [{}, {}, {}, {}]).script = {} :: {} :: {} :: {} :: [] ∧
    0 < State.dmaStall { running [{}, {}, {}] with dmaStall := 1 } ∧
      State.script { running [{}, {}, {}] with dmaStall := 1 } = {} :: {} :: {} :: [] := by decide

/-- An interrupt left pending by a stall, and a quantum of the host's own slots. -/
theorem test_witness_QuantumInterleaves_pending :
    let s := { running [{}, {}, {}, {}, {}] with line := some .nmi }
    s.live ∧ s.dmaStall = 0 ∧ s.line = some .nmi ∧ s.script = {} :: {} :: {} :: {} :: {} :: [] ∧
    leaves State.fault none (runInstrs [.ppuslot, .ppuslot, .ppuslot, .cpuslot] s) :=
  ⟨by decide, rfl, rfl, rfl, ⟨_, rfl, rfl⟩⟩

theorem test_witness_RatioHoldsAtQuantumBoundaries :
    Instr.quantum ≠ .ppuslot ∧ Instr.quantum ≠ .cpuslot ∧ (running [{}, {}, {}, {}]).ratioHolds ∧
    leaves State.fault none (exec .quantum (running [{}, {}, {}, {}])) :=
  ⟨by decide, by decide, by decide, ⟨_, rfl, rfl⟩⟩

end Sys2Proof.Tests
end

namespace Sys2Proof.Machine

/-! ### Registration at a free address (R132, R134) -/

@[simp] theorem readChannelAt_ended (s : State) (r : Option Result) (sp : Space) (a : Addr) :
    (s.ended r).readChannelAt sp a = s.readChannelAt sp a := rfl

@[simp] theorem writeChannelAt_ended (s : State) (r : Option Result) (sp : Space) (a : Addr) :
    (s.ended r).writeChannelAt sp a = s.writeChannelAt sp a := rfl

/-- The state after REGR has bound a free address. -/
theorem exec_regr_free {s : State} (hs : s.inSetup) {sp : Space} {a : Addr} (ha : s.readChannelAt sp a = none)
    (ch : ReadChannel) :
    exec (.regr sp a (.read ch)) s = .next ((s.bindRead sp a ch).ended (some (.registered true))) := by
  simp [exec, execRegr, whileSetup_inSetup hs, ha, finish]

/-- The state after REGW has bound a free address. -/
theorem exec_regw_free {s : State} (hs : s.inSetup) {sp : Space} {a : Addr} (ha : s.writeChannelAt sp a = none)
    (ch : WriteChannel) :
    exec (.regw sp a (.write ch)) s = .next ((s.bindWrite sp a ch).ended (some (.registered true))) := by
  simp [exec, execRegw, whileSetup_inSetup hs, ha, finish]

/-! ### A list of registrations in the CPU space -/

/-- A well-formed registration in the CPU space. -/
inductive CpuRegistration : Instr → Prop
  | read (a : Addr) (ch : ReadChannel) : CpuRegistration (.regr .cpu a (.read ch))
  | write (a : Addr) (ch : WriteChannel) : CpuRegistration (.regw .cpu a (.write ch))

/-- Every word of `l` registers in the CPU space, at an address that is free in `s` and that no other word of `l`
names in its direction: what makes each succeed, whatever their order. -/
structure Registrable (l : List Instr) (s : State) : Prop where
  only : ∀ i ∈ l, CpuRegistration i
  nodup : l.Nodup
  readOnce : ∀ a c d, .regr .cpu a (.read c) ∈ l → .regr .cpu a (.read d) ∈ l → c = d
  writeOnce : ∀ a c d, .regw .cpu a (.write c) ∈ l → .regw .cpu a (.write d) ∈ l → c = d
  readFree : ∀ a c, .regr .cpu a (.read c) ∈ l → s.readChannelAt .cpu a = none
  writeFree : ∀ a c, .regw .cpu a (.write c) ∈ l → s.writeChannelAt .cpu a = none

/-- `t` is `s` with exactly the CPU-space bindings that `l` names added, and nothing else changed but how the last
operation ended. -/
structure Binds (l : List Instr) (s t : State) : Prop where
  read : ∀ a ch, t.readChannelAt .cpu a = some ch ↔
    .regr .cpu a (.read ch) ∈ l ∨ s.readChannelAt .cpu a = some ch
  write : ∀ a ch, t.writeChannelAt .cpu a = some ch ↔
    .regw .cpu a (.write ch) ∈ l ∨ s.writeChannelAt .cpu a = some ch
  rdPpu : t.rdMap.ppu = s.rdMap.ppu
  wrPpu : t.wrMap.ppu = s.wrMap.ppu
  result : t.result = if l = [] then s.result else some (.registered true)
  rest : { t with rdMap := s.rdMap, wrMap := s.wrMap, phase := s.phase, result := s.result } = s

theorem Binds.params {l : List Instr} {s t : State} (h : Binds l s t) : t.params = s.params :=
  (congrArg State.params h.rest :)

theorem Binds.inSetup {l : List Instr} {s t : State} (h : Binds l s t) (hs : s.inSetup) : t.inSetup :=
  ⟨(congrArg State.sched h.rest).trans hs.1, (congrArg State.fault h.rest).trans hs.2⟩

theorem Binds.nil (s : State) : Binds [] s s where
  read := by simp
  write := by simp
  rdPpu := rfl
  wrPpu := rfl
  result := rfl
  rest := rfl

theorem Binds.cons {i : Instr} {l : List Instr} {s t u : State} (h : Binds [i] s t) (k : Binds l t u) :
    Binds (i :: l) s u where
  read a ch := by rw [k.read, h.read, List.mem_singleton, List.mem_cons, or_left_comm, or_assoc]
  write a ch := by rw [k.write, h.write, List.mem_singleton, List.mem_cons, or_left_comm, or_assoc]
  rdPpu := k.rdPpu.trans h.rdPpu
  wrPpu := k.wrPpu.trans h.wrPpu
  result := by
    rw [k.result, h.result]
    simp
  rest := (congrArg (fun x : State =>
    { x with rdMap := s.rdMap, wrMap := s.wrMap, phase := s.phase, result := s.result }) k.rest).trans h.rest

/-- A registrable word succeeds and adds its own binding. -/
theorem Registrable.exec_head {i : Instr} {l : List Instr} {s : State} (hs : s.inSetup)
    (h : Registrable (i :: l) s) : ∃ t, exec i s = .next t ∧ Binds [i] s t := by
  cases h.only i List.mem_cons_self with
  | read a ch =>
    have ha : s.readChannelAt .cpu a = none := h.readFree a ch List.mem_cons_self
    refine ⟨_, exec_regr_free hs ha ch, ⟨fun b c => ?_, by simp, rfl, rfl, rfl, rfl⟩⟩
    rw [readChannelAt_ended, readChannelAt_bindRead]
    by_cases hb : b = a
    · simp [hb, ha, eq_comm]
    · simp [hb]
  | write a ch =>
    have ha : s.writeChannelAt .cpu a = none := h.writeFree a ch List.mem_cons_self
    refine ⟨_, exec_regw_free hs ha ch, ⟨by simp, fun b c => ?_, rfl, rfl, rfl, rfl⟩⟩
    rw [writeChannelAt_ended, writeChannelAt_bindWrite]
    by_cases hb : b = a
    · simp [hb, ha, eq_comm]
    · simp [hb]

/-- What is left to register is still registrable once the first word is bound: that word named another address. -/
theorem Registrable.tail {i : Instr} {l : List Instr} {s t : State} (h : Registrable (i :: l) s)
    (ht : Binds [i] s t) : Registrable l t where
  only j hj := h.only j (List.mem_cons_of_mem i hj)
  nodup := h.nodup.of_cons
  readOnce a c d hc hd := h.readOnce a c d (List.mem_cons_of_mem i hc) (List.mem_cons_of_mem i hd)
  writeOnce a c d hc hd := h.writeOnce a c d (List.mem_cons_of_mem i hc) (List.mem_cons_of_mem i hd)
  readFree a c hc := by
    have hc' := List.mem_cons_of_mem i hc
    refine Option.eq_none_iff_forall_ne_some.mpr fun d hd => ?_
    rcases (ht.read a d).mp hd with hi | hd
    · obtain rfl := List.mem_singleton.mp hi
      cases h.readOnce a c d hc' List.mem_cons_self
      exact (List.nodup_cons.mp h.nodup).1 hc
    · simp [h.readFree a c hc'] at hd
  writeFree a c hc := by
    have hc' := List.mem_cons_of_mem i hc
    refine Option.eq_none_iff_forall_ne_some.mpr fun d hd => ?_
    rcases (ht.write a d).mp hd with hi | hd
    · obtain rfl := List.mem_singleton.mp hi
      cases h.writeOnce a c d hc' List.mem_cons_self
      exact (List.nodup_cons.mp h.nodup).1 hc
    · simp [h.writeFree a c hc'] at hd

/-- A registrable list runs to its end, binding exactly what it names. -/
theorem runInstrs_registrable {l : List Instr} {s : State} (hs : s.inSetup) (h : Registrable l s) :
    ∃ t, runInstrs l s = .next t ∧ Binds l s t := by
  induction l generalizing s with
  | nil => exact ⟨s, rfl, .nil s⟩
  | cons i l ih =>
    obtain ⟨t, hi, ht⟩ := h.exec_head hs
    obtain ⟨u, hl, hu⟩ := ih (ht.inSetup hs) (h.tail ht)
    exact ⟨u, by simpa [runInstrs, hi] using hl, ht.cons hu⟩

/-! ### The words of WIRE (R111) and R9 -/

@[simp] theorem mem_readChannels (ch : ReadChannel) : ch ∈ readChannels := by cases ch <;> decide

@[simp] theorem mem_writeChannels (ch : WriteChannel) : ch ∈ writeChannels := by cases ch <;> decide

@[simp] theorem regr_mem_wire (r : RegisterAddrs) (a : Addr) (ch : ReadChannel) :
    .regr .cpu a (.read ch) ∈ wire r ↔ readChannelAddr r ch = a := by
  simp [wire]

@[simp] theorem regw_mem_wire (r : RegisterAddrs) (a : Addr) (ch : WriteChannel) :
    .regw .cpu a (.write ch) ∈ wire r ↔ writeChannelAddr r ch = a := by
  simp [wire]

theorem cpuRegistration_of_mem_wire {r : RegisterAddrs} {i : Instr} (h : i ∈ wire r) : CpuRegistration i := by
  rcases List.mem_append.mp h with h | h
  · obtain ⟨ch, -, rfl⟩ := List.mem_map.mp h
    exact .read _ ch
  · obtain ⟨ch, -, rfl⟩ := List.mem_map.mp h
    exact .write _ ch

theorem wire_nodup (r : RegisterAddrs) : (wire r).Nodup := by
  refine List.Nodup.append ?_ ?_ ?_
  · exact List.Nodup.map (fun c d h => by injection h with _ _ h; injection h) (by decide)
  · exact List.Nodup.map (fun c d h => by injection h with _ _ h; injection h) (by decide)
  · simp [List.Disjoint]

theorem wire_ne_nil (r : RegisterAddrs) : wire r ≠ [] := by simp [wire, readChannels]

/-- R9: no two channels of one direction share an address. -/
theorem channelAddr_injective {p : Params} (h : paramsOk p = true) :
    Function.Injective (readChannelAddr p.addrs) ∧ Function.Injective (writeChannelAddr p.addrs) := by
  simp only [paramsOk, Bool.and_eq_true, decide_eq_true_eq] at h
  obtain ⟨⟨-, hr⟩, hw⟩ := h
  exact ⟨fun c d => List.inj_on_of_nodup_map hr (mem_readChannels c) (mem_readChannels d),
    fun c d => List.inj_on_of_nodup_map hw (mem_writeChannels c) (mem_writeChannels d)⟩

theorem readChannelAt_of_unbound {s : State} {sp : Space} (h : s.rdMap.get sp = []) (a : Addr) :
    s.readChannelAt sp a = none := by
  simp [State.readChannelAt, h, cellFind]

theorem writeChannelAt_of_unbound {s : State} {sp : Space} (h : s.wrMap.get sp = []) (a : Addr) :
    s.writeChannelAt sp a = none := by
  simp [State.writeChannelAt, h, cellFind]

/-- With no binding yet in the CPU space, the words of WIRE are registrable in any order. -/
theorem registrable_of_perm_wire {s : State} {l : List Instr} (hp : paramsOk s.params = true)
    (hr : s.rdMap.cpu = []) (hw : s.wrMap.cpu = []) (hl : l.Perm (wire s.params.addrs)) : Registrable l s where
  only i hi := cpuRegistration_of_mem_wire (hl.mem_iff.mp hi)
  nodup := hl.nodup_iff.mpr (wire_nodup _)
  readOnce a c d hc hd := by
    rw [hl.mem_iff, regr_mem_wire] at hc hd
    exact (channelAddr_injective hp).1 (hc.trans hd.symm)
  writeOnce a c d hc hd := by
    rw [hl.mem_iff, regw_mem_wire] at hc hd
    exact (channelAddr_injective hp).2 (hc.trans hd.symm)
  readFree a _ _ := readChannelAt_of_unbound (sp := .cpu) hr a
  writeFree a _ _ := writeChannelAt_of_unbound (sp := .cpu) hw a

theorem wiredOk_iff (s : State) : s.wiredOk = true ↔
    (∀ ch, s.readChannelAt .cpu (readChannelAddr s.params.addrs ch) = some ch) ∧
      ∀ ch, s.writeChannelAt .cpu (writeChannelAddr s.params.addrs ch) = some ch := by
  simp [State.wiredOk]

/-- Settles O21: each word of WIRE names a CPU-space address of its own (R9), so by induction on any order of them each
finds its address free, and the maps end with exactly those bindings. -/
theorem wireBindsInAnyOrder : Obligations.WireBindsInAnyOrder := by
  intro s l hs hp hr hw hl
  obtain ⟨t, hrun, ht⟩ := runInstrs_registrable hs (registrable_of_perm_wire hp hr hw hl)
  have hread : ∀ a ch, t.readChannelAt .cpu a = some ch ↔ readChannelAddr s.params.addrs ch = a := by
    intro a ch
    simp [ht.read, hl.mem_iff, readChannelAt_of_unbound (sp := .cpu) hr]
  have hwrite : ∀ a ch, t.writeChannelAt .cpu a = some ch ↔ writeChannelAddr s.params.addrs ch = a := by
    intro a ch
    simp [ht.write, hl.mem_iff, writeChannelAt_of_unbound (sp := .cpu) hw]
  have hwired : t.wiredOk = true := (wiredOk_iff t).mpr (by simp [ht.params, hread, hwrite])
  have hne : l ≠ [] := fun e => wire_ne_nil _ (List.nil_perm.mp (e ▸ hl))
  exact ⟨t, hrun, hwired, by rw [ht.result, if_neg hne], hread, hwrite, ht.rdPpu, ht.wrPpu, ht.rest⟩

end Sys2Proof.Machine

namespace Sys2Proof.Machine

/-! ### The event log and the state after construction (R50, R55) -/

/-- Done or halted, an operation of a running machine keeps what it must. -/
theorem Runs.keeps {α : Type} {s : State} {f : Flow α} (h : Runs s f) : Keeps s f.last := by
  cases f with
  | done a t => exact h.1
  | halted t => exact h.1

/-- An operation that has a step ends in the state its effect left, with some result. -/
theorem finish_last {f : Flow Result} {t : State} (h : finish f = .next t) : ∃ r, t = f.last.ended r := by
  rcases finish_next h with ⟨v, u, rfl, rfl⟩ | ⟨u, rfl, rfl⟩
  · exact ⟨some v, rfl⟩
  · exact ⟨none, rfl⟩

/-- Taking the host's input of a START or ITER touches nothing that an operation must keep. -/
theorem takeInput_runs (s : State) : Runs s (.done () s.afterHostInput) :=
  afterHostInput_runs (Runs.done () (.refl _) ⟨rfl, rfl, rfl⟩ rfl rfl rfl)

/-- START up to the cartridge's answer, whichever it is: the host's input is taken and the load is logged (R211). -/
theorem loadAttempt_runs (path : String) (ok : Bool) (s : State) :
    Runs s (.done () ((s.afterHostInput.afterDraw.recordPath path).log (.cartLoad ok))) := by
  refine Runs.done () ⟨?_, ?_, ?_, ?_, ?_, ?_, ?_, fun sp h => ?_⟩ ?_ ?_ ?_ ?_ <;> simp [CountsAgree, List.count_append]
  exact h

/-- START only adds to the log. -/
theorem leaveIdle_log {s t : State} (h : finish (leaveIdle s.hostInput.path s.afterHostInput) = .next t) :
    s.events <+: t.events := by
  have load (ok : Bool) := (loadAttempt_runs s.hostInput.path ok s).keeps.log
  rcases leaveIdle_next h with ⟨-, rfl⟩ | ⟨-, -, rfl⟩ | ⟨-, -, u, -, hu, rfl⟩ | ⟨-, -, u, -, hu, rfl⟩
  · simp
  · exact load false
  · exact (load true).trans hu.log
  · exact (load true).trans hu.log

/-- Settles O14: by the ends an operation can have, each appends to the log or leaves it. -/
theorem eventLogOnlyGrows : Obligations.EventLogOnlyGrows := by
  intro i s t h
  rcases exec_cases h with ⟨sp, a, ch, -, -, rfl | rfl⟩ | ⟨sp, a, ch, -, -, rfl | rfl⟩ | ⟨-, -, rfl⟩ |
    ⟨-, -, hf⟩ | ⟨-, -, -, rfl⟩ | ⟨-, -, -, -, f, hr, hf⟩
  case inr.inr.inr.inl => exact leaveIdle_log hf
  case inr.inr.inr.inr.inr =>
    obtain ⟨r, rfl⟩ := finish_last hf
    exact hr.keeps.log
  all_goals simp

/-- Settles O8: the maps and memories by their lookups, every other row by its field. -/
theorem constructionState : Obligations.ConstructionState :=
  ⟨fun sp _ => by cases sp <;> rfl, fun sp _ => by cases sp <;> exact ⟨rfl, rfl⟩, rfl, rfl, rfl, rfl, rfl, rfl, rfl,
    fun sp => by cases sp <;> rfl, rfl, rfl, rfl, rfl, rfl, rfl, rfl, rfl, rfl⟩

theorem reset_pristine : State.reset.Pristine :=
  ⟨rfl, rfl, rfl, rfl, rfl, rfl, rfl, rfl, rfl, ⟨rfl, rfl, rfl, rfl, rfl, rfl⟩⟩

/-- Settles O9: the block is Idle with no fault, and nothing is listed, bound, logged or counted. -/
theorem constructionMeetsInvariant : Obligations.ConstructionMeetsInvariant where
  canonical := ⟨fun sp => by cases sp <;> exact ⟨.nil, nofun⟩, fun sp => by cases sp <;> exact ⟨.nil, nofun⟩,
    fun sp => by cases sp <;> exact ⟨.nil, nofun⟩⟩
  outside := rfl
  unbusy _ := rfl
  faulted h := absurd rfl h
  setupFailed h := absurd rfl h
  wired := nofun
  pristine _ := reset_pristine
  counters := ⟨.inl rfl, rfl, rfl⟩

/-! ### The invariant through the ends an operation can have -/

theorem Keeps.canonical {s t : State} (k : Keeps s t) (h : s.canonical) : t.canonical := by
  obtain ⟨hm, hr, hw⟩ := h
  exact ⟨fun sp => k.mem sp (hm sp), by rwa [k.rdMap], by rwa [k.wrMap]⟩

theorem Keeps.wiredOk {s t : State} (k : Keeps s t) : t.wiredOk = s.wiredOk := wiredOk_congr k.rdMap k.wrMap k.params

/-- Counters that agree with the log of a machine without a fault go on agreeing. -/
theorem CountsAgree.counts {s t : State} (c : CountsAgree s t) (h : s.countersMatchLog) (hs : s.fault = none) :
    t.events.count .ppuStep = t.ppuSteps ∧ t.cpuSteps = t.events.count .cpuStep ∧
      t.redraws = t.events.count .redraw := by
  obtain ⟨hp, hc, hr⟩ := h
  obtain ⟨cp, cc, cr⟩ := c
  have hp : s.events.count .ppuStep = s.ppuSteps := hp.resolve_right fun hf => hf.1 hs
  exact ⟨by omega, by omega, by omega⟩

theorem CountsAgree.matchLog {s t : State} (c : CountsAgree s t) (h : s.countersMatchLog) (hs : s.fault = none) :
    t.countersMatchLog :=
  (c.counts h hs).imp_left .inl

/-- A fault inside a `PPU.step` may leave that one step uncounted (log entry 23). -/
theorem CountsHalted.matchLog {s t : State} (c : CountsHalted s t) (h : s.countersMatchLog) (hs : s.fault = none)
    (ht : t.fault ≠ none) : t.countersMatchLog := by
  rcases c with c | ⟨hfree, c⟩
  · exact c.matchLog h hs
  · obtain ⟨hp, hc, hr⟩ := c.counts h hs
    exact ⟨.inr ⟨ht, hfree, hp⟩, hc, hr⟩

/-- A running machine has no setup error. -/
theorem State.Inv.setupError_live {s : State} (h : s.Inv) (hl : s.live) : s.setupError = none :=
  by_contra fun he => by simpa [hl.1] using (h.setupFailed he).1

/-- The invariant reads nothing of the words that wait. -/
theorem State.Inv.take_command {s : State} (h : s.Inv) (rest : List Word) : State.Inv { s with commands := rest } :=
  { h with pristine := fun hi => { h.pristine hi with } }

/-- Registration keeps the invariant: canonical maps are all that it asks of them in Idle. -/
theorem State.Inv.rebound {s : State} (h : s.Inv) (hs : s.inSetup) {rd : PerSpace ReadMap} {wr : PerSpace WriteMap}
    (hr : ∀ sp, mapWf (rd.get sp)) (hw : ∀ sp, mapWf (wr.get sp)) (r : Option Result) :
    State.Inv (State.ended { s with rdMap := rd, wrMap := wr } r) where
  canonical := ⟨h.canonical.1, hr, hw⟩
  outside := rfl
  unbusy := h.unbusy
  faulted := h.faulted
  setupFailed := h.setupFailed
  wired hrun := absurd (hs.1.symm.trans hrun) (by decide)
  pristine _ := { h.pristine hs.1 with }
  counters := h.counters

/-- A map binding keeps canonical form in both spaces. -/
theorem mapWf_set_insert {β : Type} {m : PerSpace (List (Nat × β))} (h : ∀ sp, mapWf (m.get sp)) (sp : Space) (a : Addr)
    (v : β) (sp' : Space) : mapWf ((m.set sp (cellInsert a.toNat v (m.get sp))).get sp') := by
  rw [perSpace_get_set]
  split
  · exact mapWf_insert a v (h sp)
  · exact h sp'

/-- An operation of a running machine that a fault does not halt leaves it running, or stopped by the host. -/
theorem State.Inv.settled {s t : State} (h : s.Inv) (hl : s.live) (k : Keeps s t) (c : CountsAgree s t)
    (hs : t.sched ≠ .idle) (hf : t.fault = s.fault) (hb : t.busy = s.busy) (r : Option Result) : (t.ended r).Inv where
  canonical := k.canonical h.canonical
  outside := rfl
  unbusy _ := hb.trans (h.unbusy hl.2)
  faulted hne := absurd (hf.trans hl.2) hne
  setupFailed hne := absurd (k.setupError.trans (h.setupError_live hl)) hne
  wired _ := ⟨k.wiredOk.trans (h.wired hl.1).1, k.cartLoaded.trans (h.wired hl.1).2⟩
  pristine hi := absurd hi hs
  counters := c.matchLog h.counters hl.2

/-- A fault that halts an operation of a running machine stops it (R253). -/
theorem State.Inv.halted {s t : State} (h : s.Inv) (hl : s.live) (k : Keeps s t) (c : CountsHalted s t)
    (hs : t.sched = .stopped) (hf : t.fault ≠ none) (r : Option Result) : (t.ended r).Inv where
  canonical := k.canonical h.canonical
  outside := rfl
  unbusy hn := absurd hn hf
  faulted _ := hs
  setupFailed hne := absurd (k.setupError.trans (h.setupError_live hl)) hne
  wired hrun := absurd (hs.symm.trans hrun) (by decide)
  pristine hi := absurd (hs.symm.trans hi) (by decide)
  counters := c.matchLog h.counters hl.2 hf

/-- An operation of a running machine keeps the invariant, whatever its collaborators do. -/
theorem State.Inv.runs {α : Type} {s : State} {f : Flow α} (h : s.Inv) (hl : s.live) (hr : Runs s f)
    (r : Option Result) : (f.last.ended r).Inv := by
  cases f with
  | done a t =>
    obtain ⟨k, c, hs, hf, hb⟩ := hr
    exact h.settled hl k c (by simp [hs, hl.1]) hf hb r
  | halted t =>
    obtain ⟨k, c, hs, f, hf, -⟩ := hr
    exact h.halted hl k c hs (by simp [hf]) r

/-- A registration while Running stops the machine with its fault (R130). -/
theorem State.Inv.lateRegistration {s : State} (h : s.Inv) (hl : s.live) (w : Word) :
    ((s.enterFault (.lateRegistration w)).ended none).Inv :=
  h.halted (t := s.enterFault (.lateRegistration w)) hl
    ⟨rfl, rfl, rfl, rfl, rfl, rfl, List.prefix_refl _, fun _ hm => hm⟩ (.inl ⟨rfl, rfl, rfl⟩) rfl (by simp) none

/-- The stop that an ITER polls (R214). -/
theorem State.Inv.stop {s : State} (h : s.Inv) (hl : s.live) (r : Option Result) :
    (State.ended { s.afterHostInput with sched := .stopped } r).Inv := by
  obtain ⟨k, c, -, hf, hb⟩ := takeInput_runs s
  exact h.settled (t := { s.afterHostInput with sched := .stopped }) hl { k with } c nofun hf hb r

/-- A START that fails leaves the setup error and no cartridge (R211, R251). -/
theorem State.Inv.abort {α : Type} {a : α} {s t : State} (h : s.Inv) (hs : s.inSetup) (hr : Runs s (.done a t))
    (e : SetupError) (r : Option Result) : ((t.abortStart e).ended r).Inv := by
  obtain ⟨k, c, -, hf, hb⟩ := hr
  have hf : t.fault = none := hf.trans hs.2
  exact {
    canonical := k.canonical h.canonical
    outside := rfl
    unbusy := fun _ => hb.trans (h.unbusy hs.2)
    faulted := fun _ => rfl
    setupFailed := fun _ => ⟨rfl, hf, k.cartLoaded.trans (h.pristine hs.1).cartLoaded⟩
    wired := nofun
    pristine := nofun
    counters := c.matchLog h.counters hs.2 }

/-- The state in which START resets the processors is that of a running machine: wired, loaded, with no fault. -/
theorem State.Inv.entered {s : State} (h : s.Inv) (hs : s.inSetup) (hw : s.wiredOk = true) :
    s.cartIn.running.Inv ∧ s.cartIn.running.live := by
  obtain ⟨k, c, -, hf, -⟩ := loadAttempt_runs s.hostInput.path true s
  have hf : s.cartIn.fault = none := hf.trans hs.2
  have he : s.cartIn.setupError = none := k.setupError.trans (h.pristine hs.1).setupError
  refine ⟨?_, rfl, hf⟩
  exact {
    canonical := k.canonical h.canonical
    outside := by simpa [State.cartIn] using h.outside
    unbusy := fun _ => rfl
    faulted := fun hne => absurd hf hne
    setupFailed := fun hne => absurd he hne
    wired := fun _ => ⟨k.wiredOk.trans hw, rfl⟩
    pristine := nofun
    counters := c.matchLog h.counters hs.2 }

/-- START keeps the invariant in each of its four ends. -/
theorem State.Inv.leaveIdle {s t : State} (h : s.Inv) (hs : s.inSetup)
    (hf : finish (leaveIdle s.hostInput.path s.afterHostInput) = .next t) : t.Inv := by
  rcases leaveIdle_next hf with ⟨-, rfl⟩ | ⟨-, -, rfl⟩ | ⟨hw, -, u, hu, -, rfl⟩ | ⟨hw, -, u, hu, -, rfl⟩
  · exact h.abort hs (takeInput_runs s) _ _
  · exact h.abort hs (loadAttempt_runs _ false s) _ _
  all_goals
    obtain ⟨hi, hl⟩ := h.entered hs hw
    have := hi.runs hl (enterRunning_obeys s.cartIn).runs
    rw [hu] at this
    exact this _

/-- Every operation that has a step keeps the invariant. -/
theorem State.Inv.exec {i : Instr} {s t : State} (h : s.Inv) (he : exec i s = .next t) : t.Inv := by
  obtain ⟨-, hr, hw⟩ := h.canonical
  rcases exec_cases he with ⟨sp, a, ch, -, hs, rfl | rfl⟩ | ⟨sp, a, ch, -, hs, rfl | rfl⟩ | ⟨-, hl, rfl⟩ |
    ⟨-, hs, hf⟩ | ⟨-, hl, -, rfl⟩ | ⟨-, -, -, hl, f, hrun, hf⟩
  · exact h.rebound hs hr hw _
  · exact h.rebound hs (mapWf_set_insert hr sp a ch) hw _
  · exact h.rebound hs hr hw _
  · exact h.rebound hs hr (mapWf_set_insert hw sp a ch) _
  · exact h.lateRegistration hl _
  · exact h.leaveIdle hs hf
  · exact h.stop hl _
  · obtain ⟨r, rfl⟩ := finish_last hf
    exact h.runs hl hrun r

/-- A step takes a word, decodes it and runs the operation. -/
theorem step_next {s t : State} (h : step s = .next t) :
    ∃ rest i, exec i { s with commands := rest } = .next t := by
  unfold step at h
  split at h
  · cases h
  · split at h
    · cases h
    · exact ⟨_, _, h⟩

/-- Settles O10: a step is an operation run without its word, and each end an operation can have keeps the invariant. -/
theorem stepKeepsInvariant : Obligations.StepKeepsInvariant := by
  intro s t h hstep
  obtain ⟨rest, i, he⟩ := step_next hstep
  exact (h.take_command rest).exec he

/-! ### What an ITER owes (R213 to R217, R222) -/

@[simp] theorem State.capLeft_beginIter (s : State) (elapsed : Nat) :
    (s.beginIter elapsed).capLeft = s.params.maxQuanta := by
  simp [State.capLeft]

theorem atMost_none (n : Nat) : atMost none n = n := rfl

theorem atMost_some (b n : Nat) : atMost (some b) n = min n b := rfl

/-- The ceiling cuts the budget, and nothing else does. -/
theorem State.applyCeiling_budget (s : State) : s.applyCeiling.budget = atMost s.params.budgetCeiling s.budget := by
  unfold State.applyCeiling
  cases s.params.budgetCeiling with
  | none => exact (atMost_none s.budget).symm
  | some c =>
    rw [atMost_some]
    by_cases hc : s.budget > c
    · simp only [if_pos hc]
      exact (Nat.min_eq_right (Nat.le_of_lt hc)).symm
    · simp only [if_neg hc]
      exact (Nat.min_eq_left (Nat.le_of_not_gt hc)).symm

/-- The quanta owed up to a cap never overdraw the budget, and leave less than a quantum or reach the cap. -/
theorem atMost_owed (b : Nat) {q : Nat} (hq : 0 < q) (cap : Option Nat) :
    atMost cap (b / q) * q ≤ b ∧ (b - atMost cap (b / q) * q < q ∨ cap = some (atMost cap (b / q))) := by
  have hle : b / q * q ≤ b := Nat.div_mul_le_self b q
  have hrest : b - b / q * q < q := by
    rw [← Nat.mod_eq_sub_div_mul]
    exact Nat.mod_lt b hq
  cases cap with
  | none => exact ⟨hle, .inl hrest⟩
  | some m =>
    rcases Nat.le_total (b / q) m with h | h
    · rw [atMost_some, Nat.min_eq_left h]
      exact ⟨hle, .inl hrest⟩
    · rw [atMost_some, Nat.min_eq_right h]
      exact ⟨(Nat.mul_le_mul_right q h).trans hle, .inr rfl⟩

/-- An ITER of a running machine is its outer iteration, begun once the host's input is taken. -/
theorem exec_iter_live {s : State} (hl : s.live) :
    exec .iter s = finish (outerIteration s.hostInput s.afterHostInput) :=
  whileRunning_live hl fun s => outerIteration s.hostInput s.afterHostInput

/-- What an ITER of elapsed time `elapsed` that no fault halts does to the block: `n` quanta are run and paid for, the
rest of the budget is kept up to the ceiling, and one redraw is requested (R213 to R217). -/
structure RanQuanta (elapsed n : Nat) (s t : State) : Prop where
  quantaThisIter : t.quantaThisIter = n
  quanta : t.quanta = s.quanta + n
  ppuSteps : t.ppuSteps = s.ppuSteps + 3 * n
  cpuSlots : t.cpuSteps + t.stallSlots = s.cpuSteps + s.stallSlots + n
  redraws : t.redraws = s.redraws + 1
  budget : t.budget = atMost s.params.budgetCeiling (s.budget + elapsed - n * s.params.quantumNs)
  hostInputs : t.hostInputs = s.hostInputs
  hostDrawn : t.hostDrawn = s.hostDrawn

/-- An outer iteration that neither stops nor is halted drains the quanta owed, up to the cap (R216, R222). -/
theorem outerIteration_done {h : HostInput} {s t : State} {v : Result} (hs : h.stop = false)
    (hq : 0 < s.params.quantumNs) (hd : outerIteration h s = .done v t) :
    ∃ n, n = atMost s.params.maxQuanta ((s.budget + h.elapsed) / s.params.quantumNs) ∧ v = .count n ∧
      RanQuanta h.elapsed n s t := by
  simp only [outerIteration, hs, Bool.false_eq_true, if_false] at hd
  obtain ⟨_, u, hu, hd⟩ := andThen_done hd
  obtain ⟨n, hn, hb, hi, hp, hc, hqu, hr, hpar, hhi, hhd⟩ := drain_done (by simpa using hq) hu
  cases hd
  simp only [State.capLeft_beginIter, State.beginIter_budget, State.beginIter_params, State.beginIter_quantaThisIter,
    Nat.zero_add] at hn hb hi hpar
  refine ⟨n, hn, by rw [hi], ⟨by simpa using hi, by simpa using hqu, by simpa using hp, by simpa using hc,
    by simpa using hr, ?_, by simpa using hhi, by simpa using hhd⟩⟩
  rw [State.redraw_budget, State.applyCeiling_budget, hpar, hb]

/-- Settles O52: an ITER that no fault halts ran the quanta owed up to the cap, and the bounds on what it paid and left
are those of that division. -/
theorem iterRunsTheQuantaOwed : Obligations.IterRunsTheQuantaOwed := by
  intro s hl hq hstop
  have hruns := afterHostInput_runs (outerIteration_runs (s := s.afterHostInput) hstop)
  rw [exec_iter_live hl]
  cases hd : outerIteration s.hostInput s.afterHostInput with
  | halted u =>
    rw [hd] at hruns
    obtain ⟨-, -, -, f, hf, -⟩ := hruns
    exact ⟨_, rfl, fun hn => by simp [hf] at hn⟩
  | done v u =>
    rw [hd] at hruns
    obtain ⟨-, -, hsched, -, -⟩ := hruns
    obtain ⟨n, hn, rfl, hran⟩ := outerIteration_done hstop (by simpa using hq) hd
    obtain ⟨hi, hqu, hp, hc, hr, hb, -, -⟩ := hran
    simp only [State.afterHostInput_params, State.afterHostInput_budget, State.afterHostInput_quanta,
      State.afterHostInput_ppuSteps, State.afterHostInput_cpuSteps, State.afterHostInput_stallSlots,
      State.afterHostInput_redraws] at hn hqu hp hc hr hb
    obtain ⟨hpaid, hleft⟩ := atMost_owed (s.budget + s.hostInput.elapsed) hq s.params.maxQuanta
    rw [← hn] at hpaid hleft
    exact ⟨_, rfl, fun _ => ⟨n, hn, rfl, hi, hqu, hp, hc, hr, hsched.trans hl.1, hpaid, hleft, hb⟩⟩

end Sys2Proof.Machine

namespace Sys2Proof.Machine

/-! ### An intercepted write (R81, R138, R141) -/

/-- A space whose backing array stays keeps every byte. -/
theorem raw_congr {s t : State} {sp : Space} (h : t.mem.get sp = s.mem.get sp) (b : Addr) : t.raw sp b = s.raw sp b := by
  simp only [State.raw, h]

@[simp] theorem withResult_last {α : Type} (f : Flow α) (r : α → Result) : (withResult f r).last = f.last := by
  cases f <;> rfl

/-- WR on a free space at a bound address runs the channel's action and nothing else. -/
theorem dispatchWrite_intercepted {nest : Nested} {s : State} {sp : Space} {a : Addr} {ch : WriteChannel}
    (hb : s.busy.get sp = false) (hc : s.writeChannelAt sp a = some ch) (v : Byte) :
    dispatchWrite nest sp a v s = invokeWrite nest sp ch v s := by
  simp [dispatchWrite, State.writeClass, classOf, hb, hc]

/-- A write channel's action leaves its own space's backing array, done or halted: the space is busy meanwhile. -/
theorem invokeWrite_mem {nest : Nested} (hn : NestObeys nest) (sp : Space) (ch : WriteChannel) (v : Byte) (s : State) :
    (invokeWrite nest sp ch v s).last.mem.get sp = s.mem.get sp := by
  have h := (writeAction_obeys hn ch v (s.setBusy sp true)).within.guarded sp (by simp)
  unfold invokeWrite
  cases hm : writeAction nest ch v (s.setBusy sp true) <;> rw [hm] at h <;> exact h

/-- Settles O30: the WR is its channel's action, inside which the space is busy, and a busy space's memory stays. -/
theorem interceptedWriteNeverStores : Obligations.InterceptedWriteNeverStores := by
  intro s sp a v ch hl hb hc
  have hexec : exec (.wr sp a v) s = finish (withResult (invokeWrite nested sp ch v s) fun _ => .nothing) := by
    rw [← dispatchWrite_intercepted hb hc v]
    exact whileRunning_live hl fun s => withResult (dispatchWrite nested sp a v s) fun _ => .nothing
  obtain ⟨t, ht⟩ := finish_answers (withResult (invokeWrite nested sp ch v s) fun _ => .nothing)
  obtain ⟨r, hr⟩ := finish_last ht
  rw [withResult_last] at hr
  exact ⟨t, hexec.trans ht, raw_congr (hr ▸ invokeWrite_mem nested_obeys sp ch v s)⟩

/-! ### The depth of nested calls (R79, R139) -/

/-- Settles O33: two spaces can be free at most, so by induction each level beyond three changes nothing. -/
theorem nestingDepthSuffices : Obligations.NestingDepthSuffices := by
  intro n ag acts s
  induction n with
  | zero => rfl
  | succ n ih =>
    have hfree : s.freeSpaces < 3 + n := by
      have := freeSpaces_le s
      omega
    exact (nestedTo_succ hfree ag acts).trans ih

end Sys2Proof.Machine

namespace Sys2Proof.Machine

/-! ### The fields of a word (R101, R102) -/

section
variable (op : BitVec 4) (sb : BitVec 1) (a : Addr) (d : Byte)

@[simp] theorem opField_wordOf : opField (wordOf op sb a d) = op :=
  BitVec.extractLsb'_append_eq_left (w := 4) (w' := 28)

/-- Below `OP`, a word is the remaining fields. -/
theorem extractLsb'_wordOf_belowOp {start len : Nat} (h : start + len ≤ 28) :
    (wordOf op sb a d).extractLsb' start len = (sb ++ (0#3 ++ (a ++ d))).extractLsb' start len :=
  BitVec.extractLsb'_append_eq_of_add_le h

@[simp] theorem spaceField_wordOf : spaceField (wordOf op sb a d) = sb :=
  (extractLsb'_wordOf_belowOp op sb a d (by decide)).trans (BitVec.extractLsb'_append_eq_left (w := 1) (w' := 27))

/-- Below `S`, a word is the remaining fields. -/
theorem extractLsb'_wordOf_belowSpace {start len : Nat} (h : start + len ≤ 27) :
    (wordOf op sb a d).extractLsb' start len = ((0#3 : BitVec 3) ++ (a ++ d)).extractLsb' start len :=
  (extractLsb'_wordOf_belowOp op sb a d (by omega)).trans (BitVec.extractLsb'_append_eq_of_add_le h)

@[simp] theorem reservedField_wordOf : reservedField (wordOf op sb a d) = 0#3 :=
  (extractLsb'_wordOf_belowSpace op sb a d (by decide)).trans (BitVec.extractLsb'_append_eq_left (w := 3) (w' := 24))

@[simp] theorem addrField_wordOf : addrField (wordOf op sb a d) = a :=
  (extractLsb'_wordOf_belowSpace op sb a d (by decide)).trans
    ((BitVec.extractLsb'_append_eq_of_add_le (v := 3) (w := 24) (by decide)).trans
      (BitVec.extractLsb'_append_eq_left (w := 16) (w' := 8)))

@[simp] theorem dataField_wordOf : dataField (wordOf op sb a d) = d :=
  (extractLsb'_wordOf_belowSpace op sb a d (by decide)).trans
    ((BitVec.extractLsb'_append_eq_of_add_le (v := 3) (w := 24) (by decide)).trans
      (BitVec.extractLsb'_append_eq_right (w := 16) (w' := 8)))

end

/-- A word with `RSV = 000` is the word of its fields. -/
theorem wordOf_fields {w : Word} (h : reservedField w = 0#3) :
    wordOf (opField w) (spaceField w) (addrField w) (dataField w) = w := by
  unfold wordOf
  rw [← h]
  unfold opField spaceField reservedField addrField dataField
  rw [BitVec.extractLsb'_append_extractLsb'_eq_extractLsb' (by decide),
    BitVec.extractLsb'_append_extractLsb'_eq_extractLsb' (by decide),
    BitVec.extractLsb'_append_extractLsb'_eq_extractLsb' (by decide),
    BitVec.extractLsb'_append_extractLsb'_eq_extractLsb' (by decide)]
  exact BitVec.extractLsb'_eq_self

/-! ### Spaces, channel ids and kind codes (R101, R104, R105) -/

@[simp] theorem spaceOfBit_spaceBit (sp : Space) : spaceOfBit (spaceBit sp) = sp := by cases sp <;> rfl

@[simp] theorem spaceBit_spaceOfBit (b : BitVec 1) : spaceBit (spaceOfBit b) = b := by decide +revert

@[simp] theorem readChannelOfId_readChannelId (ch : ReadChannel) : readChannelOfId (readChannelId ch) = some ch := by
  cases ch <;> rfl

@[simp] theorem writeChannelOfId_writeChannelId (ch : WriteChannel) :
    writeChannelOfId (writeChannelId ch) = some ch := by
  cases ch <;> rfl

@[simp] theorem kindOfCode_kindCode (k : Kind) : kindOfCode (kindCode k) = some k := by cases k; rfl

theorem readChannelId_of_eq_some {d : Byte} {ch : ReadChannel} (h : readChannelOfId d = some ch) :
    readChannelId ch = d := by
  revert ch
  decide +revert

theorem readChannelOfId_eq_none_iff (d : Byte) : readChannelOfId d = none ↔ 0x04#8 < d := by decide +revert

theorem writeChannelId_of_eq_some {d : Byte} {ch : WriteChannel} (h : writeChannelOfId d = some ch) :
    writeChannelId ch = d := by
  revert ch
  decide +revert

theorem writeChannelOfId_eq_none_iff (d : Byte) : writeChannelOfId d = none ↔ d < 0x10#8 ∨ 0x18#8 < d := by
  decide +revert

theorem kindCode_of_eq_some {d : Byte} {k : Kind} (h : kindOfCode d = some k) : kindCode k = d := by
  revert k
  decide +revert

theorem kindOfCode_eq_none_iff (d : Byte) : kindOfCode d = none ↔ d ≠ 0x00#8 := by simp [kindOfCode]

/-! ### Words whose `S` and `A` must be 0 (R103) -/

theorem decodeDataOnly_ok {w : Word} {k : Byte → Except DecodeError Instr} {i : Instr}
    (h : decodeDataOnly w k = .ok i) : spaceField w = 0#1 ∧ addrField w = 0#16 ∧ k (dataField w) = .ok i := by
  unfold decodeDataOnly at h
  split at h
  next hz => exact ⟨hz.1, hz.2, h⟩
  next => cases h

theorem decodeBare_ok {w : Word} {i j : Instr} (h : decodeBare w i = .ok j) :
    spaceField w = 0#1 ∧ addrField w = 0#16 ∧ dataField w = 0x00#8 ∧ i = j := by
  obtain ⟨hs, ha, h⟩ := decodeDataOnly_ok h
  split at h
  next hd => exact ⟨hs, ha, hd, by injection h⟩
  next => cases h

theorem decodeDataOnly_invalid_iff (w : Word) (k : Byte → Except DecodeError Instr) :
    (∃ e, decodeDataOnly w k = .error e) ↔
      (spaceField w ≠ 0#1 ∨ addrField w ≠ 0#16) ∨ ∃ e, k (dataField w) = .error e := by
  unfold decodeDataOnly
  split
  next hz => simp [hz.1, hz.2]
  next hz => simpa using .inl (not_and_or.mp hz)

theorem decodeBare_invalid_iff (w : Word) (i : Instr) :
    (∃ e, decodeBare w i = .error e) ↔
      (spaceField w ≠ 0#1 ∨ addrField w ≠ 0#16) ∨ dataField w ≠ 0x00#8 := by
  rw [decodeBare, decodeDataOnly_invalid_iff]
  split <;> simp_all

/-! ### Decoding and encoding (R101 to R108) -/

/-- Settles O1: the decoder finds in the encoder's word the fields it was made of, and each operand table has the
decoder's as its inverse. -/
theorem decodeOfEncodeGivesBack : Obligations.DecodeOfEncodeGivesBack := by
  intro i hwf
  cases i with
  | regr sp a ch =>
    cases ch with
    | read ch => simp [encode, decode, channelId]
    | write ch => cases hwf
  | regw sp a ch =>
    cases ch with
    | read ch => cases hwf
    | write ch => simp [encode, decode, channelId]
  | raise k => simp [encode, decode, decodeDataOnly]
  | rd sp a => simp [encode, decode]
  | wr sp a v => simp [encode, decode]
  | page p => simp [encode, decode, decodeDataOnly]
  | dmax p => simp [encode, decode, decodeDataOnly]
  | consume => rfl
  | start => rfl
  | iter => rfl
  | quantum => rfl
  | ppuslot => rfl
  | cpuslot => rfl

/-- A word with `RSV = 000` is the encoder's word of an operation whose fields are its own. -/
theorem encode_eq_of_fields {w : Word} {i : Instr} {op : BitVec 4} {sb : BitVec 1} {a : Addr} {d : Byte}
    (he : encode i = wordOf op sb a d) (hr : reservedField w = 0#3) (ho : (opField w).toNat = op.toNat)
    (hs : spaceField w = sb) (ha : addrField w = a) (hd : dataField w = d) : encode i = w := by
  rw [he, ← BitVec.eq_of_toNat_eq ho, ← hs, ← ha, ← hd, wordOf_fields hr]

/-- Settles O2: in each row of R103 the fields the decoder has read or found to be 0 are those the encoder writes. -/
theorem eachValidWordHasOneMeaning : Obligations.EachValidWordHasOneMeaning := by
  intro w i h
  unfold decode at h
  split at h
  case isFalse => cases h
  rename_i hr
  split at h
  next ho =>
    split at h
    next ch hch =>
      cases h
      exact ⟨rfl, encode_eq_of_fields rfl hr ho (by simp) rfl (readChannelId_of_eq_some hch).symm⟩
    next => cases h
  next ho =>
    split at h
    next ch hch =>
      cases h
      exact ⟨rfl, encode_eq_of_fields rfl hr ho (by simp) rfl (writeChannelId_of_eq_some hch).symm⟩
    next => cases h
  next ho =>
    split at h
    next hd =>
      cases h
      exact ⟨rfl, encode_eq_of_fields rfl hr ho (by simp) rfl hd⟩
    next => cases h
  next ho =>
    cases h
    exact ⟨rfl, encode_eq_of_fields rfl hr ho (by simp) rfl rfl⟩
  case h_5 ho | h_6 ho =>
    obtain ⟨hs, ha, h⟩ := decodeDataOnly_ok h
    cases h
    exact ⟨rfl, encode_eq_of_fields rfl hr ho hs ha rfl⟩
  next ho =>
    obtain ⟨hs, ha, h⟩ := decodeDataOnly_ok h
    split at h
    next k hk =>
      cases h
      exact ⟨rfl, encode_eq_of_fields rfl hr ho hs ha (kindCode_of_eq_some hk).symm⟩
    next => cases h
  case h_14 => cases h
  all_goals
    rename_i ho
    obtain ⟨hs, ha, hd, rfl⟩ := decodeBare_ok h
    exact ⟨rfl, encode_eq_of_fields rfl hr ho hs ha hd⟩

/-- R108, of the fields of a word: row by row of R103, what the decoder tests there. -/
theorem decode_invalid_iff (w : Word) : (∃ e, decode w = .error e) ↔
    (opField w = 0x0#4 ∨ opField w = 0xE#4 ∨ opField w = 0xF#4) ∨
    reservedField w ≠ 0#3 ∨
    (opField w = 0x1#4 ∧ 0x04#8 < dataField w) ∨
    (opField w = 0x2#4 ∧ (dataField w < 0x10#8 ∨ 0x18#8 < dataField w)) ∨
    (opField w = 0x3#4 ∧ dataField w ≠ 0x00#8) ∨
    ((0x5#4 ≤ opField w ∧ opField w ≤ 0xD#4) ∧ (spaceField w ≠ 0#1 ∨ addrField w ≠ 0#16)) ∨
    ((0x7#4 ≤ opField w ∧ opField w ≤ 0xD#4) ∧ dataField w ≠ 0x00#8) := by
  by_cases hr : reservedField w = 0#3
  case neg => simp [decode, hr]
  simp only [decode, if_pos hr, ← readChannelOfId_eq_none_iff, ← writeChannelOfId_eq_none_iff, BitVec.le_def,
    ← BitVec.toNat_inj (x := opField w), BitVec.toNat_ofNat, Nat.reduceMod, Nat.reducePow]
  split
  next ho => cases readChannelOfId (dataField w) <;> simp [ho, hr]
  next ho => cases writeChannelOfId (dataField w) <;> simp [ho, hr]
  next ho => split <;> simp_all
  next ho => simp [ho, hr]
  case h_5 ho | h_6 ho => simp [ho, hr, decodeDataOnly_invalid_iff]
  next ho =>
    rw [decodeDataOnly_invalid_iff, ← kindOfCode_eq_none_iff (dataField w)]
    cases kindOfCode (dataField w) <;> simp [ho, hr]
  case h_14 =>
    have hlt := (opField w).isLt
    exact iff_of_true ⟨_, rfl⟩ (.inl (by grind))
  all_goals
    rename_i ho
    simp [ho, hr, decodeBare_invalid_iff]

theorem step_invalid {s : State} {w : Word} {rest : List Word} {e : DecodeError} (hc : s.commands = w :: rest)
    (hd : decode w = .error e) : step s = .refused (.invalidWord e) := by
  simp [step, hc, hd]

theorem step_valid {s : State} {w : Word} {rest : List Word} {i : Instr} (hc : s.commands = w :: rest)
    (hd : decode w = .ok i) : step s = exec i { s with commands := rest } := by
  simp [step, hc, hd]

/-- Settles O3: R108's list is what the decoder tests, and a step on such a word answers its error. -/
theorem invalidWordsAreRefused : Obligations.InvalidWordsAreRefused :=
  fun w => ⟨decode_invalid_iff w, fun _ _ _ => step_invalid⟩

/-- Settles O7: a word that decodes is taken and run. -/
theorem stepRunsTheDecodedInstruction : Obligations.StepRunsTheDecodedInstruction :=
  ⟨fun _ _ _ _ => step_valid, fun s hs => by simp [step, hs]⟩

/-- Settles O5: the decoder read on each word, the encoder on each operation. -/
theorem workedEncodings : Obligations.WorkedEncodings := by
  unfold Obligations.WorkedEncodings
  decide

theorem wordOf_or (op op' : BitVec 4) (sb sb' : BitVec 1) (a a' : Addr) (d d' : Byte) :
    wordOf op sb a d ||| wordOf op' sb' a' d' = wordOf (op ||| op') (sb ||| sb') (a ||| a') (d ||| d') := by
  unfold wordOf
  rw [BitVec.or_append (w := 4) (v := 28), BitVec.or_append (w := 1) (v := 27), BitVec.or_append (w := 3) (v := 24),
    BitVec.or_append (w := 16) (v := 8)]
  rfl

theorem setWidth_eq_wordOf (d : Byte) : d.setWidth 32 = wordOf 0#4 0#1 0#16 d := by
  decide +revert

/-- Settles O6: WIRE is a list of fixed words, and the page of DMA fills the low byte of one. -/
theorem pseudoOperationWords : Obligations.PseudoOperationWords := by
  refine ⟨by decide, fun p => ?_⟩
  have h : 0x40401400#32 = wordOf 0x4#4 0#1 0x4014#16 0#8 := by rfl
  rw [h, setWidth_eq_wordOf, wordOf_or]
  simp [dmaPseudo, encode, spaceBit, defaultAddrs]

/-! ### How many words each operation has (R109) -/

/-- A type has as many elements as a list that names each once. -/
theorem natCard_eq_length {α : Type} {l : List α} (hn : l.Nodup) (hm : ∀ x, x ∈ l) : Nat.card α = l.length := by
  have huniv : ((⟨l, hn⟩ : Finset α) : Set α) = Set.univ := Set.eq_univ_of_forall hm
  rw [← Set.ncard_univ, ← huniv, Set.ncard_coe_finset]
  rfl

theorem natCard_space : Nat.card Space = 2 :=
  natCard_eq_length (l := [.cpu, .ppu]) (by decide) fun sp => by cases sp <;> decide

theorem natCard_kind : Nat.card Kind = 1 :=
  natCard_eq_length (l := [.nmi]) (by decide) fun k => by cases k; decide

theorem natCard_readChannel : Nat.card ReadChannel = 5 := natCard_eq_length (by decide) mem_readChannels

theorem natCard_writeChannel : Nat.card WriteChannel = 9 := natCard_eq_length (by decide) mem_writeChannels

theorem natCard_bitVec (n : Nat) : Nat.card (BitVec n) = 2 ^ n := by
  rw [Nat.card_congr FinEnum.equiv, Nat.card_fin, FinEnum.card_bitVec]

/-- A space, an address and one more operand. -/
theorem natCard_operands (α : Type) : Nat.card (Space × Addr × α) = 2 ^ 17 * Nat.card α := by
  rw [Nat.card_prod, Nat.card_prod, natCard_space, natCard_bitVec]
  omega

theorem decode_eq_ok_iff (w : Word) (i : Instr) : decode w = .ok i ↔ i.wf = true ∧ encode i = w :=
  ⟨eachValidWordHasOneMeaning w i, fun ⟨hi, he⟩ => he ▸ decodeOfEncodeGivesBack i hi⟩

/-- Well-formed operations have as many words as there are of them: each has one, and no two share one. -/
theorem ncard_decode {α : Type} {f : α → Instr} (hf : f.Injective) (hwf : ∀ x, (f x).wf = true) :
    Set.ncard { w : Word | ∃ x, decode w = .ok (f x) } = Nat.card α := by
  have hset : { w : Word | ∃ x, decode w = .ok (f x) } = Set.range (encode ∘ f) := by
    ext w
    simp [decode_eq_ok_iff, hwf]
  have hinj : (encode ∘ f).Injective := fun x y hxy => hf (Except.ok.inj (by
    rw [← decodeOfEncodeGivesBack _ (hwf x), ← decodeOfEncodeGivesBack _ (hwf y)]
    exact congrArg decode hxy))
  rw [hset, Set.ncard_range_of_injective hinj]

/-- The words of a REGR name a read channel. -/
theorem decode_regr_iff (w : Word) : (∃ sp a ch, decode w = .ok (.regr sp a ch)) ↔
    ∃ x : Space × Addr × ReadChannel, decode w = .ok (.regr x.1 x.2.1 (.read x.2.2)) := by
  refine ⟨fun ⟨sp, a, ch, h⟩ => ?_, fun ⟨_, h⟩ => ⟨_, _, _, h⟩⟩
  cases ch with
  | read ch => exact ⟨(sp, a, ch), h⟩
  | write ch => exact absurd ((decode_eq_ok_iff w _).mp h).1 nofun

/-- The words of a REGW name a write channel. -/
theorem decode_regw_iff (w : Word) : (∃ sp a ch, decode w = .ok (.regw sp a ch)) ↔
    ∃ x : Space × Addr × WriteChannel, decode w = .ok (.regw x.1 x.2.1 (.write x.2.2)) := by
  refine ⟨fun ⟨sp, a, ch, h⟩ => ?_, fun ⟨_, h⟩ => ⟨_, _, _, h⟩⟩
  cases ch with
  | read ch => exact absurd ((decode_eq_ok_iff w _).mp h).1 nofun
  | write ch => exact ⟨(sp, a, ch), h⟩

/-- Settles O4: an operation has as many words as it has well-formed operand values, and a word is invalid or decodes to
one of the thirteen. -/
theorem validWordCounts : Obligations.ValidWordCounts := by
  refine ⟨?_, ?_, ?_, ?_, ?_, ?_, ?_, fun i hi => ?_, fun w => ?_⟩
  · simp only [decode_regr_iff]
    rw [ncard_decode (by rintro ⟨_, _, _⟩ ⟨_, _, _⟩ h; cases h; rfl) fun _ => rfl, natCard_operands,
      natCard_readChannel]
    rfl
  · simp only [decode_regw_iff]
    rw [ncard_decode (by rintro ⟨_, _, _⟩ ⟨_, _, _⟩ h; cases h; rfl) fun _ => rfl, natCard_operands,
      natCard_writeChannel]
    rfl
  · have h := ncard_decode (f := fun x : Space × Addr => .rd x.1 x.2)
      (by rintro ⟨_, _⟩ ⟨_, _⟩ h; cases h; rfl) fun _ => rfl
    rw [Nat.card_prod, natCard_space, natCard_bitVec] at h
    simpa only [Prod.exists, Nat.reducePow] using h
  · have h := ncard_decode (f := fun x : Space × Addr × Byte => .wr x.1 x.2.1 x.2.2)
      (by rintro ⟨_, _, _⟩ ⟨_, _, _⟩ h; cases h; rfl) fun _ => rfl
    rw [natCard_operands, natCard_bitVec] at h
    simpa only [Prod.exists, Nat.reducePow] using h
  · exact (ncard_decode (fun x y h => by cases h; rfl) fun _ => rfl).trans (natCard_bitVec 8)
  · exact (ncard_decode (fun x y h => by cases h; rfl) fun _ => rfl).trans (natCard_bitVec 8)
  · exact (ncard_decode (fun x y h => by cases h; rfl) fun _ => rfl).trans natCard_kind
  · have h := ncard_decode (f := fun _ : Unit => i) (fun _ _ _ => rfl) fun _ => by revert i; decide
    simpa using h
  · cases hw : decode w with
    | error e => exact .inl ⟨e, rfl⟩
    | ok i => cases i <;> simp

/-! ### START in Idle (R211, R212) -/

/-- START, wired, whose cartridge does not load (R211). -/
theorem exec_start_cartFails {s : State} (hs : s.inSetup) (hw : s.wiredOk = true) (hd : s.nextDraw.ok = false) :
    exec .start s = .next ((((s.afterHostInput.afterDraw.recordPath s.hostInput.path).log (.cartLoad false)).abortStart
      .cartLoad).ended (some (.sched .stopped))) := by
  simp [exec, execStart, hs.1, hs.2, leaveIdle, hw, cartLoad, andThen, hd, finish]

/-- START, wired, whose cartridge loads, enters Running (R211). -/
theorem exec_start_loads {s : State} (hs : s.inSetup) (hw : s.wiredOk = true) (hd : s.nextDraw.ok = true) :
    exec .start s = finish (withResult (enterRunning s.cartIn) fun _ => .sched .running) := by
  simp [exec, execStart, hs.1, hs.2, leaveIdle, hw, cartLoad, andThen, hd, State.cartIn]

/-- No operation has a step in Stopped (R255). -/
theorem exec_stopped {s : State} (hs : s.sched = .stopped) (i : Instr) : ∃ r, exec i s = .refused r := by
  cases h : exec i s with
  | refused r => exact ⟨r, rfl⟩
  | fault f => cases f
  | next t =>
    rcases exec_cases h with ⟨_, _, _, -, hi, -⟩ | ⟨_, _, _, -, hi, -⟩ | ⟨-, hi, -⟩ | ⟨-, hi, -⟩ | ⟨-, hi, -⟩ |
      ⟨-, -, -, hi, -⟩
    all_goals exact absurd (hs.symm.trans hi.1) nofun

/-- Settles O48: the failed load ends START in Stopped, where no operation has a step. -/
theorem startWithoutCartridgeStops : Obligations.StartWithoutCartridgeStops := by
  intro s hs hw hd
  refine ⟨_, exec_start_cartFails hs hw hd, ?_, exec_stopped rfl⟩
  simp [State.ended, State.abortStart, State.log, State.recordPath]

/-- START has a step only in Idle with no fault. -/
theorem exec_start_next {s t : State} (h : exec .start s = .next t) :
    s.inSetup ∧ finish (leaveIdle s.hostInput.path s.afterHostInput) = .next t := by
  rcases exec_cases h with ⟨_, _, _, hi, -⟩ | ⟨_, _, _, hi, -⟩ | ⟨⟨_, _, _, hi | hi⟩, -⟩ | ⟨-, h⟩ |
    ⟨hi, -⟩ | ⟨-, -, hi, -⟩
  case inr.inr.inr.inl => exact h
  case inr.inr.inr.inr.inr => exact absurd rfl hi
  all_goals cases hi

/-- The resets of START find the draws that follow the load's. -/
theorem cartIn_running_draws (s : State) :
    s.cartIn.running.script <:+ s.script ∧ s.drawn ≤ s.cartIn.running.drawn := by
  simpa [State.cartIn] using afterDraw_draws s.afterHostInput

/-- START changes no byte of memory where no draw it takes names a WR (R212, R292). -/
theorem exec_start_mem {s t : State} (h : exec .start s = .next t) (hd : ∀ d, Takes s t d → d.writesNothing) :
    t.mem = s.mem := by
  have hmem : s.cartIn.running.mem = s.mem := by simp [State.cartIn]
  have resets := enterRunning_readsOnly s.cartIn
  rcases leaveIdle_next (exec_start_next h).2 with ⟨-, rfl⟩ | ⟨-, -, rfl⟩ | ⟨-, -, u, hu, -, rfl⟩ |
    ⟨-, -, u, hu, -, rfl⟩
  · simp
  · simp
  all_goals
    rw [hu] at resets
    exact (resets fun d h => hd d (h.after (cartIn_running_draws s))).trans hmem

theorem State.Pristine.raw {s : State} (h : s.Pristine) (sp : Space) (a : Addr) : s.raw sp a = Config.initMem sp a := by
  cases sp <;> simp [State.raw, h.mem, PerSpace.get, cellFind]

/-! ### What the resets issue (R131, R212, R291) -/

/-- The state in which the operations of the CPU's reset begin. -/
theorem cartIn_cpuReset {s : State} {d0 d1 : Draw} {rest : List Draw} (h : s.script = d0 :: d1 :: rest) :
    s.cartIn.running.nextDraw = d1 ∧ s.cartIn.running.afterDraw.log .cpuReset = { s.afterHostInput with
      script := rest
      sched := .running
      cartLoaded := true
      line := none
      dmaStall := 0
      budget := 0
      busy := { cpu := false, ppu := false }
      events := s.events ++ [.cartLoad true, .cpuReset]
      loadPath := some s.hostInput.path } := by
  have h0 := (State.afterDraw_scripted (s := s.afterHostInput) (by simpa using h)).2
  have h1 := State.afterDraw_scripted (s := s.cartIn.running) (d := d1) (rest := rest) (by simp [State.cartIn, h0])
  refine ⟨h1.1, ?_⟩
  rw [h1.2]
  simp [State.cartIn, h0, State.log, State.running, State.loaded, State.recordPath]

/-- A CPU read of the cartridge issued inside a call. -/
theorem issue_cartRead (nest : Nested) {s : State} {a : Addr} (hb : s.busy.cpu = false)
    (hc : s.readChannelAt .cpu a = none) (hin : s.inWindow .cpu a = true) :
    issue nest .cpu (.access .cpu (.rd a)) s = .done () (s.afterDraw.log (.cartRead .cpu a s.nextDraw.byte)) := by
  simp [issue, mayIssue, Agent.reaches, perform, dispatchRead, State.readClass, classOf, PerSpace.get, hb, hc, hin,
    cartRead, andThen]

/-- CPU reads of the cartridge issued inside a call: each takes one draw and logs its answer. -/
theorem runActs_cartReads (nest : Nested) {s : State} {as : List Addr} {ds rest : List Draw} (hb : s.busy.cpu = false)
    (hs : s.script = ds ++ rest) (hlen : ds.length = as.length)
    (hin : ∀ a ∈ as, s.readChannelAt .cpu a = none ∧ s.inWindow .cpu a = true) :
    runActs nest .cpu (as.map fun a => .access .cpu (.rd a)) s = .done () { s with
      script := rest
      events := s.events ++ List.zipWith (fun a d => .cartRead .cpu a d.byte) as ds } := by
  induction as generalizing s ds with
  | nil =>
    obtain rfl := List.length_eq_zero_iff.mp hlen
    obtain rfl : s.script = rest := hs
    simp [runActs]
  | cons a as ih =>
    cases ds with
    | nil => cases hlen
    | cons d ds =>
      obtain ⟨hd, ht⟩ := State.afterDraw_scripted hs
      obtain ⟨hc, hw⟩ := hin a List.mem_cons_self
      rw [List.map_cons, runActs, issue_cartRead nest hb hc hw, hd, ht]
      refine (ih (s := State.log { s with script := ds ++ rest } _) hb rfl (by simpa using hlen)
        fun b hb => hin b (List.mem_cons_of_mem a hb)).trans ?_
      simp [State.log]

/-- A call that issues nothing only takes its draw and is logged. -/
theorem callPlain_quiet {ag : Agent} {e : Event} {s : State} {d : Draw} {rest : List Draw} (hs : s.script = d :: rest)
    (hd : d.acts = []) : callPlain nested ag e s = .done () (State.log { s with script := rest } e) := by
  obtain ⟨h1, h2⟩ := State.afterDraw_scripted hs
  rw [callPlain, h1, h2, hd]
  rfl

/-- Entering Running with a CPU reset that reads the cartridge and a PPU reset that issues nothing (R212, R291). -/
theorem enterRunning_cartReads {s : State} {d0 d1 d2 : Draw} {as : List Addr} {ds rest : List Draw}
    (hscript : s.script = d0 :: d1 :: (ds ++ d2 :: rest)) (hacts : d1.acts = as.map fun a => .access .cpu (.rd a))
    (hlen : ds.length = as.length) (hquiet : d2.acts = [])
    (hin : ∀ a ∈ as, s.readChannelAt .cpu a = none ∧ s.inWindow .cpu a = true) :
    enterRunning s.cartIn = .done () { s.afterHostInput with
      script := rest
      sched := .running
      cartLoaded := true
      line := none
      dmaStall := 0
      budget := 0
      busy := { cpu := false, ppu := false }
      events := s.events ++ [.cartLoad true, .cpuReset] ++
        List.zipWith (fun a d => .cartRead .cpu a d.byte) as ds ++ [.ppuReset]
      loadPath := some s.hostInput.path } := by
  obtain ⟨hd, hs⟩ := cartIn_cpuReset hscript
  have hcpu := runActs_cartReads (nestedTo 2) (s := s.cartIn.running.afterDraw.log .cpuReset) (rest := d2 :: rest)
    (by simp) (by rw [hs]) hlen (by rw [hs]; simpa [State.readChannelAt, State.inWindow] using hin)
  rw [enterRunning, callPlain, hd, hacts]
  change andThen (runActs _ _ _ _) _ = _
  rw [hcpu, hs]
  exact callPlain_quiet rfl hquiet

theorem cartIn_running_live {s : State} (hs : s.inSetup) : s.cartIn.running.live :=
  ⟨rfl, by simp [State.cartIn, hs.2]⟩

/-- The PPU's reset, from the host's own run of what it issues; the two fields that no operation reads may differ. -/
theorem ppuReset_issued {t u : State} {d : Draw} {rest : List Draw} {ys more : List Act} (p : Phase) (r : Option Result)
    (hl : t.live) (hscript : t.script = d :: rest) (hacts : d.acts = ys ++ more) (hys : ∀ act ∈ ys, issuedBy .ppu act)
    (hrun : runInstrs (ys.map actInstr) { t with script := rest, events := t.events ++ [.ppuReset] } = .next u) :
    (more = [] → u.fault = none → callPlain nested .ppu .ppuReset (t.marked p r) = .done () (u.marked p r)) ∧
      (u.fault ≠ none → callPlain nested .ppu .ppuReset (t.marked p r) = .halted (u.marked p r)) := by
  obtain ⟨hd, ht⟩ := State.afterDraw_scripted (s := t.marked p r) hscript
  exact callPlain_issued (s := t.marked p r) (p := t.phase) (r := t.result) hl (by rw [hd, hacts]) hys
    (by rw [ht]; exact hrun)

/-- Settles O49, clause by clause: a CPU reset that reads the cartridge, by induction on its reads; what the resets issue,
as the host's own run of it; and memory, which only a WR changes. -/
theorem startEntersRunning : Obligations.StartEntersRunning := by
  refine ⟨fun s d0 d1 d2 as ds rest hs hw hscript hok hacts hlen hquiet hin => ?_,
    fun s t d0 d1 rest xs more hs hw hscript hok hacts hxs hrun => ?_, fun s t h hd => ?_⟩
  · rw [exec_start_loads hs hw ((State.afterDraw_scripted hscript).1 ▸ hok),
      enterRunning_cartReads hscript hacts hlen hquiet hin]
    rfl
  · rw [exec_start_loads hs hw ((State.afterDraw_scripted hscript).1 ▸ hok), enterRunning]
    obtain ⟨hd, hreset⟩ := cartIn_cpuReset hscript
    obtain ⟨hcpu, hcpuHalts⟩ := callPlain_issued (s := s.cartIn.running) (e := .cpuReset) (p := s.afterHostInput.phase)
      (r := s.afterHostInput.result) (cartIn_running_live hs) (by rw [hd, hacts]) hxs (by rw [hreset]; exact hrun)
    refine ⟨fun hf => by rw [hcpuHalts hf]; rfl, fun u d2 rest' ys more' hm hf hscript' hacts' hys hrun' => ?_⟩
    have hcpu := hcpu hm hf
    have hkept := callPlain_obeys nested_obeys .cpu (e := .cpuReset) (by simp [Event.uncounted]) s.cartIn.running
    rw [hcpu] at hkept ⊢
    have hlive : t.live := ⟨hkept.sched, hf⟩
    obtain ⟨hppu, hppuHalts⟩ := ppuReset_issued s.cartIn.running.phase s.cartIn.running.result hlive hscript' hacts'
      hys hrun'
    simp only [andThen]
    exact ⟨fun hm' hf' => by rw [hppu hm' hf']; rfl, fun hf' => by rw [hppuHalts hf']; rfl⟩
  · have hmem := exec_start_mem h hd
    refine ⟨hmem, fun hi sp a => ?_⟩
    rw [raw_congr (congrArg (PerSpace.get · sp) hmem)]
    exact (hi.pristine (exec_start_next h).1.1).raw sp a

end Sys2Proof.Machine

namespace Sys2Proof.Machine

/-! ### When an operation has a step (R130, R131, R255) -/

/-- Behind the guard of dispatch and the Scheduler's operations, an operation is refused outside Running or after a
fault, and answers everywhere else. -/
theorem answers_of_whileRunning {o : Host.Outcome State Fault Refusal} {s : State} {k : State → Flow Result}
    (h : o = whileRunning s k) :
    if s.fault ≠ none ∨ s.sched ≠ .running then ∃ r, o = .refused r else ∃ t, o = .next t := by
  subst h
  by_cases hf : s.fault = none
  · by_cases hr : s.sched = .running
    · simpa [whileRunning, hf, hr] using finish_answers (k s)
    · simp [whileRunning, hf, hr]
  · simp [whileRunning, hf]

/-- Behind the guard of registration, an operation is refused in Stopped or after a fault, and answers everywhere else:
while Running its fault is its answer. -/
theorem answers_of_whileSetup {o : Host.Outcome State Fault Refusal} {w : Word} {s : State} {k : State → Flow Result}
    (h : o = whileSetup w s k) :
    if s.fault ≠ none ∨ s.sched = .stopped then ∃ r, o = .refused r else ∃ t, o = .next t := by
  subst h
  by_cases hf : s.fault = none
  · cases hs : s.sched with
    | idle => simpa [whileSetup, hf, hs] using finish_answers (k s)
    | running => simpa [whileSetup, hf, hs] using finish_answers (raiseFault (.lateRegistration w) s)
    | stopped => simp [whileSetup, hf, hs]
  · simp [whileSetup, hf]

/-- START is refused outside Idle or after a fault, and nowhere else. -/
theorem exec_start_answers (s : State) :
    if s.fault ≠ none ∨ s.sched ≠ .idle then ∃ r, exec .start s = .refused r else ∃ t, exec .start s = .next t := by
  by_cases hf : s.fault = none
  · by_cases hi : s.sched = .idle
    · simpa [exec, execStart, hf, hi] using finish_answers (leaveIdle s.hostInput.path s.afterHostInput)
    · simp [exec, execStart, hf, hi]
  · simp [exec, execStart, hf]

/-- A channel of the wrong direction is an invalid operand in every state (R104). -/
theorem exec_of_not_wf {i : Instr} (h : i.wf = false) (s : State) : exec i s = .refused (.invalidWord .channelId) := by
  cases i with
  | regr sp a ch => cases ch with
    | read ch => cases h
    | write ch => rfl
  | regw sp a ch => cases ch with
    | read ch => rfl
    | write ch => cases h
  | _ => cases h

/-- Settles O11: every operation runs behind one of three guards, and behind its guard it answers. -/
theorem refusedExactlyWhenExcluded : Obligations.RefusedExactlyWhenExcluded := by
  refine fun i s => ⟨fun h => exec_of_not_wf h s, fun h => ?_⟩
  cases i with
  | regr sp a ch => cases ch with
    | read ch => exact answers_of_whileSetup (by rw [exec, execRegr])
    | write ch => cases h
  | regw sp a ch => cases ch with
    | read ch => cases h
    | write ch => exact answers_of_whileSetup (by rw [exec, execRegw])
  | start => exact exec_start_answers s
  | rd sp a => exact answers_of_whileRunning (by rw [exec, execRd])
  | wr sp a v => exact answers_of_whileRunning (by rw [exec, execWr])
  | page p => exact answers_of_whileRunning (by rw [exec, execPage])
  | dmax p => exact answers_of_whileRunning (by rw [exec, execDmax])
  | raise k => exact answers_of_whileRunning (by rw [exec, execRaise])
  | consume => exact answers_of_whileRunning (by rw [exec, execConsume])
  | iter => exact answers_of_whileRunning (by rw [exec, execIter])
  | quantum => exact answers_of_whileRunning (by rw [exec, execQuantum])
  | ppuslot => exact answers_of_whileRunning (by rw [exec, execPpuslot])
  | cpuslot => exact answers_of_whileRunning (by rw [exec, execCpuslot])

/-! ### Registration at a bound address and while Running (R130, R132, R134) -/

/-- REGR at a bound address fails. -/
theorem exec_regr_bound {s : State} (hs : s.inSetup) {sp : Space} {a : Addr} {old : ReadChannel}
    (ha : s.readChannelAt sp a = some old) (ch : ReadChannel) :
    exec (.regr sp a (.read ch)) s = .next (s.ended (some (.registered false))) := by
  simp [exec, execRegr, whileSetup_inSetup hs, ha, finish]

/-- REGW at a bound address fails. -/
theorem exec_regw_bound {s : State} (hs : s.inSetup) {sp : Space} {a : Addr} {old : WriteChannel}
    (ha : s.writeChannelAt sp a = some old) (ch : WriteChannel) :
    exec (.regw sp a (.write ch)) s = .next (s.ended (some (.registered false))) := by
  simp [exec, execRegw, whileSetup_inSetup hs, ha, finish]

@[simp] theorem readChannelAt_bindRead_same (s : State) (sp : Space) (a : Addr) (ch : ReadChannel) :
    (s.bindRead sp a ch).readChannelAt sp a = some ch := by simp [readChannelAt_bindRead]

@[simp] theorem writeChannelAt_bindWrite_same (s : State) (sp : Space) (a : Addr) (ch : WriteChannel) :
    (s.bindWrite sp a ch).writeChannelAt sp a = some ch := by simp [writeChannelAt_bindWrite]

/-- Settles O16: the state after the binding is `s` with that one lookup added to its read map. -/
theorem regrBindsFreeAddress : Obligations.RegrBindsFreeAddress := fun s sp a ch hs ha =>
  ⟨_, exec_regr_free hs ha ch, rfl, rfl, readChannelAt_bindRead s sp a ch, rfl⟩

/-- Settles O17: the state after the binding is `s` with that one lookup added to its write map. -/
theorem regwBindsFreeAddress : Obligations.RegwBindsFreeAddress := fun s sp a ch hs ha =>
  ⟨_, exec_regw_free hs ha ch, rfl, rfl, writeChannelAt_bindWrite s sp a ch, rfl⟩

/-- Settles O18: the bound address answers failure before its channel is looked at. -/
theorem duplicateRegistrationFails : Obligations.DuplicateRegistrationFails :=
  ⟨fun _ _ _ ch _ hs ha => exec_regr_bound hs ha ch, fun _ _ _ ch _ hs ha => exec_regw_bound hs ha ch⟩

/-- REGR while Running takes the fault of a late registration. -/
theorem exec_regr_live {s : State} (hl : s.live) (sp : Space) (a : Addr) (ch : ReadChannel) :
    exec (.regr sp a (.read ch)) s =
      .next ((s.enterFault (.lateRegistration (encode (.regr sp a (.read ch))))).ended none) := by
  simp [exec, execRegr, whileSetup_live hl, raiseFault, finish]

/-- REGW while Running takes the fault of a late registration. -/
theorem exec_regw_live {s : State} (hl : s.live) (sp : Space) (a : Addr) (ch : WriteChannel) :
    exec (.regw sp a (.write ch)) s =
      .next ((s.enterFault (.lateRegistration (encode (.regw sp a (.write ch))))).ended none) := by
  simp [exec, execRegw, whileSetup_live hl, raiseFault, finish]

/-- Settles O19: while Running the guard of a registration raises the fault before any map is read. -/
theorem lateRegistrationFaults : Obligations.LateRegistrationFaults := fun _ sp a hl =>
  ⟨exec_regr_live hl sp a, exec_regw_live hl sp a⟩

/-- Settles O20: a registration fills its own direction's lookup at the address and leaves the other's, and Idle. -/
theorem readAndWriteRegistrationsIndependent : Obligations.ReadAndWriteRegistrationsIndependent := by
  intro s sp a c c' d d' hs hr hw
  have regr := exec_regr_free hs hr c
  have regw := exec_regw_free hs hw d
  have regrTwice := exec_regr_bound (s := (s.bindRead sp a c).ended (some (.registered true))) hs
    (readChannelAt_bindRead_same s sp a c) c'
  have regwTwice := exec_regw_bound (s := (s.bindWrite sp a d).ended (some (.registered true))) hs
    (writeChannelAt_bindWrite_same s sp a d) d'
  have regwAfter (r) := exec_regw_free (s := (s.bindRead sp a c).ended r) hs hw d
  have regrAfter := exec_regr_free (s := (s.bindWrite sp a d).ended (some (.registered true))) hs hr c
  have regwLast (r) := exec_regw_bound (s := (((s.bindRead sp a c).ended r).bindWrite sp a d).ended
    (some (.registered true))) hs (writeChannelAt_bindWrite_same _ sp a d) d'
  refine ⟨⟨_, _, _, _, regr, rfl, regrTwice, rfl, regwAfter _, rfl, regwLast _, rfl, ?_, ?_⟩,
    ⟨_, _, regw, rfl, regwTwice, rfl, ?_, ?_⟩, ⟨_, _, regr, rfl, regwAfter _, rfl, ?_, ?_⟩,
    ⟨_, _, regw, rfl, regrAfter, rfl, ?_, ?_⟩⟩
  all_goals simp [hr]

end Sys2Proof.Machine

namespace Sys2Proof.Machine

/-! ### RD and WR of a running machine, by the class of the address (R136, R138, R139) -/

theorem exec_rd_live {s : State} (hl : s.live) (sp : Space) (a : Addr) :
    exec (.rd sp a) s = finish (withResult (dispatchRead nested sp a s) .byte) :=
  whileRunning_live hl fun s => withResult (dispatchRead nested sp a s) .byte

theorem exec_wr_live {s : State} (hl : s.live) (sp : Space) (a : Addr) (v : Byte) :
    exec (.wr sp a v) s = finish (withResult (dispatchWrite nested sp a v s) fun _ => .nothing) :=
  whileRunning_live hl fun s => withResult (dispatchWrite nested sp a v s) fun _ => .nothing

theorem dispatchRead_busy {nest : Nested} {s : State} {sp : Space} (hb : s.busy.get sp = true) (a : Addr) :
    dispatchRead nest sp a s = raiseFault (.reentrantDispatch (encode (.rd sp a))) s := by
  simp [dispatchRead, hb]

theorem dispatchWrite_busy {nest : Nested} {s : State} {sp : Space} (hb : s.busy.get sp = true) (a : Addr)
    (v : Byte) : dispatchWrite nest sp a v s = raiseFault (.reentrantDispatch (encode (.wr sp a v))) s := by
  simp [dispatchWrite, hb]

section
variable {nest : Nested} {s : State} {sp : Space} {a : Addr} (hb : s.busy.get sp = false)
include hb

theorem dispatchRead_intercepted {ch : ReadChannel} (hc : s.readChannelAt sp a = some ch) :
    dispatchRead nest sp a s = invokeRead nest sp ch s := by
  simp [dispatchRead, State.readClass, classOf, hb, hc]

theorem dispatchRead_cartridge (hc : s.readChannelAt sp a = none) (hw : s.inWindow sp a = true) :
    dispatchRead nest sp a s = cartRead sp a s := by
  simp [dispatchRead, State.readClass, classOf, hb, hc, hw]

theorem dispatchRead_backing (hc : s.readChannelAt sp a = none) (hw : s.inWindow sp a = false) :
    dispatchRead nest sp a s = .done (s.raw sp a) s := by
  simp [dispatchRead, State.readClass, classOf, hb, hc, hw]

theorem dispatchWrite_cartridge (hc : s.writeChannelAt sp a = none) (hw : s.inWindow sp a = true) (v : Byte) :
    dispatchWrite nest sp a v s = cartWrite sp a v s := by
  simp [dispatchWrite, State.writeClass, classOf, hb, hc, hw]

theorem dispatchWrite_backing (hc : s.writeChannelAt sp a = none) (hw : s.inWindow sp a = false) (v : Byte) :
    dispatchWrite nest sp a v s = .done () (s.rawWrite sp a v) := by
  simp [dispatchWrite, State.writeClass, classOf, hb, hc, hw]

/-- A busy flag set around an action on a free space and then cleared is back as it was (R141). -/
theorem setBusy_cleared (t : State) (ht : t.busy = s.busy.set sp true) :
    t.setBusy sp false = { t with busy := s.busy } := by
  simp [State.setBusy, ht, ← hb]

end

/-- Settles O22: the backing class answers its byte and leaves the state. -/
theorem rdOfBackingClass : Obligations.RdOfBackingClass := fun s sp a hl hb hc hw => by
  rw [exec_rd_live hl, dispatchRead_backing hb hc hw]
  rfl

/-- Settles O23: the cartridge class takes one draw, answers its byte and logs it. -/
theorem rdOfCartridgeClass : Obligations.RdOfCartridgeClass := fun s sp a hl hb hc hw => by
  rw [exec_rd_live hl, dispatchRead_cartridge hb hc hw]
  simp [cartRead, withResult, andThen, finish, State.ended, State.log]

/-- Settles O25: JOY2_R's action is its parameter, with no call between setting and clearing the busy flag. -/
theorem rdOfControllerPortTwo : Obligations.RdOfControllerPortTwo := fun s sp a hl hb hc => by
  rw [exec_rd_live hl, dispatchRead_intercepted hb hc, invokeRead, readAction]
  simp only [andThen, setBusy_cleared hb (s.setBusy sp true) rfl]
  rfl

/-- Settles O27: the byte is stored at its address, and a canonical memory reads it back there and nowhere else. -/
theorem wrOfBackingClass : Obligations.WrOfBackingClass := fun s sp a v hl hcanon hb hc hw => by
  rw [exec_wr_live hl, dispatchWrite_backing hb hc hw]
  obtain ⟨hmem, -, -⟩ := hcanon
  obtain ⟨hrise, -⟩ := hmem sp
  exact ⟨_, rfl, rfl, rfl, raw_rawWrite hrise a v, rfl⟩

/-- Settles O28: the cartridge class logs the byte handed over and stores nothing. -/
theorem wrOfCartridgeClass : Obligations.WrOfCartridgeClass := fun s sp a v hl hb hc hw => by
  rw [exec_wr_live hl, dispatchWrite_cartridge hb hc hw]
  rfl

/-- Settles O31: the busy check stands before the class of the address. -/
theorem busySpaceFaults : Obligations.BusySpaceFaults := fun s sp a hl hb => by
  refine ⟨?_, fun v => ?_⟩
  · rw [exec_rd_live hl, dispatchRead_busy hb]
    rfl
  · rw [exec_wr_live hl, dispatchWrite_busy hb]
    rfl

/-! ### A channel's collaborator call (R141 to R155) -/

/-- The state an operation ends in when the collaborator call inside it ends in this way: what `close` makes of the
state a call that is done leaves, or no result after a fault (R253). -/
def Flow.endsCall (close : State → State) : Flow Unit → State
  | .done _ t => close t
  | .halted t => t.ended none

/-- A byte call is a plain call, whose entry is answered once it has returned (R50). -/
theorem callByte_eq_callPlain (nest : Nested) (ag : Agent) (e : Option Byte → Event) (s : State) :
    callByte nest ag e s = andThen (callPlain nest ag (e none) s) fun _ t =>
      .done s.nextDraw.byte (t.setEvent s.events.length (e (some s.nextDraw.byte))) := rfl

theorem readCallEvent_uncounted {ch : ReadChannel} {v : Option Byte} {e : Event} (h : readCallEvent ch v = some e) :
    e.uncounted := by
  cases ch <;> cases h <;> simp [Event.uncounted]

theorem writeCallEvent_uncounted {ch : WriteChannel} {v : Byte} {e : Event} (h : writeCallEvent ch v = some e) :
    e.uncounted := by
  cases ch <;> cases h <;> simp [Event.uncounted]

/-- Every read channel but JOY2_R has a log entry for its call, answered or not (R50). -/
theorem readCallEvent_of_ne_joy2 {ch : ReadChannel} (h : ch ≠ .joy2) (v : Option Byte) :
    ∃ e, readCallEvent ch v = some e := by
  cases ch with
  | joy2 => exact absurd rfl h
  | _ => exact ⟨_, rfl⟩

/-- A read channel whose call has a log entry calls its collaborator (R142 to R145). -/
theorem readAction_of_call {ch : ReadChannel} {v : Option Byte} {e : Event} (h : readCallEvent ch v = some e) :
    ∃ ev : Option Byte → Event, (∀ w, readCallEvent ch w = some (ev w)) ∧
      ∀ nest, readAction nest ch = callByte nest (readChannelAgent ch) ev := by
  cases ch with
  | joy2 => cases h
  | _ => exact ⟨_, fun _ => rfl, fun _ => rfl⟩

/-- A write channel whose call has a log entry calls its collaborator (R147 to R153, R155). -/
theorem writeAction_of_call {ch : WriteChannel} {v : Byte} {e : Event} (h : writeCallEvent ch v = some e)
    (nest : Nested) : writeAction nest ch v = callPlain nest (writeChannelAgent ch) e := by
  cases ch <;> cases h <;> rfl

/-- A call that is done leaves the busy flags as it found them. -/
theorem callPlain_done_busy {ag : Agent} {e : Event} (he : e.uncounted) {s t : State}
    (h : callPlain nested ag e s = .done () t) : t.busy = s.busy := by
  have ho := callPlain_obeys nested_obeys ag he s
  rw [h] at ho
  exact ho.busy

section
variable {s : State} {sp : Space} {a : Addr} (hl : s.live) (hb : s.busy.get sp = false)
include hl hb

/-- RD of a read channel's address is the call of its collaborator with the space busy: done, it returns the draw's byte
and the entry is answered. -/
theorem exec_rd_of_call {ch : ReadChannel} (hc : s.readChannelAt sp a = some ch) {e e' : Event}
    (he : readCallEvent ch none = some e) (he' : readCallEvent ch (some s.nextDraw.byte) = some e') :
    exec (.rd sp a) s = .next ((callPlain nested (readChannelAgent ch) e (s.setBusy sp true)).endsCall fun t =>
      State.ended { t with busy := s.busy, events := t.events.set s.events.length e' }
        (some (.byte s.nextDraw.byte))) := by
  obtain ⟨ev, hev, hact⟩ := readAction_of_call he
  obtain rfl : e = ev none := Option.some_inj.mp (he.symm.trans (hev none))
  obtain rfl : e' = ev (some s.nextDraw.byte) := Option.some_inj.mp (he'.symm.trans (hev _))
  rw [exec_rd_live hl, dispatchRead_intercepted hb hc, invokeRead, hact, callByte_eq_callPlain]
  cases hf : callPlain nested (readChannelAgent ch) (ev none) (s.setBusy sp true) with
  | halted t => rfl
  | done _ t =>
    have ht : t.busy = s.busy.set sp true := callPlain_done_busy (readCallEvent_uncounted he) hf
    simp only [andThen, setBusy_cleared hb _ ((State.setEvent_busy ..).trans ht)]
    rfl

/-- WR to a write channel's address is the call of its collaborator with the space busy. -/
theorem exec_wr_of_call {ch : WriteChannel} (hc : s.writeChannelAt sp a = some ch) {v : Byte} {e : Event}
    (he : writeCallEvent ch v = some e) :
    exec (.wr sp a v) s = .next ((callPlain nested (writeChannelAgent ch) e (s.setBusy sp true)).endsCall fun t =>
      State.ended { t with busy := s.busy } (some .nothing)) := by
  rw [exec_wr_live hl, dispatchWrite_intercepted hb hc, invokeWrite, writeAction_of_call he]
  cases hf : callPlain nested (writeChannelAgent ch) e (s.setBusy sp true) with
  | halted t => rfl
  | done _ t =>
    simp only [andThen, setBusy_cleared hb t (callPlain_done_busy (writeCallEvent_uncounted he) hf)]
    rfl

end

/-! ### What a collaborator issues inside a channel's call (R79, R139, R141) -/

/-- The state in which a channel's collaborator begins: its space busy, its draw taken, the call logged. -/
theorem setBusy_afterDraw_log {s : State} {d : Draw} {rest : List Draw} (h : s.script = d :: rest) (sp : Space)
    (e : Event) : (s.setBusy sp true).nextDraw = d ∧ (s.setBusy sp true).afterDraw.log e = { s with
      script := rest
      busy := s.busy.set sp true
      events := s.events ++ [e] } := by
  obtain ⟨h1, h2⟩ := State.afterDraw_scripted (s := s.setBusy sp true) h
  exact ⟨h1, by rw [h2]; rfl⟩

/-- A channel's call, from the host's own run of what its collaborator issues; the two fields that no operation reads are
those before. -/
theorem channelCall_issued {ag : Agent} {e : Event} {s t : State} {sp : Space} {d : Draw} {rest : List Draw}
    {xs ys : List Act} (hl : s.live) (hs : s.script = d :: rest) (hd : d.acts = xs ++ ys)
    (hi : ∀ act ∈ xs, issuedBy ag act)
    (h : runInstrs (xs.map actInstr) { s with
      script := rest
      busy := s.busy.set sp true
      events := s.events ++ [e] } = .next t) :
    (ys = [] → t.fault = none → callPlain nested ag e (s.setBusy sp true) = .done () (t.marked s.phase s.result)) ∧
      (t.fault ≠ none → callPlain nested ag e (s.setBusy sp true) = .halted (t.marked s.phase s.result)) := by
  obtain ⟨hdraw, hstart⟩ := setBusy_afterDraw_log hs sp e
  exact callPlain_issued (s := s.setBusy sp true) (p := s.phase) (r := s.result) hl (hdraw ▸ hd) hi
    (by rw [hstart]; exact h)

/-- A channel's call whose collaborator issues nothing. -/
theorem channelCall_quiet {ag : Agent} {e : Event} {s : State} {sp : Space} {d : Draw} {rest : List Draw}
    (hs : s.script = d :: rest) (hd : d.acts = []) :
    callPlain nested ag e (s.setBusy sp true) = .done () { s with
      script := rest
      busy := s.busy.set sp true
      events := s.events ++ [e] } :=
  callPlain_quiet (s := s.setBusy sp true) hs hd

/-- Settles O24: the RD is its channel's call, which ends as the host's own run of what the collaborator issues. -/
theorem rdOfCollaboratorChannel : Obligations.RdOfCollaboratorChannel := by
  refine ⟨fun s sp a ch e' d rest hl hb hc hs hd he' => ?_,
    fun s t sp a ch e e' d rest xs ys hl hb hc hs hd hi he he' hrun => ?_⟩
  · obtain ⟨ev, hev, -⟩ := readAction_of_call he'
    obtain ⟨rfl, -⟩ := State.afterDraw_scripted hs
    rw [exec_rd_of_call hl hb hc (hev none) he', channelCall_quiet hs hd]
    simp [Flow.endsCall, State.ended]
  · obtain ⟨hdone, hhalt⟩ := channelCall_issued (ag := readChannelAgent ch) hl hs hd hi hrun
    obtain ⟨rfl, -⟩ := State.afterDraw_scripted hs
    rw [exec_rd_of_call hl hb hc he he']
    exact ⟨fun hy hf => by rw [hdone hy hf]; rfl, fun hf => by rw [hhalt hf]; rfl⟩

/-- Settles O29: the WR is its channel's call, which ends as the host's own run of what the collaborator issues. -/
theorem wrOfCollaboratorChannel : Obligations.WrOfCollaboratorChannel := by
  refine ⟨fun s sp a v ch e d rest hl hb hc hs hd he => ?_,
    fun s t sp a v ch e d rest xs ys hl hb hc hs hd hi he hrun => ?_⟩
  · rw [exec_wr_of_call hl hb hc he, channelCall_quiet hs hd]
    rfl
  · obtain ⟨hdone, hhalt⟩ := channelCall_issued (ag := writeChannelAgent ch) hl hs hd hi hrun
    rw [exec_wr_of_call hl hb hc he]
    exact ⟨fun hy hf => by rw [hdone hy hf]; rfl, fun hf => by rw [hhalt hf]; rfl⟩

/-- Settles O26: the answer is the parameter for JOY2_R and else the draw's byte, and neither depends on memory. -/
theorem interceptedReadIgnoresBacking : Obligations.InterceptedReadIgnoresBacking := by
  intro s sp a ch m hl hb hc
  by_cases hj : ch = .joy2
  · subst hj
    exact ⟨_, rdOfControllerPortTwo { s with mem := m } sp a hl hb hc, fun _ => ⟨rfl, rfl⟩⟩
  · obtain ⟨e, he⟩ := readCallEvent_of_ne_joy2 hj none
    obtain ⟨e', he'⟩ := readCallEvent_of_ne_joy2 hj (some s.nextDraw.byte)
    refine ⟨_, exec_rd_of_call (s := { s with mem := m }) hl hb hc he he', ?_⟩
    have ho := callPlain_obeys nested_obeys (readChannelAgent ch) (readCallEvent_uncounted he)
      (State.setBusy { s with mem := m } sp true)
    cases hf : callPlain nested (readChannelAgent ch) e (State.setBusy { s with mem := m } sp true) with
    | done _ t => exact fun _ => ⟨by rw [if_neg hj]; rfl, rfl⟩
    | halted t =>
      rw [hf] at ho
      exact fun hn => absurd hn ho.fault

end Sys2Proof.Machine

namespace Sys2Proof.Machine

/-! ### What a page view reads, by the policy (R140) -/

theorem exec_page_live {s : State} (hl : s.live) (p : Byte) :
    exec (.page p) s = finish (withResult (pageView p s) .view) :=
  whileRunning_live hl fun s => withResult (pageView p s) .view

/-- A PAGE that answers a view has read it, and leaves what the reading left. -/
theorem pageView_of_exec_page {s t : State} {p : Byte} {view : List Byte} (hl : s.live)
    (h : exec (.page p) s = .next t) (hr : t.result = some (.view view)) :
    ∃ u, pageView p s = .done view u ∧ t = u.ended (some (.view view)) := by
  rw [exec_page_live hl] at h
  cases hv : pageView p s with
  | done w u =>
    rw [hv] at h
    cases h
    cases hr
    exact ⟨u, rfl, rfl⟩
  | halted u =>
    rw [hv] at h
    cases h
    cases hr

/-- A page view that is answered leaves the busy flags. -/
theorem pageView_done_busy {s u : State} {p : Byte} {view : List Byte} (h : pageView p s = .done view u) :
    u.busy = s.busy := by
  have ho := pageView_obeys p s
  rw [h] at ho
  exact ho.busy

/-- Under the policy `fault` a page that meets the window is not read. -/
theorem pageView_unbound {s : State} {p : Byte} (hp : s.params.pagePolicy = .fault)
    (hw : ∃ k, k < 256 ∧ s.inWindow .cpu (BitVec.ofNat 16 (p.toNat * 256 + k)) = true) :
    pageView p s = raiseFault (.dmaPageUnbound p) s := by
  rw [pageView, if_pos ⟨(pageMeetsWindow_iff s p).mpr hw, hp⟩]

/-- Under any other policy, and outside the window under any, the page is read byte by byte. -/
theorem pageView_read {s : State} {p : Byte} (h : s.params.pagePolicy ≠ .fault ∨
      ∀ k, k < 256 → s.inWindow .cpu (BitVec.ofNat 16 (p.toNat * 256 + k)) = false) :
    pageView p s = pageBytes (pageAddrs p) s := by
  refine if_neg fun ⟨hm, hf⟩ => ?_
  obtain ⟨k, hk, hw⟩ := (pageMeetsWindow_iff s p).mp hm
  rcases h with h | h
  · exact h hf
  · simp [h k hk] at hw

/-- Where the policy asks nobody, the view is the backing bytes and the state stays. -/
theorem pageView_raw {s : State} {p : Byte} (h : s.params.pagePolicy = .backing ∨
      ∀ k, k < 256 → s.inWindow .cpu (BitVec.ofNat 16 (p.toNat * 256 + k)) = false) :
    pageView p s =
      .done ((List.range 256).map fun k => s.raw .cpu (BitVec.ofNat 16 (p.toNat * 256 + k))) s := by
  rw [pageView_read (h.imp_left fun hp => by simp [hp]), pageBytes_raw fun a ha => ?_, pageAddrs, List.map_map]
  · rfl
  · obtain ⟨k, hk, rfl⟩ := List.mem_map.mp ha
    rintro ⟨hw, hp⟩
    rcases h with h | h
    · simp [h] at hp
    · simp [pageAddr, h k (List.mem_range.mp hk)] at hw

/-- Settles O34: the policy `backing` asks nobody. -/
theorem pageIsTheBackingBytes : Obligations.PageIsTheBackingBytes := fun s p hl hp => by
  rw [exec_page_live hl, pageView_raw (.inl hp)]
  rfl

/-- Settles O36: the policy `fault` looks for the window before it reads, and reads nothing of the cartridge. -/
theorem pageUnderFaultPolicy : Obligations.PageUnderFaultPolicy := fun s p hl hp => by
  refine ⟨fun hw => ?_, fun hw => ?_⟩
  · rw [exec_page_live hl, pageView_unbound hp hw]
    rfl
  · rw [exec_page_live hl, pageView_raw (.inr hw)]
    rfl

/-! ### A WR to the DMA trigger (R154, R171, R172) -/

/-- WR to the DMA trigger reads the view PAGE answers in the same state, then calls the PPU with the space busy, and a
call that is done adds the stall and the count. -/
theorem exec_wr_of_dma {s u : State} {sp : Space} {a : Addr} {v : Byte} {view : List Byte} (hl : s.live)
    (hb : s.busy.get sp = false) (hc : s.writeChannelAt sp a = some .dma) (hv : pageView v s = .done view u) :
    exec (.wr sp a v) s = .next ((callPlain nested .ppu (.ppuDoDma view) (u.setBusy sp true)).endsCall fun t =>
      State.ended { t.addStall with busy := s.busy } (some .nothing)) := by
  rw [exec_wr_live hl, dispatchWrite_intercepted hb hc, invokeWrite, writeAction, dmaTransfer,
    pageView_setBusy hv sp true]
  simp only [andThen]
  cases hf : callPlain nested .ppu (.ppuDoDma view) (u.setBusy sp true) with
  | halted t => rfl
  | done _ t =>
    have ht : t.busy = s.busy.set sp true := by
      rw [callPlain_done_busy (by simp [Event.uncounted]) hf, ← pageView_done_busy hv]
      rfl
    simp only [setBusy_cleared hb t.addStall ht]
    rfl

/-- Settles O39: the view is the backing bytes, and a PPU that issues nothing leaves only its call, the stall and the
count. -/
theorem dmaTriggerRunsOneTransfer : Obligations.DmaTriggerRunsOneTransfer := by
  intro s sp a v d rest hl hb hp hc hs hd
  rw [exec_wr_of_dma hl hb hc (pageView_raw hp), channelCall_quiet hs hd]
  rfl

/-! ### A collaborator that re-enters a busy space (R139, R141, R253) -/

/-- An access to a busy space faults with its own word, whoever issues it. -/
theorem issue_reenters (nest : Nested) (ag : Agent) {s : State} {sp : Space} (hb : s.busy.get sp = true) (x : Access) :
    issue nest ag (.access sp x) s = raiseFault (.reentrantDispatch (encode (actInstr (.access sp x)))) s := by
  rw [issue, mayIssue, hb, Bool.or_true, if_pos rfl]
  cases x with
  | rd a => rw [perform, dispatchRead_busy hb]; rfl
  | wr a v => exact dispatchWrite_busy hb a v

/-- A call whose collaborator first accesses a busy space halts there. -/
theorem callPlain_reenters (ag : Agent) (e : Event) {s : State} {sp : Space} {x : Access} {more : List Act}
    (hb : s.busy.get sp = true) (hd : s.nextDraw.acts = .access sp x :: more) :
    callPlain nested ag e s = .halted
      ((s.afterDraw.log e).enterFault (.reentrantDispatch (encode (actInstr (.access sp x))))) := by
  rw [callPlain, hd]
  change runActs (nestedTo 2) ag _ _ = _
  rw [runActs, issue_reenters _ ag (by simpa using hb)]
  rfl

/-- Operations with an access to a busy space among them are halted by some fault: what goes before the access leaves the
space busy, if it does not fault itself. -/
theorem runActs_reenters {nest : Nested} (hn : NestObeys nest) (ag : Agent) {acts : List Act} {s : State} {sp : Space}
    {x : Access} (hb : s.busy.get sp = true) (hx : .access sp x ∈ acts) : ∃ t, runActs nest ag acts s = .halted t := by
  induction acts generalizing s with
  | nil => cases hx
  | cons act rest ih =>
    rw [runActs]
    rcases List.mem_cons.mp hx with rfl | hx
    · exact ⟨_, by rw [issue_reenters nest ag hb]; rfl⟩
    · have ho := issue_obeys hn ag act s
      cases hi : issue nest ag act s with
      | halted t => exact ⟨t, rfl⟩
      | done _ t =>
        rw [hi] at ho
        exact ih (by rw [ho.busy]; exact hb) hx

/-- A channel's call whose collaborator accesses the channel's space is halted inside, whatever was to close it. -/
theorem channelCall_haltsInside (ag : Agent) (e : Event) {s : State} {sp : Space}
    (hx : ∃ x, Act.access sp x ∈ s.nextDraw.acts) (close : State → State) :
    haltsInside s sp e (.next ((callPlain nested ag e (s.setBusy sp true)).endsCall close)) := by
  obtain ⟨x, hx⟩ := hx
  obtain ⟨t, ht⟩ := runActs_reenters (nestedTo_obeys 2) ag (s := (s.setBusy sp true).afterDraw.log e) (sp := sp)
    (by simp) hx
  have ho := nested_obeys ag s.nextDraw.acts ((s.setBusy sp true).afterDraw.log e)
  change Obeys _ (runActs (nestedTo 2) _ _ _) at ho
  rw [ht] at ho
  refine ⟨t.ended none, ?_, ho.fault, ho.sched, rfl, ho.stillBusy sp (by simp), by simpa using ho.log⟩
  change Host.Outcome.next (Flow.endsCall close (runActs (nestedTo 2) ag s.nextDraw.acts _)) = _
  rw [ht]
  rfl

/-- A channel's call whose collaborator first accesses the channel's space. -/
theorem channelCall_reenters (ag : Agent) {e : Event} {s : State} {sp : Space} {x : Access} {d : Draw}
    {rest : List Draw} {more : List Act} (hs : s.script = d :: rest) (hd : d.acts = .access sp x :: more) :
    callPlain nested ag e (s.setBusy sp true) = .halted { s with
      script := rest
      busy := s.busy.set sp true
      events := s.events ++ [e]
      fault := some (.reentrantDispatch (encode (actInstr (.access sp x))))
      sched := .stopped } := by
  obtain ⟨hdraw, hstart⟩ := setBusy_afterDraw_log hs sp e
  rw [callPlain_reenters ag e (by simp) (hdraw ▸ hd), hstart]
  rfl

/-- Settles O32: at the head of the call the access faults before any effect; anywhere else in it the space is still busy
when its turn comes. -/
theorem reentrantCollaboratorHalts : Obligations.ReentrantCollaboratorHalts := by
  refine ⟨fun s sp a v ch e x d rest more hl hb hc he hs hd => ?_,
    fun s sp a ch e x d rest more hl hb hc he hs hd => ?_,
    fun s t sp a v view x more hl hb hc hp hr hd => ?_,
    fun s sp a hl hb hx => ⟨fun v ch e hc he => ?_, fun ch e hc he => ?_⟩,
    fun s t sp a v view hl hb hc hp hr hx => ?_⟩
  · rw [exec_wr_of_call hl hb hc he, channelCall_reenters _ hs hd]
    cases x <;> rfl
  · obtain ⟨ev, hev, -⟩ := readAction_of_call he
    rw [exec_rd_of_call hl hb hc he (hev _), channelCall_reenters _ hs hd]
    cases x <;> rfl
  · obtain ⟨u, hu, rfl⟩ := pageView_of_exec_page hl hp hr
    rw [exec_wr_of_dma hl hb hc hu, callPlain_reenters (s := u.setBusy sp true) .ppu (.ppuDoDma view) (by simp) hd,
      afterDraw_setBusy, ← pageView_done_busy hu,
      show (u.ended _).afterDraw = u.afterDraw.ended _ from afterDraw_marked u _ _]
    cases x <;> simp [Flow.endsCall, State.ended, State.enterFault, State.log, State.setBusy, actInstr]
  · rw [exec_wr_of_call hl hb hc he]
    exact channelCall_haltsInside _ e hx _
  · obtain ⟨ev, hev, -⟩ := readAction_of_call he
    rw [exec_rd_of_call hl hb hc he (hev _)]
    exact channelCall_haltsInside _ _ hx _
  · obtain ⟨u, hu, rfl⟩ := pageView_of_exec_page hl hp hr
    rw [exec_wr_of_dma hl hb hc hu]
    exact channelCall_haltsInside .ppu _ (s := u) hx _

end Sys2Proof.Machine

namespace Sys2Proof.Machine

/-! ### A page view under the policy `cartridge` (R140) -/

/-- The next `n` collaborator draws: the scripted ones first, then free ones (log entry 5). -/
def State.draws (s : State) (n : Nat) : List Draw :=
  (s.script ++ (List.range n).map fun j => Config.draw (s.drawn + j)).take n

/-- The state once `n` draws are taken. -/
def State.afterDraws (s : State) (n : Nat) : State :=
  { s with script := s.script.drop n, drawn := s.drawn + (n - s.script.length) }

/-- The state with these entries added to its log. -/
def State.logAll (s : State) (es : List Event) : State := { s with events := s.events ++ es }

theorem draws_succ (s : State) (n : Nat) : s.draws (n + 1) = s.nextDraw :: s.afterDraw.draws n := by
  cases h : s.script with
  | nil =>
    obtain ⟨hd, ht⟩ := State.afterDraw_free h
    rw [hd, ht]
    simp [State.draws, h, List.range_succ_eq_map, Function.comp_def, Nat.add_assoc, Nat.add_comm 1]
  | cons d rest =>
    obtain ⟨hd, ht⟩ := State.afterDraw_scripted h
    rw [hd, ht]
    simp only [State.draws, h, List.cons_append, List.take_succ_cons, List.take_append, ← List.map_take,
      List.take_range]
    rw [Nat.min_eq_left (by omega), Nat.min_eq_left (by omega)]

theorem afterDraws_succ (s : State) (n : Nat) : s.afterDraws (n + 1) = s.afterDraw.afterDraws n := by
  cases h : s.script with
  | nil => simp [State.afterDraws, State.afterDraw, h, Nat.add_assoc, Nat.add_comm 1]
  | cons d rest => simp [State.afterDraws, State.afterDraw, h]

theorem logAll_log_afterDraws (s : State) (e : Event) (n : Nat) (es : List Event) :
    ((s.log e).afterDraws n).logAll es = (s.afterDraws n).logAll (e :: es) := by
  simp [State.logAll, State.log, State.afterDraws]

/-- The addresses of `l` inside the window, each with its byte of the view: what the cartridge is asked for. -/
def State.asked (s : State) (l : List Addr) (view : List Byte) : List (Addr × Byte) :=
  (l.zip view).filter fun c => s.inWindow .cpu c.1

/-- Reading the bytes at `l` under the policy `cartridge` gives `view`: one draw for each address inside the window, in
order, each logged, and the backing bytes elsewhere. -/
structure ReadsCartridge (s : State) (l : List Addr) (view : List Byte) : Prop where
  done : pageBytes l s = .done view ((s.afterDraws (l.countP (s.inWindow .cpu))).logAll
    ((s.asked l view).map fun c => .cartRead .cpu c.1 c.2))
  length : view.length = l.length
  outside : ∀ c ∈ l.zip view, s.inWindow .cpu c.1 = false → c.2 = s.raw .cpu c.1
  inside : (s.asked l view).map (·.2) = (s.draws (l.countP (s.inWindow .cpu))).map (·.byte)

theorem ReadsCartridge.nil (s : State) : ReadsCartridge s [] [] where
  done := by simp [pageBytes, State.afterDraws, State.asked, State.logAll]
  length := rfl
  outside := by simp
  inside := by simp [State.asked, State.draws]

/-- A byte outside the window takes no draw. -/
theorem ReadsCartridge.cons_outside {s : State} {a : Addr} {l : List Addr} {view : List Byte}
    (hw : s.inWindow .cpu a = false) (h : ReadsCartridge s l view) :
    ReadsCartridge s (a :: l) (s.raw .cpu a :: view) where
  done := by simp [pageBytes, hw, andThen, h.done, State.asked]
  length := by simp [h.length]
  outside := by simpa [hw] using h.outside
  inside := by simpa [State.asked, hw] using h.inside

/-- A byte inside the window is the next draw's answer. -/
theorem ReadsCartridge.cons_inside {s : State} {a : Addr} {l : List Addr} {view : List Byte}
    (hp : s.params.pagePolicy = .cartridge) (hw : s.inWindow .cpu a = true)
    (h : ReadsCartridge (s.afterDraw.log (.cartRead .cpu a s.nextDraw.byte)) l view) :
    ReadsCartridge s (a :: l) (s.nextDraw.byte :: view) := by
  obtain ⟨hdone, hlen, hout, hin⟩ := h
  have hwin : (s.afterDraw.log (.cartRead .cpu a s.nextDraw.byte)).inWindow = s.inWindow := by
    funext sp b
    simp [State.inWindow]
  have hraw : (s.afterDraw.log (.cartRead .cpu a s.nextDraw.byte)).raw .cpu = s.raw .cpu :=
    funext (raw_congr (by simp))
  simp only [State.asked, hwin, hraw, logAll_log_afterDraws] at hdone hout hin
  refine ⟨?_, by simp [hlen], by simpa [hw] using hout, ?_⟩
  · simp [pageBytes, hw, hp, cartRead, andThen, hdone, State.asked, afterDraws_succ]
  · simp only [State.asked, List.zip_cons_cons, List.filter_cons, hw, if_true, List.map_cons, hin, List.countP_cons,
      draws_succ]
    rfl

/-- Under the policy `cartridge` any list of addresses is read so. -/
theorem exists_readsCartridge {s : State} (hp : s.params.pagePolicy = .cartridge) (l : List Addr) :
    ∃ view, ReadsCartridge s l view := by
  induction l generalizing s with
  | nil => exact ⟨[], .nil s⟩
  | cons a l ih =>
    cases hw : s.inWindow .cpu a with
    | true =>
      obtain ⟨view, h⟩ := ih (s := s.afterDraw.log (.cartRead .cpu a s.nextDraw.byte)) (by simpa using hp)
      exact ⟨_, h.cons_inside hp hw⟩
    | false =>
      obtain ⟨view, h⟩ := ih hp
      exact ⟨_, h.cons_outside hw⟩

/-- A page's addresses with the bytes of a view of it, by their number in the page. -/
theorem zip_pageAddrs {p : Byte} {view : List Byte} (h : view.length = 256) :
    (pageAddrs p).zip view = (List.range 256).map fun k => (pageAddr p k, view.getD k 0#8) := by
  refine List.ext_getElem (by simp [pageAddrs, h]) fun k hk _ => ?_
  have hk : k < view.length := (List.length_zip ▸ hk).trans_le (Nat.min_le_right _ _)
  simp [pageAddrs, hk]

/-- Settles O35: by induction on the page's addresses, those inside the window are asked for and answered one by one. -/
theorem pageUnderCartridgePolicy : Obligations.PageUnderCartridgePolicy := by
  intro s p inside hl hp hinside
  obtain ⟨view, hdone, hlength, hout, hin⟩ := exists_readsCartridge hp (pageAddrs p)
  have hlen : view.length = 256 := hlength.trans (by simp [pageAddrs])
  have hcount : (pageAddrs p).countP (s.inWindow .cpu) = inside.length := by
    rw [hinside, pageAddrs, List.countP_map, List.countP_eq_length_filter]
    rfl
  have hasked : s.asked (pageAddrs p) view = inside.map fun k => (pageAddr p k, view.getD k 0#8) := by
    rw [hinside, State.asked, zip_pageAddrs hlen, List.filter_map]
    rfl
  rw [hcount, hasked] at hdone hin
  rw [zip_pageAddrs hlen] at hout
  have hexec := exec_page_live hl p
  rw [pageView_read (.inl (by simp [hp])), hdone] at hexec
  refine ⟨_, view, hexec, rfl, hlen, fun k hk hw => ?_, ?_, rfl, rfl, ?_, rfl, rfl⟩
  · have hbyte : view.getD k 0#8 = s.raw .cpu (pageAddr p k) :=
      hout (pageAddr p k, view.getD k 0#8) (List.mem_map_of_mem (List.mem_range.mpr hk)) hw
    exact (by simp [hlen, hk] : view[k]? = some (view.getD k 0#8)).trans (congrArg some hbyte)
  · rwa [List.map_map] at hin
  · simp [State.logAll, State.afterDraws, pageAddr, Function.comp_def]

end Sys2Proof.Machine

namespace Sys2Proof.Machine

/-! ### DMAX (R172) -/

theorem exec_dmax_live {s : State} (hl : s.live) (p : Byte) :
    exec (.dmax p) s = finish (withResult (dmaTransfer nested p s) .stall) :=
  whileRunning_live hl fun s => withResult (dmaTransfer nested p s) .stall

/-- DMAX hands the view PAGE answers in the same state to the PPU, and a call that is done adds the stall and the
count. -/
theorem exec_dmax_of_view {s u : State} {p : Byte} {view : List Byte} (hl : s.live)
    (hv : pageView p s = .done view u) :
    exec (.dmax p) s = .next ((callPlain nested .ppu (.ppuDoDma view) u).endsCall fun t =>
      t.addStall.ended (some (.stall t.params.dmaStallCycles))) := by
  rw [exec_dmax_live hl, dmaTransfer, hv]
  simp only [andThen]
  cases callPlain nested .ppu (.ppuDoDma view) u <;> rfl

/-- Settles O37: the view is the backing bytes, and a PPU that issues nothing leaves only its call, the stall and the
count. -/
theorem dmaTransfersThePage : Obligations.DmaTransfersThePage := fun s p d rest hl hp hs hd => by
  rw [exec_dmax_of_view hl (pageView_raw (.inl hp)), callPlain_quiet hs hd]
  rfl

/-- Settles O40: the view faults before the PPU is called, and for a WR with the space already busy. -/
theorem unboundDmaFaults : Obligations.UnboundDmaFaults := by
  intro s p k hl hp hk hw
  refine ⟨?_, fun sp a hb hc => ?_⟩
  · rw [exec_dmax_live hl, dmaTransfer, pageView_unbound hp ⟨k, hk, hw⟩]
    rfl
  · rw [exec_wr_live hl, dispatchWrite_intercepted hb hc, invokeWrite, writeAction, dmaTransfer,
      pageView_unbound (s := s.setBusy sp true) hp ⟨k, hk, hw⟩]
    rfl

/-! ### A transfer under any policy (R140, R154, R172) -/

/-- Reading bytes adds no stall and no transfer. -/
theorem pageBytes_done_stall {l : List Addr} {s t : State} {view : List Byte} (h : pageBytes l s = .done view t) :
    t.dmaStall = s.dmaStall ∧ t.dmaCount = s.dmaCount := by
  induction l generalizing s view with
  | nil => cases h; exact ⟨rfl, rfl⟩
  | cons a rest ih =>
    obtain ⟨v, u, hbyte, h⟩ := andThen_done h
    obtain ⟨vs, w, hrest, h⟩ := andThen_done h
    cases h
    obtain ⟨hstall, hcount⟩ := ih hrest
    rw [hstall, hcount]
    split at hbyte <;> cases hbyte <;> simp

theorem pageView_done_stall {s t : State} {p : Byte} {view : List Byte} (h : pageView p s = .done view t) :
    t.dmaStall = s.dmaStall ∧ t.dmaCount = s.dmaCount := by
  unfold pageView at h
  split at h
  · cases h
  · exact pageBytes_done_stall h

/-- A page view that is answered did only what an operation that no fault halts may do. -/
theorem pageView_done_settled {s t : State} {p : Byte} {view : List Byte} (h : pageView p s = .done view t) :
    Settled s t := by
  have ho := pageView_obeys p s
  rwa [h] at ho

/-- A call of `doDma` that is done leaves the parameters. -/
theorem doDma_done_params {view : List Byte} {s t : State}
    (h : callPlain nested .ppu (.ppuDoDma view) s = .done () t) : t.params = s.params := by
  have ho := callPlain_obeys nested_obeys .ppu (e := .ppuDoDma view) (by simp [Event.uncounted]) s
  rw [h] at ho
  exact ho.toWithin.params

/-- A call whose draw, scripted or free, issues nothing. -/
theorem callPlain_of_no_acts {ag : Agent} {e : Event} {s : State} (h : s.nextDraw.acts = []) :
    callPlain nested ag e s = .done () (s.afterDraw.log e) := by
  rw [callPlain, h]
  rfl

/-- The state in which a call begins, after an operation has ended in `s`: its draw taken, the call logged. -/
theorem afterDraw_log_ended (s : State) (r : Option Result) (e : Event) :
    { (s.ended r).afterDraw with events := (s.ended r).events ++ [e] } = (s.afterDraw.log e).marked .outside r := by
  rw [show (s.ended r).afterDraw = s.afterDraw.marked .outside r from afterDraw_marked s .outside r]
  simp [State.marked, State.log, State.ended]

/-- The same for a call that a channel of `sp` makes: the space is busy. -/
theorem setBusy_afterDraw_log_ended (s : State) (r : Option Result) (sp : Space) (e : Event) :
    { (s.ended r).afterDraw with busy := s.busy.set sp true, events := (s.ended r).events ++ [e] } =
      ((s.setBusy sp true).afterDraw.log e).marked .outside r := by
  rw [← afterDraw_log_ended,
    show ((s.setBusy sp true).ended r).afterDraw = _ from afterDraw_setBusy (s.ended r) sp true]
  simp [State.setBusy, State.ended]

/-- Settles O38: DMAX and a WR to the trigger are the same view and the same call, which ends as the host's own run of
what the PPU issues; the stall and the count follow a call that is done. -/
theorem dmaHandsOnThePageView : Obligations.DmaHandsOnThePageView := by
  refine ⟨fun s t p view hl hp hr hd => ?_, fun s t w p view xs more hl hp hr hd hxs => ?_⟩
  · obtain ⟨u, hv, rfl⟩ := pageView_of_exec_page hl hp hr
    have hu := pageView_done_settled hv
    obtain ⟨hstall, hcount⟩ := pageView_done_stall hv
    rw [show (u.ended _).afterDraw = u.afterDraw.marked _ _ from afterDraw_marked u _ _]
    refine ⟨?_, fun sp a hb hc => ?_⟩
    · rw [exec_dmax_of_view hl hv, callPlain_of_no_acts (s := u) hd]
      simp [Flow.endsCall, State.ended, State.addStall, State.log, State.marked, hstall, hcount, hu.toWithin.params]
    · rw [exec_wr_of_dma hl hb hc hv, callPlain_of_no_acts (s := u.setBusy sp true) hd, afterDraw_setBusy]
      simp [Flow.endsCall, State.ended, State.addStall, State.log, State.marked, State.setBusy, hstall, hcount,
        hu.toWithin.params, hu.busy]
  · obtain ⟨u, hv, rfl⟩ := pageView_of_exec_page hl hp hr
    have hu := pageView_done_settled hv
    have hlive : u.live := ⟨hu.sched.trans hl.1, hu.fault.trans hl.2⟩
    refine ⟨fun hrun => ?_, fun sp a hb hc hrun => ?_⟩
    · rw [afterDraw_log_ended] at hrun
      obtain ⟨hdone, hhalt⟩ := callPlain_issued hlive hd hxs hrun
      rw [exec_dmax_of_view hl hv]
      refine ⟨fun hm hf => ?_, fun hf => by rw [hhalt hf]; rfl⟩
      have hparams : w.params = s.params := (doDma_done_params (hdone hm hf)).trans hu.toWithin.params
      rw [hdone hm hf, ← hparams]
      rfl
    · rw [← hu.busy, setBusy_afterDraw_log_ended] at hrun
      obtain ⟨hdone, hhalt⟩ := callPlain_issued (s := u.setBusy sp true) hlive hd hxs hrun
      rw [exec_wr_of_dma hl hb hc hv]
      refine ⟨fun hm hf => ?_, fun hf => by rw [hhalt hf]; rfl⟩
      have hparams : w.params = s.params := (doDma_done_params (hdone hm hf)).trans hu.toWithin.params
      rw [hdone hm hf, ← hparams]
      rfl

/-! ### The stall of a CPU slot (R173, R176) -/

/-- The stall has grown by one fixed count for each transfer made. -/
def StallsAdd (s t : State) : Prop :=
  t.params = s.params ∧ ∃ n, t.dmaCount = s.dmaCount + n ∧ t.dmaStall = s.dmaStall + n * s.params.dmaStallCycles

theorem StallsAdd.trans {s t u : State} (h : StallsAdd s t) (k : StallsAdd t u) : StallsAdd s u := by
  obtain ⟨hp, n, hc, hs⟩ := h
  obtain ⟨kp, m, kc, ks⟩ := k
  exact ⟨kp.trans hp, n + m, by omega, by rw [ks, hs, hp, Nat.add_mul, Nat.add_assoc]⟩

/-- A change of state that touches none of the three fields. -/
theorem StallsAdd.of_eq {s t : State} (hp : t.params = s.params) (hc : t.dmaCount = s.dmaCount)
    (hs : t.dmaStall = s.dmaStall) : StallsAdd s t :=
  ⟨hp, 0, hc, by simp [hs]⟩

theorem Within.stallsAdd {s t : State} (h : Within s t) : StallsAdd s t := ⟨h.params, h.stall⟩

theorem deliver_stallsAdd (s : State) : StallsAdd s (deliver s).last :=
  .trans (t := s.clearLine) (.of_eq rfl rfl rfl) (deliver_obeys s).within.stallsAdd

/-- `CPU.step`, counted, done or halted. -/
theorem cpuStep_stallsAdd (s : State) :
    StallsAdd s (counted State.countCpuStep true (callPlain nested .cpu .cpuStep s)).last := by
  have hstart : StallsAdd s (cpuSlotStart s) :=
    .of_eq (by simp [cpuSlotStart]) (by simp [cpuSlotStart]) (by simp [cpuSlotStart])
  have hcall := hstart.trans (cpuStep_obeys s).within.stallsAdd
  cases h : callPlain nested .cpu .cpuStep s <;> rw [h] at hcall <;> exact hcall

theorem cpuSlot_stallsAdd {s : State} (h : s.dmaStall = 0) : StallsAdd s (cpuSlot s).last := by
  have hstep := cpuStep_stallsAdd s
  rw [cpuSlot, if_neg (by omega)]
  cases hc : counted State.countCpuStep true (callPlain nested .cpu .cpuStep s) with
  | halted t => rwa [hc] at hstep
  | done _ t =>
    rw [hc] at hstep
    exact hstep.trans (deliver_stallsAdd t)

theorem exec_cpuslot_live {s : State} (hl : s.live) :
    exec .cpuslot s = finish (withResult (cpuSlot s) fun _ => .nothing) :=
  whileRunning_live hl fun s => withResult (cpuSlot s) fun _ => .nothing

/-- Settles O41: the step and the delivery, done or halted, add to the stall by transfers alone. -/
theorem stallsOfOneStepAdd : Obligations.StallsOfOneStepAdd := by
  intro s t hl hzero h
  rw [exec_cpuslot_live hl] at h
  obtain ⟨r, rfl⟩ := finish_last h
  obtain ⟨-, n, hcount, hstall⟩ := cpuSlot_stallsAdd hzero
  rw [withResult_last]
  exact ⟨n, hcount, by simpa [hzero] using hstall⟩

/-! ### Quanta under a stall (R175, R177) -/

/-- Nothing is bound in the PPU space, and no interceptor is running. -/
structure PpuUnbound (s : State) : Prop where
  unbusy : s.unbusy
  rdMap : s.rdMap.ppu = []
  wrMap : s.wrMap.ppu = []

/-- From `s` to `t` the Scheduler made `p` PPU steps, `k` stall slots and `q` quanta, and the CPU did nothing: its
memory, its steps and its interrupts stay. -/
structure CpuFrozen (s t : State) (p k q : Nat) : Prop where
  ppuSteps : t.ppuSteps = s.ppuSteps + p
  stallSlots : t.stallSlots = s.stallSlots + k
  quanta : t.quanta = s.quanta + q
  dmaStall : t.dmaStall = s.dmaStall - k
  dmaCount : t.dmaCount = s.dmaCount
  cpuSteps : t.cpuSteps = s.cpuSteps
  memCpu : t.mem.cpu = s.mem.cpu
  line : t.line = s.line ∨ t.line = some .nmi
  stepEvents : t.events.count .cpuStep = s.events.count .cpuStep
  interrupts : t.events.count (.cpuInterrupt .nmi) = s.events.count (.cpuInterrupt .nmi)
  sched : t.sched = s.sched
  fault : t.fault = s.fault
  busy : t.busy = s.busy
  rdMap : t.rdMap = s.rdMap
  wrMap : t.wrMap = s.wrMap

theorem CpuFrozen.trans {s t u : State} {p k q p' k' q' : Nat} (h : CpuFrozen s t p k q)
    (h' : CpuFrozen t u p' k' q') : CpuFrozen s u (p + p') (k + k') (q + q') where
  ppuSteps := by rw [h'.ppuSteps, h.ppuSteps, Nat.add_assoc]
  stallSlots := by rw [h'.stallSlots, h.stallSlots, Nat.add_assoc]
  quanta := by rw [h'.quanta, h.quanta, Nat.add_assoc]
  dmaStall := by rw [h'.dmaStall, h.dmaStall, Nat.sub_sub]
  dmaCount := h'.dmaCount.trans h.dmaCount
  cpuSteps := h'.cpuSteps.trans h.cpuSteps
  memCpu := h'.memCpu.trans h.memCpu
  line := h'.line.elim (fun e => e ▸ h.line) .inr
  stepEvents := h'.stepEvents.trans h.stepEvents
  interrupts := h'.interrupts.trans h.interrupts
  sched := h'.sched.trans h.sched
  fault := h'.fault.trans h.fault
  busy := h'.busy.trans h.busy
  rdMap := h'.rdMap.trans h.rdMap
  wrMap := h'.wrMap.trans h.wrMap

theorem CpuFrozen.unbound {s t : State} {p k q : Nat} (h : CpuFrozen s t p k q) (hu : PpuUnbound s) : PpuUnbound t :=
  ⟨h.busy.trans hu.unbusy, by rw [h.rdMap, hu.rdMap], by rw [h.wrMap, hu.wrMap]⟩

theorem CpuFrozen.live {s t : State} {p k q : Nat} (h : CpuFrozen s t p k q) (hl : s.live) : t.live :=
  ⟨h.sched.trans hl.1, h.fault.trans hl.2⟩

theorem CpuFrozen.refl (s : State) : CpuFrozen s s 0 0 0 :=
  ⟨rfl, rfl, rfl, rfl, rfl, rfl, rfl, .inl rfl, rfl, rfl, rfl, rfl, rfl, rfl, rfl⟩

/-- What the PPU does inside a call that is done: nothing but to its own side and the latch. -/
theorem PpuOnly.cpuFrozen {s t : State} (h : PpuOnly s t) (hs : Settled s t) : CpuFrozen s t 0 0 0 := by
  have hw := hs.toWithin
  have hsteps : t.events.count .cpuStep = s.events.count .cpuStep := congrArg (·.2.1) hw.tally
  exact ⟨hw.ppuSteps, hw.stallSlots, hw.quanta, h.dmaStall, h.dmaCount, hw.cpuSteps, h.memCpu, h.line, hsteps,
    h.interrupts, hs.sched, hs.fault, h.busy, h.rdMap, h.wrMap⟩

/-- Logging `PPU.step` and taking its draw. -/
theorem ppuSlotStart_cpuFrozen (s : State) : CpuFrozen s (ppuSlotStart s) 0 0 0 := by
  constructor <;> simp [ppuSlotStart, List.count_append]

/-- With nothing bound in the PPU space a PPU slot is done, whatever the PPU issues. -/
theorem ppuSlot_unbound {s : State} (hu : PpuUnbound s) (i : Slot) :
    ∃ t, ppuSlot (s.atSlot i) = .done () t ∧ CpuFrozen s t 1 0 0 := by
  have hslot : CpuFrozen s (s.atSlot i) 0 0 0 := { CpuFrozen.refl s with }
  have hstart := hslot.trans (ppuSlotStart_cpuFrozen (s.atSlot i))
  obtain ⟨hb, hr, hw⟩ := hstart.unbound hu
  obtain ⟨u, hrun, honly⟩ := runActs_ppuOnly (nestedTo 2) (s.atSlot i).nextDraw.acts hb hr hw
  have hcall : callPlain nested .ppu .ppuStep (s.atSlot i) = .done () u := hrun
  have hsettled := ppuStep_obeys (s.atSlot i)
  rw [hcall] at hsettled
  have hstep := hstart.trans (honly.cpuFrozen hsettled)
  exact ⟨u.countPpuStep, by rw [ppuSlot, hcall]; rfl,
    { hstep with ppuSteps := congrArg (· + 1) hstep.ppuSteps }⟩

/-- A CPU slot that finds a stall only counts it down. -/
theorem cpuSlot_stalled {s : State} (h : 0 < s.dmaStall) (i : Slot) :
    ∃ t, cpuSlot (s.atSlot i) = .done () t ∧ CpuFrozen s t 0 1 0 :=
  ⟨(s.atSlot i).stallSlot, if_pos h, ⟨rfl, rfl, rfl, rfl, rfl, rfl, rfl, .inl rfl, rfl, rfl, rfl, rfl, rfl, rfl, rfl⟩⟩

/-- A quantum under a stall is done: three PPU slots and a stall slot (R220). -/
theorem quantum_stalled {s : State} (hu : PpuUnbound s) (h : 0 < s.dmaStall) :
    ∃ t, quantum s = .done () t ∧ CpuFrozen s t 3 1 1 := by
  obtain ⟨t₁, e₁, f₁⟩ := ppuSlot_unbound hu .ppu0
  obtain ⟨t₂, e₂, f₂⟩ := ppuSlot_unbound (f₁.unbound hu) .ppu1
  have f₂ := f₁.trans f₂
  obtain ⟨t₃, e₃, f₃⟩ := ppuSlot_unbound (f₂.unbound hu) .ppu2
  have f₃ := f₂.trans f₃
  obtain ⟨t₄, e₄, f₄⟩ := cpuSlot_stalled (s := t₃) (by rw [f₃.dmaStall]; exact h) .cpu
  have f₄ := f₃.trans f₄
  refine ⟨t₄.countQuantum, by simp only [quantum, e₁, e₂, e₃, e₄, andThen], ?_⟩
  exact { f₄ with quanta := congrArg (· + 1) f₄.quanta }

theorem exec_quantum_live {s : State} (hl : s.live) :
    exec .quantum s = finish (withResult (quantum s) fun _ => .nothing) :=
  whileRunning_live hl fun s => withResult (quantum s) fun _ => .nothing

/-- As many quanta as the stall admits run one after another. -/
theorem runInstrs_quanta_stalled (n : Nat) {s : State} (hl : s.live) (hu : PpuUnbound s) (hn : n ≤ s.dmaStall) :
    ∃ t, runInstrs (List.replicate n .quantum) s = .next t ∧ CpuFrozen s t (3 * n) n n := by
  induction n generalizing s with
  | zero => exact ⟨s, rfl, .refl s⟩
  | succ n ih =>
    obtain ⟨t, hq, hfrozen⟩ := quantum_stalled hu (by omega)
    have hstep : exec .quantum s = .next (t.ended (some .nothing)) := by
      rw [exec_quantum_live hl, hq]
      rfl
    have hfrozen : CpuFrozen s (t.ended (some .nothing)) 3 1 1 := { hfrozen with }
    have hleft := hfrozen.dmaStall
    obtain ⟨u, hrun, hrest⟩ := ih (hfrozen.live hl) (hfrozen.unbound hu) (by omega)
    refine ⟨u, by rw [List.replicate_succ, runInstrs, hstep]; exact hrun, ?_⟩
    have h := hfrozen.trans hrest
    rwa [show 3 + 3 * n = 3 * (n + 1) by omega, Nat.add_comm 1 n] at h

/-- Settles O42: by induction on the quanta, each of which three PPU slots that touch only the PPU's side and one stall
slot make up. -/
theorem stallFreezesOnlyTheCpu : Obligations.StallFreezesOnlyTheCpu := by
  intro n s hl hb hr hw hn
  obtain ⟨t, hrun, h⟩ := runInstrs_quanta_stalled n hl ⟨hb, hr, hw⟩ hn
  exact ⟨t, hrun, (h.live hl).2, (h.live hl).1, h.dmaStall, h.stallSlots, h.cpuSteps, h.ppuSteps, h.quanta, h.dmaCount,
    h.memCpu, h.line, h.stepEvents, h.interrupts⟩

end Sys2Proof.Machine

namespace Sys2Proof.Machine

/-! ### The interrupt line (R192 to R195) -/

theorem exec_raise_live {s : State} (hl : s.live) (k : Kind) :
    exec (.raise k) s = .next ((s.raiseLine k).ended (some .nothing)) :=
  whileRunning_live hl fun s => .done .nothing (s.raiseLine k)

theorem exec_consume_live {s : State} (hl : s.live) :
    exec .consume s = .next (s.clearLine.ended (some (.taken s.line))) :=
  whileRunning_live hl fun s => .done (.taken s.line) s.clearLine

/-- The latch takes the raised kind only when it is idle (R192). -/
theorem latchRaise_eq_ite (line : Option Kind) (k : Kind) :
    latchRaise line k = if line = none then some k else line := by
  cases line <;> rfl

/-- NMI is the only kind (R37), so after its RAISE the latch holds it, whatever it held before. -/
@[simp] theorem latchRaise_nmi (line : Option Kind) : latchRaise line .nmi = some .nmi := by
  cases line with
  | none => rfl
  | some j => cases j; rfl

/-- Settles O43: the operation's effect is the latch's. -/
theorem raiseSetsIdleLine : Obligations.RaiseSetsIdleLine := fun s k hl => by
  rw [exec_raise_live hl, State.raiseLine, latchRaise_eq_ite]
  rfl

/-- Settles O44: the line is read before it is cleared. -/
theorem consumeReadsAndClears : Obligations.ConsumeReadsAndClears := fun _ hl => exec_consume_live hl

/-- A RAISE of NMI ends with the line pending, idle before or not. -/
theorem exec_raise_nmi {s : State} (hl : s.live) :
    exec (.raise .nmi) s = .next (State.ended { s with line := some .nmi } (some .nothing)) := by
  rw [exec_raise_live hl, State.raiseLine, latchRaise_nmi]

/-- One or more raises leave what one leaves (R193). -/
theorem runInstrs_raises (n : Nat) {s : State} (hl : s.live) :
    runInstrs (List.replicate (n + 1) (.raise .nmi)) s =
      .next (State.ended { s with line := some .nmi } (some .nothing)) := by
  induction n generalizing s with
  | zero => simp only [List.replicate, runInstrs, exec_raise_nmi hl]
  | succ n ih =>
    rw [List.replicate_succ, runInstrs, exec_raise_nmi hl]
    exact ih hl

/-- Settles O45: the raises leave what one leaves, the first CONSUME takes it, and the second finds an idle line. -/
theorem raisesCoalesce : Obligations.RaisesCoalesce := by
  intro n s hl _ hn
  obtain ⟨m, rfl⟩ := Nat.exists_eq_add_one.mpr hn
  exact ⟨_, _, _, runInstrs_raises m hl, rfl, exec_consume_live hl, rfl, exec_consume_live hl, rfl⟩

/-! ### A raise and its delivery in one quantum (R197, R198) -/

/-- The latch after raises of the PPU: pending once there was one. -/
def raisedLine (line : Option Kind) (acts : List Act) : Option Kind := if acts = [] then line else some .nmi

theorem raisedLine_append (line : Option Kind) (xs ys : List Act) :
    raisedLine (raisedLine line xs) ys = raisedLine line (xs ++ ys) := by
  cases xs <;> cases ys <;> simp [raisedLine]

/-- What the PPU does inside a call when it only raises. -/
theorem runActs_raises (nest : Nested) {acts : List Act} (h : ∀ x ∈ acts, x = Act.raise) (s : State) :
    runActs nest .ppu acts s = .done () { s with line := raisedLine s.line acts } := by
  induction acts generalizing s with
  | nil => rfl
  | cons act rest ih =>
    obtain ⟨rfl, hrest⟩ := List.forall_mem_cons.mp h
    have hissue : issue nest .ppu .raise s = .done () (s.raiseLine .nmi) := by simp [issue, mayIssue, perform]
    simp [runActs, hissue, andThen, ih hrest, State.raiseLine, raisedLine]

/-- The state after a scripted `PPU.step` that issued only the raises `acts`. -/
def State.ppuRaised (s : State) (acts : List Act) : State :=
  { s with
    script := s.script.tail
    line := raisedLine s.line acts
    events := s.events ++ [.ppuStep]
    ppuSteps := s.ppuSteps + 1 }

/-- The slot a state is at is the last one entered. -/
theorem atSlot_atSlot (s : State) (i j : Slot) : (s.atSlot i).atSlot j = s.atSlot j := rfl

/-- A PPU slot whose step only raises (R218). -/
theorem ppuSlot_raises {s : State} {d : Draw} {rest : List Draw} (i : Slot) (hs : s.script = d :: rest)
    (h : ∀ x ∈ d.acts, x = Act.raise) : ppuSlot (s.atSlot i) = .done () ((s.ppuRaised d.acts).atSlot i) := by
  obtain ⟨hdraw, hafter⟩ := State.afterDraw_scripted (s := s.atSlot i) hs
  have hcall : callPlain nested .ppu .ppuStep (s.atSlot i) = _ :=
    runActs_raises (nestedTo 2) (hdraw ▸ h) ((s.atSlot i).afterDraw.log .ppuStep)
  rw [ppuSlot, hcall, hdraw, hafter, State.ppuRaised, hs]
  rfl

/-- The delivery of a pending interrupt to a CPU that issues nothing inside the call (R197). -/
theorem deliver_pending {s : State} {d : Draw} {rest : List Draw} {k : Kind} (hline : s.line = some k)
    (hs : s.script = d :: rest) (hd : d.acts = []) :
    deliver s = .done () (State.log { s with script := rest, line := none } (.cpuInterrupt k)) := by
  rw [deliver, hline]
  exact callPlain_quiet (s := s.clearLine) hs hd

/-- A CPU slot that finds no stall and a pending line, for a CPU that issues nothing: the step, then the delivery
(R219). -/
theorem cpuSlot_delivers {s : State} {d e : Draw} {rest : List Draw} {k : Kind} (hstall : s.dmaStall = 0)
    (hline : s.line = some k) (hs : s.script = d :: e :: rest) (hd : d.acts = []) (he : e.acts = []) :
    cpuSlot s = .done () { s with
      script := rest
      line := none
      events := s.events ++ [.cpuStep, .cpuInterrupt k]
      cpuSteps := s.cpuSteps + 1 } := by
  have hdeliver := deliver_pending (s := (State.log { s with script := e :: rest } .cpuStep).countCpuStep) hline rfl he
  rw [cpuSlot, if_neg (by omega), callPlain_quiet hs hd]
  simpa [State.log, State.countCpuStep, counted, andThen] using hdeliver

/-- A quantum whose PPU steps only raise comes to its CPU slot with the raises of all three in the latch (R220). -/
theorem quantum_raises {s : State} {d0 d1 d2 : Draw} {rest : List Draw} (hs : s.script = d0 :: d1 :: d2 :: rest)
    (h : ∀ x ∈ d0.acts ++ d1.acts ++ d2.acts, x = Act.raise) :
    quantum s = andThen (cpuSlot (State.atSlot { s with
        script := rest
        line := raisedLine s.line (d0.acts ++ d1.acts ++ d2.acts)
        events := s.events ++ [.ppuStep, .ppuStep, .ppuStep]
        ppuSteps := s.ppuSteps + 3 } .cpu)) fun _ t => .done () t.countQuantum := by
  obtain ⟨h01, h2⟩ := List.forall_mem_append.mp h
  obtain ⟨h0, h1⟩ := List.forall_mem_append.mp h01
  have hs1 : (s.ppuRaised d0.acts).script = d1 :: d2 :: rest := congrArg List.tail hs
  have hs2 : ((s.ppuRaised d0.acts).ppuRaised d1.acts).script = d2 :: rest := congrArg List.tail hs1
  simp only [quantum, andThen, atSlot_atSlot, ppuSlot_raises .ppu0 hs h0, ppuSlot_raises .ppu1 hs1 h1,
    ppuSlot_raises .ppu2 hs2 h2]
  simp [State.ppuRaised, hs, raisedLine_append]

/-- Settles O46: the latch gathers the raises of the three PPU slots, and the CPU slot delivers it once. -/
theorem raiseDeliveredInItsQuantum : Obligations.RaiseDeliveredInItsQuantum := by
  intro s d0 d1 d2 d3 d4 rest hl hstall hs hraise hne h3 h4
  rw [exec_quantum_live hl, quantum_raises hs hraise,
    cpuSlot_delivers (by exact hstall) (by exact if_neg hne) rfl h3 h4]
  simp [withResult, andThen, finish, State.ended, State.countQuantum, State.atSlot]

end Sys2Proof.Machine

namespace Sys2Proof.Machine

/-! ### Operations that end at once (R211, R213, R214, R219) -/

/-- START in Idle with no fault. -/
theorem exec_start_inSetup {s : State} (hs : s.inSetup) :
    exec .start s = finish (leaveIdle s.hostInput.path s.afterHostInput) := by
  simp [exec, execStart, hs.1, hs.2]

/-- Settles O47: the wiring is looked at before the path is used. -/
theorem startUnwiredStops : Obligations.StartUnwiredStops := fun s hs hw => by
  rw [exec_start_inSetup hs, leaveIdle, if_pos (by rw [afterHostInput_wiredOk, hw])]
  rfl

/-- Settles O57: the stall is looked at before the CPU is called. -/
theorem stalledSlotOnlyCountsDown : Obligations.StalledSlotOnlyCountsDown := fun s hl hstall => by
  rw [exec_cpuslot_live hl, cpuSlot, if_pos hstall]
  rfl

/-- Settles O50: the poll's answer is looked at before the time is added. -/
theorem stopIsSeenFirst : Obligations.StopIsSeenFirst := fun s hl hstop => by
  rw [exec_iter_live hl, outerIteration, if_pos hstop]
  rfl

/-- The ceiling touches the budget alone. -/
theorem State.applyCeiling_eq (s : State) :
    s.applyCeiling = { s with budget := atMost s.params.budgetCeiling s.budget } := by
  rw [← State.applyCeiling_budget]
  unfold State.applyCeiling
  split
  · split <;> rfl
  · rfl

/-- An outer iteration with less than a quantum owed drains nothing. -/
theorem outerIteration_of_lt {h : HostInput} {s : State} (hstop : h.stop = false)
    (hlt : s.budget + h.elapsed < s.params.quantumNs) :
    outerIteration h s = .done (.count 0) (s.beginIter h.elapsed).applyCeiling.redraw := by
  have hfuel : (s.beginIter h.elapsed).budget / (s.beginIter h.elapsed).params.quantumNs = 0 := Nat.div_eq_of_lt hlt
  rw [outerIteration, if_neg (by simp [hstop])]
  simp only [hfuel]
  rfl

/-- Settles O51: no quantum is owed, so the ceiling and the redraw are all that is left. -/
theorem iterWithoutQuantumRedraws : Obligations.IterWithoutQuantumRedraws := fun s hl hstop hlt => by
  rw [exec_iter_live hl, outerIteration_of_lt hstop (by simpa using hlt), State.applyCeiling_eq]
  simp only [State.beginIter_params, State.afterHostInput_params, State.beginIter_budget, State.afterHostInput_budget]
  cases hc : s.params.budgetCeiling <;>
    simp [finish, State.ended, State.redraw, State.log, State.beginIter, atMost]

/-! ### Transitions of the Scheduler (R210) -/

/-- An operation of a running machine leaves the Scheduler as it was, or a fault has stopped it. -/
theorem Runs.sched {α : Type} {s : State} {f : Flow α} (h : Runs s f) :
    f.last.sched = s.sched ∨ f.last.sched = .stopped ∧ f.last.fault ≠ none := by
  cases f with
  | done a t =>
    obtain ⟨-, -, hs, -⟩ := h
    exact .inl hs
  | halted t =>
    obtain ⟨-, -, hs, f, hf, -⟩ := h
    exact .inr ⟨hs, by simp [Flow.last, hf]⟩

/-- Settles O12: by the ends an operation can have, those of START among them. -/
theorem schedulerTransitions : Obligations.SchedulerTransitions := by
  intro i s t h
  rcases exec_cases h with ⟨_, _, _, -, -, rfl | rfl⟩ | ⟨_, _, _, -, -, rfl | rfl⟩ | ⟨-, hl, rfl⟩ |
    ⟨rfl, hs, hf⟩ | ⟨rfl, hl, hstop, rfl⟩ | ⟨-, -, -, hl, f, hr, hf⟩
  case inr.inr.inl => exact .inr (.inr (.inr (.inr (.inr ⟨hl.1, rfl, by simp⟩))))
  case inr.inr.inr.inl =>
    have herror : s.cartIn.running.setupError = s.setupError := by simp [State.cartIn]
    rcases leaveIdle_next hf with ⟨hw, rfl⟩ | ⟨hw, hd, rfl⟩ | ⟨hw, hd, u, -, hu, rfl⟩ | ⟨hw, hd, u, -, hu, rfl⟩
    · exact .inr (.inr (.inl ⟨hs.1, rfl, rfl, hw, rfl⟩))
    · exact .inr (.inr (.inr (.inl ⟨hs.1, rfl, rfl, hw, hd, rfl⟩)))
    · exact .inr (.inl ⟨hs.1, rfl, hw, hd, hu.toWithin.setupError.trans herror, .inl hu.sched⟩)
    · exact .inr (.inl ⟨hs.1, rfl, hw, hd, hu.toWithin.setupError.trans herror, .inr ⟨hu.sched, hu.fault⟩⟩)
  case inr.inr.inr.inr.inl =>
    exact .inr (.inr (.inr (.inr (.inl ⟨hl.1, rfl, hstop, rfl, by simp [hl.2]⟩))))
  case inr.inr.inr.inr.inr =>
    obtain ⟨r, rfl⟩ := finish_last hf
    exact hr.sched.imp id fun h => .inr (.inr (.inr (.inr ⟨hl.1, h⟩)))
  all_goals exact .inl rfl

/-! ### ITERs that a fault halts (R213, R253) -/

theorem andThen_halted {α β : Type} {m : Flow α} {k : α → State → Flow β} {u : State} (h : andThen m k = .halted u) :
    m = .halted u ∨ ∃ a t, m = .done a t ∧ k a t = .halted u := by
  cases m with
  | done a t => exact .inr ⟨a, t, rfl, h⟩
  | halted t => exact .inl (by injection h with h; rw [h])

/-- A fault halts an outer iteration in its drain alone. -/
theorem outerIteration_halted {h : HostInput} {s t : State} (hd : outerIteration h s = .halted t) :
    drain ((s.budget + h.elapsed) / s.params.quantumNs) (s.beginIter h.elapsed) = .halted t := by
  unfold outerIteration at hd
  split at hd
  · cases hd
  · rcases andThen_halted hd with hd | ⟨_, _, -, hd⟩
    · exact hd
    · cases hd

/-- The ends of an ITER that sees no stop: done, and the machine still runs, or halted by a fault (R213, R253). -/
theorem exec_iter_next {s t : State} (hl : s.live) (hstop : s.hostInput.stop = false) (h : exec .iter s = .next t) :
    (∃ v u, outerIteration s.hostInput s.afterHostInput = .done v u ∧ t = u.ended (some v) ∧ t.live ∧
      t.params = s.params) ∨
    (∃ u, outerIteration s.hostInput s.afterHostInput = .halted u ∧ t = u.ended none ∧ t.sched = .stopped ∧
      t.fault ≠ none) := by
  have hruns := afterHostInput_runs (outerIteration_runs (s := s.afterHostInput) hstop)
  rw [exec_iter_live hl] at h
  rcases finish_next h with ⟨v, u, hd, rfl⟩ | ⟨u, hd, rfl⟩
  · rw [hd] at hruns
    obtain ⟨hkeeps, -, hsched, hfault, -⟩ := hruns
    exact .inl ⟨v, u, hd, rfl, ⟨hsched.trans hl.1, hfault.trans hl.2⟩, hkeeps.params⟩
  · rw [hd] at hruns
    obtain ⟨-, -, hsched, f, hf, -⟩ := hruns
    exact .inr ⟨u, hd, rfl, hsched, by simp [hf]⟩

/-- An ITER that leaves a fault has not seen the stop. -/
theorem exec_iter_faulted_stop {s t : State} (hl : s.live) (h : exec .iter s = .next t) (hf : t.fault ≠ none) :
    s.hostInput.stop = false := by
  by_contra hstop
  rw [exec_iter_live hl, outerIteration, if_pos (by simpa using hstop)] at h
  cases h
  exact hf (by simp [hl.2])

/-- Settles O53: the halted ITER is its halted drain, which has paid for the whole quanta. -/
theorem haltedIterKeepsWholeQuanta : Obligations.HaltedIterKeepsWholeQuanta := by
  intro s t hl h hf
  rcases exec_iter_next hl (exec_iter_faulted_stop hl h hf) h with ⟨_, _, -, -, hlive, -⟩ | ⟨u, hu, rfl, hsched, -⟩
  · exact absurd hlive.2 hf
  · obtain ⟨n, hi, hquanta, hbudget, hredraws⟩ := drain_halted (outerIteration_halted hu)
    exact ⟨n, by simpa using hi, by simpa using hquanta, by simpa using hbudget, by simpa using hredraws, rfl, hsched⟩

end Sys2Proof.Machine

namespace Sys2Proof.Machine

/-! ### ITERs one after another (R222, R225) -/

/-- An operation that has a step finds no fault. -/
theorem exec_next_fault {i : Instr} {s t : State} (h : exec i s = .next t) : s.fault = none := by
  rcases exec_cases h with ⟨_, _, _, -, hs, -⟩ | ⟨_, _, _, -, hs, -⟩ | ⟨-, hs, -⟩ | ⟨-, hs, -⟩ | ⟨-, hs, -⟩ |
    ⟨-, -, -, hs, -⟩
  all_goals exact hs.2

/-- A run that leaves no fault began with none. -/
theorem runInstrs_next_fault {l : List Instr} {s t : State} (h : runInstrs l s = .next t) (ht : t.fault = none) :
    s.fault = none := by
  cases l with
  | nil => cases h; exact ht
  | cons i rest =>
    rw [runInstrs] at h
    cases hi : exec i s with
    | next u => exact exec_next_fault hi
    | fault f => cases f
    | refused r => rw [hi] at h; cases h

/-- A run that leaves no fault runs its first operation to a state without one, and then the rest. -/
theorem runInstrs_cons_next {i : Instr} {rest : List Instr} {s t : State} (h : runInstrs (i :: rest) s = .next t)
    (ht : t.fault = none) : ∃ u, exec i s = .next u ∧ u.fault = none ∧ runInstrs rest u = .next t := by
  rw [runInstrs] at h
  cases hi : exec i s with
  | next u =>
    rw [hi] at h
    exact ⟨u, rfl, runInstrs_next_fault h ht, h⟩
  | fault f => cases f
  | refused r => rw [hi] at h; cases h

/-- An ITER that sees no stop and that no fault halts leaves the machine running, and ran the quanta owed up to the
cap. -/
theorem exec_iter_ran {s t : State} (hl : s.live) (hq : 0 < s.params.quantumNs) (hstop : s.hostInput.stop = false)
    (h : exec .iter s = .next t) (ht : t.fault = none) :
    t.live ∧ t.params = s.params ∧
      RanQuanta s.hostInput.elapsed (atMost s.params.maxQuanta ((s.budget + s.hostInput.elapsed) / s.params.quantumNs))
        s.afterHostInput t := by
  rcases exec_iter_next hl hstop h with ⟨v, u, hd, rfl, hlive, hparams⟩ | ⟨_, -, -, -, hf⟩
  · obtain ⟨n, hn, -, hran⟩ := outerIteration_done hstop (by simpa using hq) hd
    simp only [State.afterHostInput_params, State.afterHostInput_budget] at hn
    exact ⟨hlive, hparams, hn ▸ { hran with }⟩
  · exact absurd ht hf

/-- What the premises of R225 ask of one ITER `h` that follows a total time of `b`: it hits neither the cap nor the
ceiling. -/
structure Unhindered (p : Params) (b : Nat) (h : HostInput) : Prop where
  cap : ∀ m, p.maxQuanta = some m → (b % p.quantumNs + h.elapsed) / p.quantumNs ≤ m
  ceiling : ∀ c, p.budgetCeiling = some c → (b + h.elapsed) % p.quantumNs ≤ c

/-- Of the time before an ITER its premises read the remainder alone. -/
theorem Unhindered.of_mod {p : Params} {b x : Nat} {h : HostInput} (hu : Unhindered p (b + x) h) :
    Unhindered p (b % p.quantumNs + x) h where
  cap m hm := by simpa using hu.cap m hm
  ceiling c hc := by simpa [Nat.add_assoc] using hu.ceiling c hc

theorem atMost_of_le {bound : Option Nat} {n : Nat} (h : ∀ b, bound = some b → n ≤ b) : atMost bound n = n := by
  cases bound with
  | none => rfl
  | some b => exact Nat.min_eq_left (h b rfl)

/-- An unhindered ITER runs the quanta owed and leaves the remainder. -/
theorem exec_iter_unhindered {s t : State} {x : HostInput} {rest : List HostInput} (hl : s.live)
    (hb : s.budget < s.params.quantumNs) (hi : s.hostInputs = x :: rest) (hstop : x.stop = false)
    (hu : Unhindered s.params s.budget x) (h : exec .iter s = .next t) (ht : t.fault = none) :
    t.live ∧ t.params = s.params ∧ t.hostInputs = rest ∧ t.redraws = s.redraws + 1 ∧
      t.quanta = s.quanta + (s.budget + x.elapsed) / s.params.quantumNs ∧
      t.budget = (s.budget + x.elapsed) % s.params.quantumNs := by
  obtain ⟨hx, hafter⟩ := State.afterHostInput_scripted hi
  obtain ⟨hlive, hparams, hran⟩ := exec_iter_ran hl (by omega) (hx ▸ hstop) h ht
  have hcap := hu.cap
  rw [Nat.mod_eq_of_lt hb] at hcap
  rw [hx, hafter, atMost_of_le hcap] at hran
  have hbudget := hran.budget
  simp only [← Nat.mod_eq_sub_div_mul] at hbudget
  rw [atMost_of_le hu.ceiling] at hbudget
  exact ⟨hlive, hparams, hran.hostInputs, hran.redraws, hran.quanta, hbudget⟩

/-- ITERs none of which is hindered absorb the split of the time among them: what one leaves over, the next has. -/
theorem runInstrs_iters {hs rest : List HostInput} {s t : State} (hl : s.live) (hb : s.budget < s.params.quantumNs)
    (hi : s.hostInputs = hs ++ rest) (hstop : ∀ h ∈ hs, h.stop = false)
    (hu : ∀ pre h post, hs = pre ++ h :: post → Unhindered s.params (s.budget + (pre.map (·.elapsed)).sum) h)
    (hrun : runInstrs (List.replicate hs.length .iter) s = .next t) (ht : t.fault = none) :
    t.quanta = s.quanta + (s.budget + (hs.map (·.elapsed)).sum) / s.params.quantumNs ∧
      t.budget = (s.budget + (hs.map (·.elapsed)).sum) % s.params.quantumNs ∧ t.hostInputs = rest ∧
      t.redraws = s.redraws + hs.length := by
  induction hs generalizing s with
  | nil =>
    cases hrun
    simp [Nat.div_eq_of_lt hb, Nat.mod_eq_of_lt hb, hi]
  | cons x hs ih =>
    obtain ⟨u, hstep, huf, hrun⟩ := runInstrs_cons_next hrun ht
    have hfirst : Unhindered s.params s.budget x := by simpa using hu [] x hs rfl
    obtain ⟨hlive, hparams, hinputs, hredraws, hquanta, hbudget⟩ :=
      exec_iter_unhindered hl hb hi (hstop x (by simp)) hfirst hstep huf
    have hpos : 0 < s.params.quantumNs := by omega
    have hrest : ∀ pre h post, hs = pre ++ h :: post →
        Unhindered u.params (u.budget + (pre.map (·.elapsed)).sum) h := fun pre h post hsplit => by
      rw [hparams, hbudget]
      exact Unhindered.of_mod (by simpa [Nat.add_assoc] using hu (x :: pre) h post (by rw [hsplit]; rfl))
    obtain ⟨hq, hbu, hin, hr⟩ := ih hlive (by rw [hbudget, hparams]; exact Nat.mod_lt _ hpos) hinputs
      (fun h hm => hstop h (by simp [hm])) hrest hrun
    rw [hparams, hbudget] at hq hbu
    have hsplit := Nat.div_add_mod (s.budget + x.elapsed) s.params.quantumNs
    refine ⟨?_, ?_, hin, by rw [hr, hredraws, List.length_cons]; omega⟩
    · rw [hq, hquanta, List.map_cons, List.sum_cons, ← Nat.add_assoc s.budget]
      conv_rhs => rw [← hsplit, Nat.add_assoc, Nat.mul_add_div hpos]
      omega
    · simpa [Nat.add_assoc] using hbu

/-- Settles O54: by induction on the ITERs, whose remainders carry over. -/
theorem itersAbsorbJitter : Obligations.ItersAbsorbJitter := by
  intro hs rest s t hl _ hb hi hstop hcap hceiling hrun ht
  exact runInstrs_iters hl hb hi hstop
    (fun pre h post hsplit => ⟨fun m hm => hcap m pre h post hm hsplit, fun c hc => hceiling c pre h post hc hsplit⟩)
    hrun ht

end Sys2Proof.Machine

namespace Sys2Proof.Machine

/-! ### The slots (R218, R219) -/

theorem exec_ppuslot_live {s : State} (hl : s.live) :
    exec .ppuslot s = finish (withResult (ppuSlot s) fun _ => .nothing) :=
  whileRunning_live hl fun s => withResult (ppuSlot s) fun _ => .nothing

/-- A call of a running machine, from the host's own run of what its collaborator issues; the two fields that no
operation reads may differ. -/
theorem scriptedCall_issued {ag : Agent} {e : Event} {s t : State} {d : Draw} {rest : List Draw} {xs ys : List Act}
    (hl : s.live) (hs : s.script = d :: rest) (hd : d.acts = xs ++ ys) (hi : ∀ act ∈ xs, issuedBy ag act)
    (h : runInstrs (xs.map actInstr) { s with script := rest, events := s.events ++ [e] } = .next t) (p : Phase)
    (r : Option Result) :
    (ys = [] → t.fault = none → callPlain nested ag e (s.marked p r) = .done () (t.marked p r)) ∧
      (t.fault ≠ none → callPlain nested ag e (s.marked p r) = .halted (t.marked p r)) := by
  obtain ⟨hdraw, hafter⟩ := State.afterDraw_scripted (s := s.marked p r) hs
  exact callPlain_issued (s := s.marked p r) (p := s.phase) (r := s.result) hl (hdraw ▸ hd) hi (by rw [hafter]; exact h)

/-- Settles O55: the slot is its call, which ends as the host's own run of what the PPU issues, and then its count. -/
theorem ppuSlotStepsThePpu : Obligations.PpuSlotStepsThePpu := by
  refine ⟨fun s d rest hl hs hd => ?_, fun s t d rest xs ys hl hs hd hi hrun => ?_⟩
  · rw [exec_ppuslot_live hl, ppuSlot, callPlain_quiet hs hd]
    rfl
  · obtain ⟨hdone, hhalt⟩ := scriptedCall_issued (ag := .ppu) hl hs hd hi hrun s.phase s.result
    rw [marked_self] at hdone hhalt
    rw [exec_ppuslot_live hl, ppuSlot]
    refine ⟨fun hy hf => by rw [hdone hy hf]; rfl, fun hf => ?_⟩
    rw [hhalt hf]
    cases Config.countsHaltedPpuStep <;> rfl

/-- A slot begun at another phase, or after another result, ends as the same operation. -/
theorem Blind.finish_withResult {α : Type} {f : State → Flow α} (hb : Blind f) (s : State) (p : Phase)
    (r : Option Result) (k : α → Result) :
    finish (withResult (f (s.marked p r)) k) = finish (withResult (f s) k) := by
  rw [hb p r s]
  cases f s <;> rfl

/-- Settles O56: with nothing bound in its space the PPU's step is done, and reaches only its own side and the latch. -/
theorem ppuSlotLeavesTheCpuSpace : Obligations.PpuSlotLeavesTheCpuSpace := by
  intro s hl hb hr hw
  obtain ⟨t, ht, h⟩ := ppuSlot_unbound ⟨hb, hr, hw⟩ .ppu0
  have hexec : exec .ppuslot s = finish (withResult (ppuSlot (s.atSlot .ppu0)) fun _ => .nothing) :=
    (exec_ppuslot_live hl).trans (ppuSlot_blind.finish_withResult s _ s.result _).symm
  rw [ht] at hexec
  exact ⟨_, hexec, (h.live hl).2, (h.live hl).1, h.memCpu, h.dmaStall, h.dmaCount, h.ppuSteps, h.line⟩

/-- An idle line has nothing to deliver, and CONSUME leaves it idle (R194, R197). -/
theorem deliver_idle {s : State} (h : s.line = none) : deliver s = .done () s := by
  rw [deliver, h]
  simp only [State.clearLine, ← h]

/-- A pending line is consumed and the CPU told (R197). -/
theorem deliver_of_line {s : State} {k : Kind} (h : s.line = some k) :
    deliver s = callPlain nested .cpu (.cpuInterrupt k) s.clearLine := by
  rw [deliver, h]

section
variable {s : State} (hz : s.dmaStall = 0)
include hz

/-- A CPU slot that finds no stall delivers once its step is done and counted (R219). -/
theorem cpuSlot_of_step_done {t : State} (h : callPlain nested .cpu .cpuStep s = .done () t) :
    cpuSlot s = deliver t.countCpuStep := by
  rw [cpuSlot, if_neg (by omega), h]
  rfl

/-- A CPU slot that finds no stall ends in the step that a fault halts, counted (log entry 18). -/
theorem cpuSlot_of_step_halted {t : State} (h : callPlain nested .cpu .cpuStep s = .halted t) :
    cpuSlot s = .halted t.countCpuStep := by
  rw [cpuSlot, if_neg (by omega), h]
  rfl

/-- A CPU slot that finds no stall and an idle line, for a CPU that issues nothing (R219). -/
theorem cpuSlot_quiet {d : Draw} {rest : List Draw} (hline : s.line = none) (hs : s.script = d :: rest)
    (hd : d.acts = []) : cpuSlot s = .done () (State.log { s with script := rest } .cpuStep).countCpuStep := by
  rw [cpuSlot_of_step_done hz (callPlain_quiet hs hd)]
  exact deliver_idle hline

end

/-- Settles O58: the slot is its step and then its delivery, each a call that ends as the host's own run of what the CPU
issues. -/
theorem cpuSlotStepsAndDelivers : Obligations.CpuSlotStepsAndDelivers := by
  refine ⟨fun s d e rest hl hz hd he => ⟨fun hline hs => ?_, fun k hline hs => ?_⟩,
    fun s t d rest xs ys hl hz hs hd hi hrun => ?_⟩
  · rw [exec_cpuslot_live hl, cpuSlot_quiet hz hline hs hd]
    rfl
  · rw [exec_cpuslot_live hl, cpuSlot_delivers hz hline hs hd he]
    rfl
  · obtain ⟨hdone, hhalt⟩ := scriptedCall_issued (ag := .cpu) hl hs hd hi hrun s.phase s.result
    rw [marked_self] at hdone hhalt
    have hslot (hy : ys = []) (hf : t.fault = none) : cpuSlot s = deliver (t.countCpuStep.marked s.phase s.result) :=
      cpuSlot_of_step_done hz (hdone hy hf)
    rw [exec_cpuslot_live hl]
    refine ⟨fun hy hf hline => ?_, fun k e rest' zs more u hy hf hline hs' he hzs hrun' => ?_, fun hf => ?_⟩
    · rw [hslot hy hf, deliver_idle (by exact hline)]
      rfl
    · have hcall : cpuSlot s =
          callPlain nested .cpu (.cpuInterrupt k) (t.countCpuStep.clearLine.marked s.phase s.result) :=
        (hslot hy hf).trans (deliver_of_line (s := t.countCpuStep.marked s.phase s.result) hline)
      have hstep := cpuStep_obeys s
      rw [hdone hy hf] at hstep
      have hlive : t.countCpuStep.clearLine.live := ⟨hstep.sched.trans (by simp [cpuSlotStart, hl.1]), hf⟩
      obtain ⟨kdone, khalt⟩ := scriptedCall_issued (s := t.countCpuStep.clearLine) (ag := .cpu) hlive hs' he hzs hrun'
        s.phase s.result
      rw [hcall]
      exact ⟨fun hm hu => by rw [kdone hm hu]; rfl, fun hu => by rw [khalt hu]; rfl⟩
    · rw [cpuSlot_of_step_halted hz (hhalt hf)]
      rfl

end Sys2Proof.Machine

namespace Sys2Proof.Machine

/-! ### A quantum as its slots (R220, R221) -/

theorem raisedLine_nil (line : Option Kind) : raisedLine line [] = line := if_pos rfl

/-- A quantum whose PPU steps issue nothing comes to its CPU slot with three of them logged and counted. -/
theorem quantum_quiet {s : State} {d0 d1 d2 : Draw} {rest : List Draw} (hs : s.script = d0 :: d1 :: d2 :: rest)
    (h0 : d0.acts = []) (h1 : d1.acts = []) (h2 : d2.acts = []) :
    quantum s = andThen (cpuSlot (State.atSlot { s with
        script := rest
        events := s.events ++ [.ppuStep, .ppuStep, .ppuStep]
        ppuSteps := s.ppuSteps + 3 } .cpu)) fun _ t => .done () t.countQuantum := by
  rw [quantum_raises hs (by simp [h0, h1, h2])]
  simp only [h0, h1, h2, List.append_nil, raisedLine_nil]

/-- A slot that the host runs and no fault halts is done from any mark, in the state the host sees but for the marks. -/
theorem Blind.done_of_finish {f : State → Flow Unit} (hb : Blind f) {s t : State} (hr : Runs s (f s))
    (h : finish (withResult (f s) fun _ => .nothing) = .next t) (ht : t.fault = none) :
    t = t.ended (some .nothing) ∧ ∀ p r, f (s.marked p r) = .done () (t.marked p r) := by
  cases hf : f s with
  | halted u =>
    rw [hf] at h hr
    obtain ⟨-, -, -, e, he, -⟩ := hr
    cases h
    exact absurd (he.symm.trans ht) nofun
  | done _ u =>
    rw [hf] at h
    cases h
    exact ⟨rfl, fun p r => by rw [hb, hf]; rfl⟩

/-- A lone PPU slot that no fault halts, as the same slot at any mark. -/
theorem ppuSlot_of_exec {s t : State} (h : exec .ppuslot s = .next t) (ht : t.fault = none) (p : Phase)
    (r : Option Result) : ppuSlot (s.marked p r) = .done () (t.marked p r) := by
  rw [exec, execPpuslot] at h
  exact (ppuSlot_blind.done_of_finish (ppuSlot_runs s) (whileRunning_next h).2 ht).2 p r

/-- A lone CPU slot that no fault halts, as the same slot at any mark. -/
theorem cpuSlot_of_exec {s t : State} (h : exec .cpuslot s = .next t) (ht : t.fault = none) :
    t = t.ended (some .nothing) ∧ ∀ p r, cpuSlot (s.marked p r) = .done () (t.marked p r) := by
  rw [exec, execCpuslot] at h
  exact cpuSlot_blind.done_of_finish (cpuSlot_runs s) (whileRunning_next h).2 ht

theorem atSlot_marked (s : State) (p : Phase) (r : Option Result) (i : Slot) :
    (s.marked p r).atSlot i = s.marked (.slot s.quantaThisIter i) r := rfl

/-- The host's three PPUSLOT and one CPUSLOT, none halted by a fault, are the slots of a quantum (R220). -/
theorem quantum_of_slots {s t : State}
    (h : runInstrs [.ppuslot, .ppuslot, .ppuslot, .cpuslot] s = .next t) (ht : t.fault = none) :
    t = t.ended (some .nothing) ∧ ∃ p r, quantum s = .done () (t.marked p r).countQuantum := by
  obtain ⟨t₁, h₁, f₁, h⟩ := runInstrs_cons_next h ht
  obtain ⟨t₂, h₂, f₂, h⟩ := runInstrs_cons_next h ht
  obtain ⟨t₃, h₃, f₃, h⟩ := runInstrs_cons_next h ht
  obtain ⟨t₄, h₄, f₄, h⟩ := runInstrs_cons_next h ht
  cases h
  obtain ⟨hend, hcpu⟩ := cpuSlot_of_exec h₄ f₄
  refine ⟨hend, .slot t₃.quantaThisIter .cpu, s.result, ?_⟩
  rw [← marked_self s]
  simp only [quantum, andThen, atSlot_marked, ppuSlot_of_exec h₁ f₁, ppuSlot_of_exec h₂ f₂, ppuSlot_of_exec h₃ f₃, hcpu]
  rfl

/-- Settles O59: the three quiet cases by what the CPU slot finds, and any other as the host's own slots. -/
theorem quantumInterleaves : Obligations.QuantumInterleaves := by
  refine ⟨fun s d0 d1 d2 rest hl h0 h1 h2 => ⟨fun hstall hs => ?_, fun d3 rest' hz hline h3 hs => ?_,
    fun d3 d4 rest' k hz hline h3 h4 hs => ?_⟩, fun s t hl hrun ht => ?_⟩
  · rw [exec_quantum_live hl, quantum_quiet hs h0 h1 h2, cpuSlot, if_pos (by exact hstall)]
    rfl
  · rw [exec_quantum_live hl, quantum_quiet hs h0 h1 h2, cpuSlot_quiet (by exact hz) (by exact hline) rfl h3]
    simp [withResult, andThen, finish, State.ended, State.countQuantum, State.countCpuStep, State.log, State.atSlot]
  · rw [exec_quantum_live hl, quantum_quiet hs h0 h1 h2, cpuSlot_delivers (by exact hz) (by exact hline) rfl h3 h4]
    simp [withResult, andThen, finish, State.ended, State.countQuantum, State.atSlot]
  · obtain ⟨hend, p, r, hq⟩ := quantum_of_slots hrun ht
    rw [exec_quantum_live hl, hq]
    conv_rhs => rw [hend]
    rfl

/-! ### The 3:1 accounting (R221) -/

/-- An inner operation begun in `s` that keeps the accounting, unless a fault halts it. -/
def KeepsRatio {α : Type} (s : State) : Flow α → Prop
  | .done _ t => s.ratioHolds → t.ratioHolds
  | .halted t => t.fault ≠ none

theorem KeepsRatio.andThen {α β : Type} {s : State} {m : Flow α} {k : α → State → Flow β} (h : KeepsRatio s m)
    (hk : ∀ a t, KeepsRatio t (k a t)) : KeepsRatio s (andThen m k) := by
  cases m with
  | halted t => exact h
  | done a t =>
    have hrest := hk a t
    change KeepsRatio s (k a t)
    cases hf : k a t with
    | halted u => rwa [hf] at hrest
    | done b u =>
      rw [hf] at hrest
      exact fun hs => hrest (h hs)

theorem KeepsRatio.withResult {α : Type} {s : State} {f : Flow α} (h : KeepsRatio s f) (r : α → Result) :
    KeepsRatio s (withResult f r) :=
  h.andThen fun _ _ => id

/-- What is nested in a call makes no step, no stall slot and no quantum. -/
theorem Within.ratioHolds {s t : State} (h : Within s t) (hs : s.ratioHolds) : t.ratioHolds := by
  simpa only [State.ratioHolds, h.ppuSteps, h.cpuSteps, h.stallSlots, h.quanta] using hs

theorem Obeys.keepsRatio {α : Type} {s : State} {f : Flow α} (h : Obeys s f) : KeepsRatio s f := by
  cases f with
  | done a t => exact h.toWithin.ratioHolds
  | halted t => exact h.fault

/-- A quantum makes three PPU steps and one CPU slot, and is counted (R220). -/
theorem quantum_keepsRatio (s : State) : KeepsRatio s (quantum s) := by
  have hruns := quantum_runs s
  cases hq : quantum s with
  | halted t =>
    rw [hq] at hruns
    obtain ⟨-, -, -, f, hf, -⟩ := hruns
    simp [KeepsRatio, hf]
  | done _ t =>
    obtain ⟨u, ⟨hppu, hcpu, hquanta, -⟩, rfl⟩ := quantum_done hq
    rintro ⟨h1, h2⟩
    exact ⟨by simp only [State.countQuantum_ppuSteps, State.countQuantum_quanta]; omega,
      by simp only [State.countQuantum_cpuSteps, State.countQuantum_stallSlots, State.countQuantum_quanta]; omega⟩

/-- The drain loop is a run of quanta (R216). -/
theorem drain_keepsRatio (fuel : Nat) (s : State) : KeepsRatio s (drain fuel s) := by
  induction fuel generalizing s with
  | zero => exact id
  | succ fuel ih =>
    unfold drain
    split
    · exact (quantum_keepsRatio s).andThen fun _ t => ih t.charged
    · exact id

theorem outerIteration_keepsRatio (h : HostInput) (s : State) : KeepsRatio s (outerIteration h s) := by
  unfold outerIteration
  split
  · exact id
  · exact KeepsRatio.andThen (s := s.beginIter h.elapsed) (drain_keepsRatio _ _) fun _ u hu => by
      simpa [State.ratioHolds] using hu

/-- An operation that no fault halts keeps the accounting if its effect does. -/
theorem KeepsRatio.of_finish {f : Flow Result} {s t : State} (hk : KeepsRatio s f) (hs : s.ratioHolds)
    (h : finish f = .next t) (ht : t.fault = none) : t.ratioHolds := by
  rcases finish_next h with ⟨v, u, rfl, rfl⟩ | ⟨u, rfl, rfl⟩
  · exact hk hs
  · exact absurd ht hk

/-- START counts nothing, in each of its four ends. -/
theorem exec_start_ratioHolds {s t : State} (h : exec .start s = .next t) (hs : s.ratioHolds) : t.ratioHolds := by
  have hentered : s.cartIn.running.ratioHolds := by simpa [State.cartIn, State.ratioHolds] using hs
  rcases leaveIdle_next (exec_start_next h).2 with ⟨-, rfl⟩ | ⟨-, -, rfl⟩ | ⟨-, -, u, -, hu, rfl⟩ |
    ⟨-, -, u, -, hu, rfl⟩
  · simpa [State.ratioHolds] using hs
  · simpa [State.ratioHolds] using hs
  · exact hu.toWithin.ratioHolds hentered
  · exact hu.toWithin.ratioHolds hentered

/-- An operation of a running machine, but for registration and a lone slot, keeps the accounting unless a fault halts
it. -/
theorem exec_live_ratioHolds {i : Instr} {s t : State} (hregr : ∀ sp a ch, i ≠ .regr sp a ch)
    (hregw : ∀ sp a ch, i ≠ .regw sp a ch) (hstart : i ≠ .start) (hppu : i ≠ .ppuslot) (hcpu : i ≠ .cpuslot)
    (hl : s.live) (hs : s.ratioHolds) (h : exec i s = .next t) (ht : t.fault = none) : t.ratioHolds := by
  cases i with
  | regr sp a ch => exact absurd rfl (hregr sp a ch)
  | regw sp a ch => exact absurd rfl (hregw sp a ch)
  | start => exact absurd rfl hstart
  | ppuslot => exact absurd rfl hppu
  | cpuslot => exact absurd rfl hcpu
  | raise k =>
    rw [exec_raise_live hl] at h
    cases h
    exact hs
  | consume =>
    rw [exec_consume_live hl] at h
    cases h
    exact hs
  | rd sp a =>
    rw [exec_rd_live hl] at h
    exact ((dispatchRead_obeys nested_obeys sp a s).keepsRatio.withResult _).of_finish hs h ht
  | wr sp a v =>
    rw [exec_wr_live hl] at h
    exact ((dispatchWrite_obeys nested_obeys sp a v s).keepsRatio.withResult _).of_finish hs h ht
  | page p =>
    rw [exec_page_live hl] at h
    exact ((pageView_obeys p s).keepsRatio.withResult _).of_finish hs h ht
  | dmax p =>
    rw [exec_dmax_live hl] at h
    exact ((dmaTransfer_obeys nested_obeys p s).keepsRatio.withResult _).of_finish hs h ht
  | quantum =>
    rw [exec_quantum_live hl] at h
    exact ((quantum_keepsRatio s).withResult _).of_finish hs h ht
  | iter =>
    rw [exec_iter_live hl] at h
    exact (outerIteration_keepsRatio _ _).of_finish (by simpa [State.ratioHolds] using hs) h ht

/-- Settles O60: nothing but a quantum steps the processors, and a quantum takes three steps and one CPU slot. -/
theorem ratioHoldsAtQuantumBoundaries : Obligations.RatioHoldsAtQuantumBoundaries := by
  intro i s t hppu hcpu hs h ht
  rcases exec_cases h with ⟨_, _, _, -, -, rfl | rfl⟩ | ⟨_, _, _, -, -, rfl | rfl⟩ | ⟨-, -, rfl⟩ |
    ⟨rfl, -, -⟩ | ⟨-, -, -, rfl⟩ | ⟨hregr, hregw, hstart, hl, -⟩
  case inr.inr.inl => cases ht
  case inr.inr.inr.inl => exact exec_start_ratioHolds h hs
  case inr.inr.inr.inr.inr => exact exec_live_ratioHolds hregr hregw hstart hppu hcpu hl hs h ht
  all_goals simpa [State.ratioHolds] using hs

end Sys2Proof.Machine

namespace Sys2Proof.Machine

/-! ### What a fault leaves, and where it comes from (R252, R253) -/

/-- `f` halted, inside a dispatch or a page view, an operation begun under the parameters of `s`: the Scheduler is
Stopped, nothing is returned (R253), and the state it left shows a cause that R252 lists. -/
structure HaltedBy (f : RunFault) (s t : State) : Prop where
  sched : t.sched = .stopped
  result : t.result = none
  params : t.params = s.params
  listed : Listed t f

/-- What shows a listed cause outlasts the end of the operation. -/
theorem Listed.ended {t : State} {f : RunFault} (h : Listed t f) (r : Option Result) : Listed (t.ended r) f := by
  cases f <;> exact h

/-- An operation that runs without a fault and leaves one was halted by it. -/
theorem Runs.haltedBy {e : Flow Result} {s t : State} {f : RunFault} (h : Runs s e) (hs : s.fault = none)
    (he : finish e = .next t) (ht : t.fault = some f) : HaltedBy f s t := by
  rcases finish_next he with ⟨v, u, rfl, rfl⟩ | ⟨u, rfl, rfl⟩
  · obtain ⟨-, -, -, hfault, -⟩ := h
    have hnone : u.fault = none := hfault.trans hs
    exact absurd (hnone.symm.trans ht) nofun
  · obtain ⟨hkeeps, -, hsched, g, hg, hlisted⟩ := h
    obtain rfl : g = f := Option.some.inj (hg.symm.trans ht)
    exact ⟨hsched, rfl, hkeeps.params, hlisted.ended none⟩

/-- START can fault in the resets of EnterRunning alone (R211, R212). -/
theorem exec_start_haltedBy {s t : State} {f : RunFault} (h : exec .start s = .next t) (hs : s.fault = none)
    (ht : t.fault = some f) : HaltedBy f s t := by
  obtain ⟨hsetup, hleave⟩ := exec_start_next h
  have entered (hw : s.wiredOk = true) (hd : s.nextDraw.ok = true) : HaltedBy f s t := by
    rw [exec_start_loads hsetup hw hd] at h
    have hhalt := ((enterRunning_obeys s.cartIn).runs.withResult _).haltedBy (cartIn_running_live hsetup).2 h ht
    exact { hhalt with params := hhalt.params.trans (by simp [State.cartIn]) }
  rcases leaveIdle_next hleave with ⟨-, rfl⟩ | ⟨-, -, rfl⟩ | ⟨hw, hd, -⟩ | ⟨hw, hd, -⟩
  · simp [hs] at ht
  · simp [hs] at ht
  · exact entered hw hd
  · exact entered hw hd

/-- An operation leaves a fault as a registration while Running, or by being halted where R252 lists it. -/
theorem exec_faulted {i : Instr} {s t : State} {f : RunFault} (h : exec i s = .next t) (hs : s.fault = none)
    (ht : t.fault = some f) :
    ((∃ sp a ch, i = .regr sp a ch ∨ i = .regw sp a ch) ∧ s.live ∧ f = .lateRegistration (encode i) ∧
      t = (s.enterFault f).ended none) ∨ HaltedBy f s t := by
  rcases exec_cases h with ⟨_, _, _, -, -, rfl | rfl⟩ | ⟨_, _, _, -, -, rfl | rfl⟩ | ⟨hreg, hl, rfl⟩ |
    ⟨rfl, -, -⟩ | ⟨-, -, -, rfl⟩ | ⟨-, -, -, -, e, hr, he⟩
  case inr.inr.inl =>
    obtain rfl : .lateRegistration (encode i) = f := Option.some.inj ht
    exact .inl ⟨hreg, hl, rfl, rfl⟩
  case inr.inr.inr.inl => exact .inr (exec_start_haltedBy h hs ht)
  case inr.inr.inr.inr.inr => exact .inr (hr.haltedBy hs he ht)
  all_goals simp [hs] at ht

/-- The window test of a page reads the parameters alone (R8, R140). -/
theorem pageMeetsWindow_congr {s t : State} (h : t.params = s.params) (p : Byte) :
    t.pageMeetsWindow p = s.pageMeetsWindow p := by
  simp only [State.pageMeetsWindow, State.inWindow, h]

/-- Settles O13: a late registration enters its fault itself; any other fault halted the operation, where the state left
shows the busy space or, the parameters being kept, the unbound page. -/
theorem faultsAriseOnlyWhereListed : Obligations.FaultsAriseOnlyWhereListed := by
  intro i s t f h hs ht
  rcases exec_faulted h hs ht with ⟨hreg, hl, rfl, rfl⟩ | ⟨hsched, hresult, hparams, hlisted⟩
  · exact ⟨rfl, rfl, hl.1, rfl, hreg⟩
  · refine ⟨hsched, hresult, ?_⟩
    cases f with
    | lateRegistration w => exact hlisted.elim
    | reentrantDispatch w => exact hlisted
    | dmaPageUnbound p =>
      obtain ⟨hpolicy, hmeets⟩ := hlisted
      exact ⟨hparams ▸ hpolicy, (pageMeetsWindow_iff s p).mp (pageMeetsWindow_congr hparams p ▸ hmeets)⟩

end Sys2Proof.Machine

namespace Sys2Proof.Machine

/-! ### The interceptor maps and the parameters (R46, R292, R300) -/

/-- Neither the interceptor maps nor the parameters differ. -/
structure SameBindings (s t : State) : Prop where
  params : t.params = s.params
  rdMap : t.rdMap = s.rdMap
  wrMap : t.wrMap = s.wrMap

theorem Keeps.sameBindings {s t : State} (k : Keeps s t) : SameBindings s t := ⟨k.params, k.rdMap, k.wrMap⟩

theorem SameBindings.trans {s t u : State} (h : SameBindings s t) (k : SameBindings t u) : SameBindings s u :=
  ⟨k.params.trans h.params, k.rdMap.trans h.rdMap, k.wrMap.trans h.wrMap⟩

/-- START binds nothing in each of its four ends, the resets that halt included (R211, R212). -/
theorem leaveIdle_sameBindings {s t : State}
    (h : finish (leaveIdle s.hostInput.path s.afterHostInput) = .next t) : SameBindings s t := by
  have load (ok : Bool) := (loadAttempt_runs s.hostInput.path ok s).keeps.sameBindings
  have entered {u : State} (hu : Within s.cartIn.running u) : SameBindings s u :=
    (load true).trans { hu.keeps.sameBindings with }
  rcases leaveIdle_next h with ⟨-, rfl⟩ | ⟨-, -, rfl⟩ | ⟨-, -, u, -, hu, rfl⟩ | ⟨-, -, u, -, hu, rfl⟩
  · exact { (takeInput_runs s).keeps.sameBindings with }
  · exact { load false with }
  · exact { entered hu.toWithin with }
  · exact { entered hu.toWithin with }

/-- An operation changes no binding, unless it is a REGR or a REGW in Idle that succeeds. -/
theorem exec_bindings {i : Instr} {s t : State} (h : exec i s = .next t) :
    SameBindings s t ∨
    (∃ sp a ch, i = .regr sp a (.read ch) ∧ s.inSetup ∧ t = (s.bindRead sp a ch).ended (some (.registered true))) ∨
    (∃ sp a ch, i = .regw sp a (.write ch) ∧ s.inSetup ∧ t = (s.bindWrite sp a ch).ended (some (.registered true))) := by
  rcases exec_cases h with ⟨sp, a, ch, hi, hs, rfl | rfl⟩ | ⟨sp, a, ch, hi, hs, rfl | rfl⟩ | ⟨-, -, rfl⟩ |
    ⟨-, -, hf⟩ | ⟨-, -, -, rfl⟩ | ⟨-, -, -, -, f, hr, hf⟩
  · exact .inl ⟨rfl, rfl, rfl⟩
  · exact .inr (.inl ⟨sp, a, ch, hi, hs, rfl⟩)
  · exact .inl ⟨rfl, rfl, rfl⟩
  · exact .inr (.inr ⟨sp, a, ch, hi, hs, rfl⟩)
  · exact .inl ⟨rfl, rfl, rfl⟩
  · exact .inl (leaveIdle_sameBindings hf)
  · exact .inl { (takeInput_runs s).keeps.sameBindings with }
  · obtain ⟨r, rfl⟩ := finish_last hf
    exact .inl { hr.keeps.sameBindings with }

/-- Settles O15: an operation that changes a binding is a REGR or a REGW in Idle, and each writes its own map alone. -/
theorem bindingsChangeOnlyDuringSetup : Obligations.BindingsChangeOnlyDuringSetup := by
  intro i s t h
  rcases exec_bindings h with ⟨hp, hr, hw⟩ | ⟨sp, a, ch, rfl, hs, rfl⟩ | ⟨sp, a, ch, rfl, hs, rfl⟩
  · exact ⟨hp, fun _ => ⟨hr, hw⟩, fun _ => hr, fun _ => hw⟩
  · exact ⟨rfl, fun hidle => absurd hs.1 hidle, fun hregr => absurd rfl (hregr sp a _), fun _ => rfl⟩
  · exact ⟨rfl, fun hidle => absurd hs.1 hidle, fun _ => rfl, fun hregw => absurd rfl (hregw sp a _)⟩

end Sys2Proof.Machine
